-- ==== Sys2Proof/Word.lean ====
section
/-! DEFINITION. Word.lean: the words that cross the engine's ports and the fields cut from them. -/

namespace Sys2Proof

/-- A 64-bit word: one beat of the command or response port, one register, one output sample
(20_memory.md R61). -/
abbrev Word := BitVec 64

/-- The 64-bit pattern of a NUM value, binary64 (00_scope.md R9, 10_state.md R39). -/
abbrev F64 := BitVec 64

/-- A note identity (30_encoding.md R84). -/
abbrev Key := BitVec 7

namespace F64

/-- +0.0 -/
abbrev zero : F64 := 0x0000000000000000#64
/-- 1.0 -/
abbrev one : F64 := 0x3FF0000000000000#64
/-- 0.5 -/
abbrev half : F64 := 0x3FE0000000000000#64
/-- 2.0 -/
abbrev two : F64 := 0x4000000000000000#64
/-- 0.125 -/
abbrev eighth : F64 := 0x3FC0000000000000#64

end F64

end Sys2Proof
end

