-- ==== Sys2Proof/Config.lean ====
section
/-! DEFINITION. Config.lean: what an implementation fixes. The named parameters of 00_scope.md §4 are
plain data (`Params`), kept in the state beside the PARAMS register, so that a claim about every state
is a claim about every value of them (log 7). What the spec leaves open is an opaque constant with no
body: nothing can be proved about its value. -/

namespace Sys2Proof

/-- One known point of NOTE_FREQ: the frequency of `key` detuned by `cents` (00_scope.md R12). -/
structure NoteFreqPoint where
  key   : Key
  cents : F64
  hz    : F64
  deriving DecidableEq, Repr

/-- The kinds of noise source 00_scope.md R15 allows: a generator about which only the range is known,
a seeded one, and a sequence of draws injected from outside (70_reset_and_hazards.md R297). -/
inductive NoiseSource where
  | unseeded
  | seeded (seed : Nat)
  | injected (draws : List F64)
  deriving DecidableEq, Repr

/-- NUM, the number format (00_scope.md R9): a binary floating-point format with subnormals, two zeros,
infinities and NaNs, rounded to nearest with ties to even. Words carry its values as binary64 patterns
(00_scope.md R17, 10_state.md R22), so its values are among binary64's (log 1). Exponents are those of
multiples of 2^−1074. -/
structure NumFormat where
  /-- significant bits -/
  precision : Nat
  /-- every value is a multiple of 2^quantumExp × 2^−1074, the smallest subnormal -/
  quantumExp : Nat
  /-- every finite magnitude is below 2^limitExp × 2^−1074 -/
  limitExp  : Nat
  deriving DecidableEq, Repr

/-- The reference value of NUM, IEEE 754-2008 binary64: 53 significant bits, smallest subnormal 2^−1074,
finite magnitudes below 2^1024 (00_scope.md R9). -/
def NumFormat.binary64 : NumFormat where
  precision  := 53
  quantumExp := 0
  limitExp   := 2098

/-- A format whose values are binary64 values, that has the values the rules write out (0.125, 0.25, 0.5,
0.75, 1, 2, 3, 4), and whose largest values are so coarse that adding 1 to them is lost (log 1). -/
def NumFormat.wellFormed (f : NumFormat) : Bool :=
  decide (2 ≤ f.precision) && decide (f.precision ≤ 53) && decide (f.quantumExp ≤ 1071) &&
  decide (f.precision + 1076 ≤ f.limitExp) && decide (f.limitExp ≤ 2098)

/-- The implementation parameters of 00_scope.md §4 (R9, R10, R11, R12, R15, R16). -/
structure Params where
  /-- NUM, R9 -/
  num        : NumFormat
  /-- OSC_SLOTS, R10 -/
  oscSlots   : Nat
  /-- MAX_VOICES, R11 -/
  maxVoices  : Nat
  /-- MAX_BLOCK, R11 -/
  maxBlock   : Nat
  /-- FILT_BASE, R16 -/
  filtBase   : F64
  /-- FILT_STEP, R16 -/
  filtStep   : F64
  /-- DEFAULT_EXP, R16 -/
  defaultExp : F64
  /-- the known points of NOTE_FREQ, R12; elsewhere NOTE_FREQ is `Config.noteFreqFree` (log 5) -/
  noteFreq   : List NoteFreqPoint
  /-- NOISE and NOISE_SEED, R15 (log 6) -/
  noise      : NoiseSource
  deriving DecidableEq, Repr

/-- The reference values of 00_scope.md R9, R10, R11, R16, and the three points of the reference NOTE_FREQ
that 95_test_vectors.md states: (69, 0) = 440, (81, 0) = 880, (69, 1200) = 880 (log 5). -/
def Params.reference : Params where
  num        := .binary64
  oscSlots   := 4
  maxVoices  := 16
  maxBlock   := 4096
  filtBase   := F64.half
  filtStep   := F64.eighth
  defaultExp := F64.two
  noteFreq   :=
    [⟨69, F64.zero, 0x407B800000000000#64⟩,
     ⟨81, F64.zero, 0x408B800000000000#64⟩,
     ⟨69, 0x4092C00000000000#64, 0x408B800000000000#64⟩]
  noise      := .unseeded

/-- The ranges of 00_scope.md R10 and R11, and a format for NUM. -/
def Params.wellFormed (p : Params) : Bool :=
  p.num.wellFormed &&
  decide (1 ≤ p.oscSlots) && decide (p.oscSlots ≤ 16) &&
  decide (1 ≤ p.maxVoices) && decide (p.maxVoices ≤ 128) &&
  decide (1 ≤ p.maxBlock) && decide (p.maxBlock ≤ 65535)

/-- The arithmetic operations that can produce a NaN. -/
inductive NumOp where
  | add | sub | mul | div
  deriving DecidableEq, Repr

/-- FREE. The sign and payload of the NaN an operation produces on the given operands: the spec states
that the result is a NaN, not which one (log 2). A function of the operands, so that equal runs give
equal bits (45_update_mixer.md R209). -/
opaque Config.nanFree : NumOp → F64 → F64 → F64

/-- FREE. SIN2PI away from the arguments whose value 00_scope.md R13 fixes (log 4). -/
opaque Config.sin2piFree : F64 → F64

/-- FREE. POW away from the arguments whose value 00_scope.md R14 fixes (log 3). -/
opaque Config.powFree : F64 → F64 → F64

/-- FREE. NOTE_FREQ away from the known points: it depends on key and cents alone (00_scope.md R12,
log 5). -/
opaque Config.noteFreqFree : Key → F64 → F64

/-- FREE. The n-th draw of an unseeded noise source (00_scope.md R15, log 6). -/
opaque Config.noiseFree : Nat → F64

/-- FREE. The n-th draw, counted from reset, of a source with the given seed (00_scope.md R15,
10_state.md R37, log 6). -/
opaque Config.noiseSeeded : Nat → Nat → F64

/-- FREE. OSCBUF[i] after the e-th reset of the run and before a write (10_state.md R36, log 14). -/
opaque Config.oscBufFree : Nat → Nat → Word

/-- FREE. NOTEBUF[i] after the e-th reset of the run and before a write (10_state.md R36, log 14). -/
opaque Config.noteBufFree : Nat → Nat → Word

end Sys2Proof
end

