-- ==== Sys2Proof/Machine/State.lean ====
section
/-! DEFINITION. Machine/State.lean: the state of the engine as plain data (10_state.md), its reset value,
and the reasons a step could stop. -/

namespace Sys2Proof.Machine

/-- An envelope parameter set (a, d, s, r, ea, ed, er) of 10_state.md R22. -/
structure EnvParams where
  attack     : F64
  decay      : F64
  sustain    : F64
  release    : F64
  attackExp  : F64
  decayExp   : F64
  releaseExp : F64
  deriving DecidableEq, Repr

/-- The global configuration of 10_state.md R23; `fenv` is FENV, the filter-envelope parameter set. -/
structure GlobalCfg where
  cutoff     : F64
  resonance  : F64
  fenvAmount : F64
  fenv       : EnvParams
  /-- OSC_COUNT, bits [4:0], R27 -/
  oscCount   : BitVec 5
  deriving DecidableEq, Repr

/-- The configuration of one oscillator slot, 10_state.md R24; `env` is slot[k].ENV. -/
structure SlotCfg where
  /-- WAVE, bits [2:0] -/
  wave       : BitVec 3
  duty       : F64
  detune     : F64
  env        : EnvParams
  volume     : F64
  /-- SYNC, bit [0] -/
  sync       : Bool
  syncDetune : F64
  deriving DecidableEq, Repr

/-- An oscillator state of a voice, 10_state.md R29. -/
structure OscState where
  phase     : F64
  syncPhase : F64
  onAmp     : F64
  offAmp    : F64
  deriving DecidableEq, Repr

/-- A note state, 10_state.md R28; `osc` has OSC_SLOTS entries. -/
structure Voice where
  key     : Key
  onTime  : F64
  offTime : F64
  osc     : List OscState
  f0      : F64
  f1      : F64
  fOnAmp  : F64
  fOffAmp : F64
  deriving DecidableEq, Repr

/-- The fields of STATUS, 10_state.md R33; its reserved bits hold nothing and read 0. -/
structure Status where
  err      : Bool
  cause    : BitVec 4
  errSlot  : BitVec 4
  voiceOvf : Bool
  deriving DecidableEq, Repr

/-- The causes of ConfigError, 60_exceptions.md R251. -/
inductive Cause where
  | badBlockLen
  | badSampleRate
  | badWaveform
  | cutoffRange
  | resonanceRange
  deriving DecidableEq, Repr

/-- A buffer of 64-bit words as (index, word) pairs. What an unlisted index reads as is the reader's
(`outRead`, `oscBufRead`, `noteBufRead` in Machine/Ops.lean). -/
abbrev Cells := List (Nat × Word)

/-- What the host has put on the engine's input ports (30_encoding.md R80, 70_reset_and_hazards.md R280,
R281). -/
inductive PortInput where
  /-- a beat on the command channel -/
  | beat (w : Word)
  /-- `rst` is asserted while no command executes -/
  | rst
  /-- `rst` is asserted while the command executes whose last beat is just before -/
  | rstDuring
  deriving DecidableEq, Repr

/-- The state of the engine and of its ports. INVENTORY.md lists every field with its rule. -/
structure State where
  /-- the implementation parameters; PARAMS reads three of them (R34); no command writes them -/
  params     : Params
  /-- the global configuration, R23 -/
  cfg        : GlobalCfg
  /-- the oscillator slots, R24 -/
  slots      : List SlotCfg
  /-- the active notes in insertion order, R30 -/
  voices     : List Voice
  /-- STATUS, R33; err_irq is its `err` (R38) -/
  status     : Status
  /-- OUT, R35: strictly rising indices, and no entry +0.0, which an unlisted index reads as -/
  out        : Cells
  /-- OSCBUF, R36: strictly rising indices; an unlisted word is free (log 14) -/
  oscBuf     : Cells
  /-- NOTEBUF, R36: strictly rising indices; an unlisted word is free (log 14) -/
  noteBuf    : Cells
  /-- resets since power-on: the model's own counter, by which each reset leaves fresh words in the scratch
  buffers (log 14) -/
  resets     : Nat
  /-- draws taken from the noise source, R37: the model's own counter (log 6) -/
  noiseDraws : Nat
  /-- the ordinal of the next command in the stream, R21 -/
  position   : Nat
  /-- what the host has put on the input ports and no step has taken, oldest first (log 9) -/
  inbox      : List PortInput
  /-- the response words delivered so far, oldest first, R19 (log 11) -/
  responses  : List Word
  /-- the causes of the ConfigErrors raised so far, oldest first, 60_exceptions.md R264 (log 12) -/
  faultLog   : List Cause
  deriving DecidableEq, Repr

/-- The reset envelope of 10_state.md R23 and R24: attack, decay and release 0, sustain 1, exponents
DEFAULT_EXP. -/
def EnvParams.reset (p : Params) : EnvParams where
  attack     := F64.zero
  decay      := F64.zero
  sustain    := F64.one
  release    := F64.zero
  attackExp  := p.defaultExp
  decayExp   := p.defaultExp
  releaseExp := p.defaultExp

/-- The reset column of 10_state.md R23. -/
def GlobalCfg.reset (p : Params) : GlobalCfg where
  cutoff     := F64.one
  resonance  := F64.zero
  fenvAmount := F64.zero
  fenv       := EnvParams.reset p
  oscCount   := 1#5

/-- The reset column of 10_state.md R24. -/
def SlotCfg.reset (p : Params) : SlotCfg where
  wave       := 0#3
  duty       := F64.half
  detune     := F64.zero
  env        := EnvParams.reset p
  volume     := F64.one
  sync       := false
  syncDetune := F64.zero

/-- STATUS = 0. -/
def Status.reset : Status where
  err      := false
  cause    := 0#4
  errSlot  := 0#4
  voiceOvf := false

/-- The engine with parameters `p` right after power-on reset (10_state.md R41). Ports are idle, nothing
has been sent, answered or logged. -/
def State.resetWith (p : Params) : State where
  params     := p
  cfg        := GlobalCfg.reset p
  slots      := List.replicate p.oscSlots (SlotCfg.reset p)
  voices     := []
  status     := Status.reset
  out        := []
  oscBuf     := []
  noteBuf    := []
  resets     := 0
  noiseDraws := 0
  position   := 0
  inbox      := []
  responses  := []
  faultLog   := []

/-- The machine right after reset, at the reference parameters. -/
def State.reset : State := State.resetWith Params.reference

/-- The faults of the engine. A fault does not stop it: `exec` answers the next state, in which the fault's
effect is applied and its cause logged, and `updateOutcome` says that the UPDATE ended in the fault
(60_exceptions.md R252, R254, R264; log 8). -/
inductive Fault where
  /-- ConfigError(cause, slot), 60_exceptions.md R252: an UPDATE raises it, and nothing else does (R250).
  Safe: the effect and the fault log are the spec's. -/
  | configError (cause : Cause) (slot : BitVec 4)
  deriving DecidableEq, Repr

/-- Why a step could have no meaning. -/
inductive Refusal where
  /-- An arm of `exec` without a meaning, by its mnemonic; safe. No arm raises it: every row of the
  opcode table has its meaning. -/
  | notModelled (mnemonic : String)
  deriving DecidableEq, Repr

end Sys2Proof.Machine
end

