-- ==== Sys2Proof/Machine/Flags.lean ====
section
/-! DEFINITION. Machine/Flags.lean: STATUS, its fields and every computation of them (10_state.md R33). -/

namespace Sys2Proof.Machine

/-- The code of a cause, 60_exceptions.md R251. -/
def Cause.code : Cause → BitVec 4
  | .badBlockLen => 1#4
  | .badSampleRate => 2#4
  | .badWaveform => 3#4
  | .cutoffRange => 4#4
  | .resonanceRange => 5#4

/-- STATUS as CFG_READ gives it, reserved bits 0: ERR bit 0, CAUSE bits [7:4], ERR_SLOT bits [11:8],
VOICE_OVF bit 12 (10_state.md R33). -/
def statusWord (st : Status) : Word :=
  (BitVec.ofBool st.err).setWidth 64 ||| (st.cause.setWidth 64 <<< 4) |||
    (st.errSlot.setWidth 64 <<< 8) ||| ((BitVec.ofBool st.voiceOvf).setWidth 64 <<< 12)

/-- STATUS after a ConfigError: the first cause since the last clear is kept, ERR is set
(60_exceptions.md R252, R254). -/
def recordError (cause : Cause) (slot : BitVec 4) (st : Status) : Status :=
  if st.err then st
  else { st with err := true, cause := cause.code, errSlot := slot }

/-- STATUS after a NOTE_ON dropped for a full set (44_events.md R181). -/
def recordOverflow (st : Status) : Status := { st with voiceOvf := true }

/-- Mask bit 0 of STATUS_CLEAR: the error group (46_host_access.md R236). -/
def clearErrorGroup (st : Status) : Status := { st with err := false, cause := 0#4, errSlot := 0#4 }

/-- Mask bit 1 of STATUS_CLEAR (46_host_access.md R236). -/
def clearOverflow (st : Status) : Status := { st with voiceOvf := false }

/-- STATUS after STATUS_CLEAR (46_host_access.md R236). -/
def clearStatus (mask : BitVec 2) (st : Status) : Status :=
  let st1 := if mask.getLsbD 0 then clearErrorGroup st else st
  if mask.getLsbD 1 then clearOverflow st1 else st1

/-- The err_irq output, a level equal to status.ERR (10_state.md R38, 60_exceptions.md R256). -/
def State.errIrq (s : State) : Bool := s.status.err

end Sys2Proof.Machine
end

