-- ==== Sys2Proof/Machine/Fp.lean ====
section
/-! DEFINITION. Machine/Fp.lean: the arithmetic of NUM (00_scope.md R9, R17), for every format of
Config.lean. A value is a NaN, an infinity, or an exact multiple of 2^−1074, binary64's smallest
subnormal. An operation on finite values is computed exactly on integers and narrowed once to NUM, to
nearest with ties to even, subnormals kept. -/

namespace Sys2Proof.Machine

/-- A NUM value. `fin neg mag` is (−1)^neg × mag × 2^−1074, so both zeros are there; a NaN keeps its
pattern. -/
inductive Fp where
  | nan (pattern : F64)
  | inf (neg : Bool)
  | fin (neg : Bool) (mag : Nat)
  deriving DecidableEq, Repr

/-- The magnitude of 1.0 in units of 2^−1074. -/
@[irreducible] def unitMag : Nat := 2 ^ 1074

/-- Magnitudes from here up are beyond the largest finite value: 2^1024 in units of 2^−1074. -/
@[irreducible] def infMag : Nat := 2 ^ 2098

/-- The value of a binary64 pattern. -/
def Fp.decode (w : F64) : Fp :=
  let neg := w.msb
  let e := w.toNat / 2 ^ 52 % 2 ^ 11
  let f := w.toNat % 2 ^ 52
  if e = 2047 then (if f = 0 then .inf neg else .nan w)
  else if e = 0 then .fin neg f
  else .fin neg ((2 ^ 52 + f) * 2 ^ (e - 1))

/-- The low 63 bits of the pattern of a finite magnitude. -/
def magBits (mag : Nat) : Nat :=
  let k := mag.log2 - 52
  k * 2 ^ 52 + mag / 2 ^ k

/-- The sign bit of a pattern. -/
def signBit (neg : Bool) : Nat := if neg then 2 ^ 63 else 0

/-- The binary64 pattern of a value. -/
def Fp.toWord : Fp → F64
  | .nan p => p
  | .inf neg => BitVec.ofNat 64 (signBit neg + 0x7FF0000000000000)
  | .fin neg mag => BitVec.ofNat 64 (signBit neg + magBits mag)

/-- The magnitude of NUM nearest to n / d, ties to even, before overflow: `precision` significant bits, or a
multiple of the smallest subnormal where that is coarser. -/
def roundMag (nf : NumFormat) (n d : Nat) : Nat :=
  let k := max ((n / d).log2 + 1 - nf.precision) nf.quantumExp
  let u := d * 2 ^ k
  let q := n / u
  let r := n % u
  (if u < 2 * r ∨ (2 * r = u ∧ q % 2 = 1) then q + 1 else q) * 2 ^ k

/-- The value nearest to (−1)^neg × n / d units; infinite when the rounded magnitude is too large. -/
def Fp.ofRatio (nf : NumFormat) (neg : Bool) (n d : Nat) : Fp :=
  let m := roundMag nf n d
  if m < 2 ^ nf.limitExp then .fin neg m else .inf neg

/-- The value of NUM nearest to a value; a NaN keeps its pattern. -/
def Fp.round (nf : NumFormat) : Fp → Fp
  | .nan p => .nan p
  | .inf neg => .inf neg
  | .fin neg mag => .ofRatio nf neg mag 1

/-- The NUM value a word carries. A binary64 pattern that is no value of a narrower NUM counts as the
nearest one (log 1). -/
def Fp.ofWord (nf : NumFormat) (w : F64) : Fp := Fp.round nf (Fp.decode w)

/-- The NaN an operation produces: a quiet NaN whose sign and payload are free (log 2). -/
def nanResult (op : NumOp) (x y : Fp) : Fp :=
  .nan ((Config.nanFree op x.toWord y.toWord &&& 0x8007FFFFFFFFFFFF#64) ||| 0x7FF8000000000000#64)

/-- (−1)^neg × mag as an integer. -/
def signedMag (neg : Bool) (mag : Nat) : Int := if neg then -(mag : Int) else (mag : Int)

/-- The value nearest to an exact sum; an exact zero is −0 only when `negZero`. -/
def Fp.ofInt (nf : NumFormat) (z : Int) (negZero : Bool) : Fp :=
  if z = 0 then .fin negZero 0 else .ofRatio nf (decide (z < 0)) z.natAbs 1

/-- x + y -/
def Fp.add (nf : NumFormat) (x y : Fp) : Fp :=
  match x, y with
  | .fin s a, .fin t b => .ofInt nf (signedMag s a + signedMag t b) (s && t)
  | .fin _ _, .inf t => .inf t
  | .inf s, .fin _ _ => .inf s
  | .inf s, .inf t => if s = t then .inf s else nanResult .add x y
  | .nan _, _ => nanResult .add x y
  | _, .nan _ => nanResult .add x y

/-- x − y -/
def Fp.sub (nf : NumFormat) (x y : Fp) : Fp :=
  match x, y with
  | .fin s a, .fin t b => .ofInt nf (signedMag s a - signedMag t b) (s && !t)
  | .fin _ _, .inf t => .inf !t
  | .inf s, .fin _ _ => .inf s
  | .inf s, .inf t => if s = t then nanResult .sub x y else .inf s
  | .nan _, _ => nanResult .sub x y
  | _, .nan _ => nanResult .sub x y

/-- x × y -/
def Fp.mul (nf : NumFormat) (x y : Fp) : Fp :=
  match x, y with
  | .fin s a, .fin t b => .ofRatio nf (s ^^ t) (a * b) unitMag
  | .fin s a, .inf t => if a = 0 then nanResult .mul x y else .inf (s ^^ t)
  | .inf s, .fin t b => if b = 0 then nanResult .mul x y else .inf (s ^^ t)
  | .inf s, .inf t => .inf (s ^^ t)
  | .nan _, _ => nanResult .mul x y
  | _, .nan _ => nanResult .mul x y

/-- x ÷ y -/
def Fp.div (nf : NumFormat) (x y : Fp) : Fp :=
  match x, y with
  | .fin s a, .fin t b =>
    if b = 0 then (if a = 0 then nanResult .div x y else .inf (s ^^ t))
    else .ofRatio nf (s ^^ t) (a * unitMag) b
  | .fin s _, .inf t => .fin (s ^^ t) 0
  | .inf s, .fin t _ => .inf (s ^^ t)
  | .inf _, .inf _ => nanResult .div x y
  | .nan _, _ => nanResult .div x y
  | _, .nan _ => nanResult .div x y

/-- floor(x), exact; the identity on NaN, infinities and zeros. -/
def Fp.floor (x : Fp) : Fp :=
  match x with
  | .fin false a => .fin false (a / unitMag * unitMag)
  | .fin true a => .fin true ((a + (unitMag - 1)) / unitMag * unitMag)
  | .inf s => .inf s
  | .nan p => .nan p

/-- The value on the extended line, in units; none for a NaN. −0 and +0 have one value. -/
def Fp.value (x : Fp) : Option Int :=
  match x with
  | .fin s a => some (signedMag s a)
  | .inf s => some (signedMag s infMag)
  | .nan _ => none

/-- x < y, false when either is a NaN. -/
def Fp.lt (x y : Fp) : Bool :=
  match x.value, y.value with
  | some a, some b => decide (a < b)
  | _, _ => false

/-- x ≤ y, false when either is a NaN. -/
def Fp.le (x y : Fp) : Bool :=
  match x.value, y.value with
  | some a, some b => decide (a ≤ b)
  | _, _ => false

/-- x == y: −0 == +0, and no NaN equals anything. -/
def Fp.eq (x y : Fp) : Bool :=
  match x.value, y.value with
  | some a, some b => decide (a = b)
  | _, _ => false

/-- An integer below 2^53, exactly (45_update_mixer.md R200). -/
def Fp.ofNat (n : Nat) : Fp := .fin false (n * unitMag)

/-- +0 -/
abbrev Fp.zero : Fp := .fin false 0
/-- 1 -/
abbrev Fp.one : Fp := .fin false unitMag
/-- −1 -/
abbrev Fp.negOne : Fp := .fin true unitMag
/-- 2 -/
abbrev Fp.two : Fp := .fin false (2 * unitMag)
/-- 3 -/
abbrev Fp.three : Fp := .fin false (3 * unitMag)
/-- 4 -/
abbrev Fp.four : Fp := .fin false (4 * unitMag)
/-- 0.25 -/
abbrev Fp.quarter : Fp := .fin false (unitMag / 4)
/-- 0.5 -/
abbrev Fp.half : Fp := .fin false (unitMag / 2)
/-- 0.75 -/
abbrev Fp.threeQuarters : Fp := .fin false (3 * (unitMag / 4))

/-- y where −b ≤ y ≤ b, else +0: a free value confined to a stated bound. -/
def Fp.within (b y : Fp) : Fp :=
  match b.value, y.value with
  | some c, some v => if -c ≤ v ∧ v ≤ c then y else .zero
  | _, _ => .zero

end Sys2Proof.Machine
end

