-- ==== Sys2Proof/Machine/Functions.lean ====
section
/-! DEFINITION. Machine/Functions.lean: the function parameters of 00_scope.md §4 (SIN2PI, POW, NOTE_FREQ,
NOISE). Each has the value the spec states where it states one, and is free elsewhere. -/

namespace Sys2Proof.Machine

/-- SIN2PI, 00_scope.md R13: the four stated values, a magnitude of at most 2^−50 at 0.5, a magnitude of at
most 1 on [0, 1), and nothing elsewhere (log 4). -/
def sin2pi (nf : NumFormat) (p : Fp) : Fp :=
  let free := Fp.ofWord nf (Config.sin2piFree p.toWord)
  if p = .zero then .zero
  else if p = .quarter then .one
  else if p = .threeQuarters then .negOne
  else if p = .half then Fp.within (.fin false (unitMag / 2 ^ 50)) free
  else if Fp.le .zero p && Fp.lt p .one then Fp.within .one free
  else free

/-- n when the value is the integer n with 0 ≤ n ≤ bound. -/
def asNatUpTo (bound : Nat) : Fp → Option Nat
  | .fin false mag =>
    if mag % unitMag = 0 ∧ mag / unitMag ≤ bound then some (mag / unitMag) else none
  | .fin true _ => none
  | .inf _ => none
  | .nan _ => none

/-- POW, 00_scope.md R14: its named properties in the order the rule lists them, the value POW(0.5, −8) =
256 that 95_test_vectors.md L2.4 states, and nothing elsewhere (log 3). The 0 of the properties is +0. The
powers of two are those that NUM has: all the rule lists, in binary64. -/
def pow (nf : NumFormat) (x y : Fp) : Fp :=
  if y = .zero then .one
  else if x = .one then .one
  else if x = .zero && Fp.lt .zero y then .zero
  else if y = .one then x
  else if y = .two then Fp.mul nf x x
  else
    let free := Fp.ofWord nf (Config.powFree x.toWord y.toWord)
    if x = .half then
      match asNatUpTo 1074 y with
      | some n => if nf.quantumExp ≤ 1074 - n then .fin false (2 ^ (1074 - n)) else free
      | none =>
        if y = .fin true (8 * unitMag) ∧ 1082 < nf.limitExp then .fin false (256 * unitMag) else free
    else if x = .two then
      match asNatUpTo 1023 y with
      | some n => if 1074 + n < nf.limitExp then .fin false (2 ^ (1074 + n)) else free
      | none => free
    else free

/-- NOTE_FREQ(key, cents), 00_scope.md R12: a known point, or free; it depends on key and cents alone, the
NUM value its word carries (log 5). -/
def noteFreq (p : Params) (key : Key) (cents : F64) : Fp :=
  let c := (Fp.ofWord p.num cents).toWord
  match p.noteFreq.find? (fun pt => pt.key = key ∧ pt.cents = c) with
  | some pt => Fp.ofWord p.num pt.hz
  | none => Fp.ofWord p.num (Config.noteFreqFree key c)

/-- The n-th value of a noise source, in [−1, 1] whatever the source (00_scope.md R15, log 6). -/
def noiseAt (nf : NumFormat) (src : NoiseSource) (n : Nat) : Fp :=
  Fp.within .one <| Fp.ofWord nf <|
    match src with
    | .unseeded => Config.noiseFree n
    | .seeded seed => Config.noiseSeeded seed n
    | .injected draws =>
      match draws[n]? with
      | some d => d
      | none => Config.noiseFree n

/-- The draw counter after a reset: a seeded source restarts, another is unspecified and its draws stay
fresh (10_state.md R37, log 6). -/
def noiseDrawsAfterReset (src : NoiseSource) (n : Nat) : Nat :=
  match src with
  | .seeded _ => 0
  | .unseeded => n
  | .injected _ => n

end Sys2Proof.Machine
end

