-- ==== Sys2Proof/Machine/Ops.lean ====
section
/-! DEFINITION. Machine/Ops.lean: the named operations over the buffers, the voice list, the ports and the
state as a whole, with taking the one exception and resetting the engine. -/

namespace Sys2Proof.Machine

/-! ## Buffers of words -/

/-- Indices strictly rise, all at or above `lo`. -/
def Cells.risingFrom (lo : Nat) : Cells → Bool
  | [] => true
  | (i, _) :: rest => decide (lo ≤ i) && Cells.risingFrom (i + 1) rest

/-- The word listed at an index. -/
def Cells.find (m : Cells) (i : Nat) : Option Word := m.lookup i

/-- The words of a block as cells from index `i` on. -/
def blockCells (i : Nat) : List Word → Cells
  | [] => []
  | w :: ws => (i, w) :: blockCells (i + 1) ws

/-- A buffer after words 0 .. len−1 are written; the others keep their values. -/
def Cells.storeBlock (ws : List Word) (m : Cells) : Cells :=
  blockCells 0 ws ++ m.filter (fun c => decide (ws.length ≤ c.1))

/-- The canonical form of OUT, the engine's one addressable memory: strictly rising indices and no entry
+0.0, so that equal memories are equal data. -/
def Memory.wf (m : Cells) : Bool :=
  Cells.risingFrom 0 m && m.all (fun c => decide (c.2 ≠ F64.zero))

/-- One word of OUT: an unlisted word is +0.0, which every word is after reset (10_state.md R35). -/
def outCell (m : Cells) (i : Nat) : Word := (m.find i).getD F64.zero

/-- OUT after words 0 .. len−1 are written, in canonical form. -/
def outStore (ws : List Word) (m : Cells) : Cells :=
  (Cells.storeBlock ws m).filter (fun c => decide (c.2 ≠ F64.zero))

/-- OutRead(i), 20_memory.md R64. -/
def outRead (s : State) (i : Nat) : Word :=
  if i < s.params.maxBlock then outCell s.out i else F64.zero

/-- One word of a scratch buffer: the word written since reset, else the word `free` gives. -/
def scratchWord (free : Nat → Word) (m : Cells) (i : Nat) : Word := (m.find i).getD (free i)

/-- OSCBUF[i], any word after a reset until it is written (10_state.md R36, log 14). -/
def oscBufRead (s : State) (i : Nat) : Word := scratchWord (Config.oscBufFree s.resets) s.oscBuf i

/-- NOTEBUF[i], any word after a reset until it is written (10_state.md R36, log 14). -/
def noteBufRead (s : State) (i : Nat) : Word := scratchWord (Config.noteBufFree s.resets) s.noteBuf i

/-- `n` words of +0. -/
def zeroBlock (n : Nat) : List Word := List.replicate n F64.zero

/-! ## Updates of the state -/

/-- The state with another global configuration. -/
def State.setCfg (s : State) (c : GlobalCfg) : State := { s with cfg := c }
/-- The state with other slot configurations. -/
def State.setSlots (s : State) (xs : List SlotCfg) : State := { s with slots := xs }
/-- The state with other voices. -/
def State.setVoices (s : State) (vs : List Voice) : State := { s with voices := vs }
/-- The state with another STATUS. -/
def State.setStatus (s : State) (st : Status) : State := { s with status := st }
/-- The state with another OUT. -/
def State.setOut (s : State) (m : Cells) : State := { s with out := m }
/-- The state with other scratch buffers. -/
def State.setScratch (s : State) (osc note : Cells) : State := { s with oscBuf := osc, noteBuf := note }
/-- The state with another count of noise draws. -/
def State.setNoiseDraws (s : State) (n : Nat) : State := { s with noiseDraws := n }
/-- The state with one more entry in the fault log (60_exceptions.md R264). -/
def State.logFault (s : State) (c : Cause) : State := { s with faultLog := s.faultLog ++ [c] }
/-- Respond(w): one word on the response port (00_scope.md R17). -/
def State.respond (s : State) (w : Word) : State := { s with responses := s.responses ++ [w] }
/-- The state once a command's beats are taken off the port: the position moves on by one command. -/
def State.take (s : State) (rest : List PortInput) : State :=
  { s with inbox := rest, position := s.position + 1 }

/-! ## Voices -/

/-- FIND(key), 44_events.md R180. -/
def findVoice (key : Key) (vs : List Voice) : Option Voice := vs.find? (fun v => decide (v.key = key))

/-- The voice list with the entry of `key` changed in place (10_state.md R30: it keeps its place). -/
def modifyVoice (key : Key) (f : Voice → Voice) (vs : List Voice) : List Voice :=
  vs.map (fun v => if v.key = key then f v else v)

/-- OSC_COUNT as a number. -/
def State.oscCount (s : State) : Nat := s.cfg.oscCount.toNat

/-- Slots 0 .. OSC_COUNT−1, the slots in use (10_state.md R27). -/
def State.activeSlots (s : State) : List SlotCfg := s.slots.take s.oscCount

/-! ## The exception and reset -/

/-- raise ConfigError(cause, slot), 60_exceptions.md R252: words 0 .. N−1 of OUT become +0 unless the cause
is 1, STATUS records the first cause, and nothing else changes; the cause goes to the fault log (R264).
There is no return from it (R254): `clearErrorGroup` and `resetEngine` are what clears STATUS. -/
def raiseConfigError (cause : Cause) (slot : BitVec 4) (n : Nat) (s : State) : State :=
  let zeroed := if cause = .badBlockLen then s else s.setOut (outStore (zeroBlock n) s.out)
  (zeroed.setStatus (recordError cause slot s.status)).logFault cause

/-- The effect of `rst` and of RESET on the engine (70_reset_and_hazards.md R280, 10_state.md R41). The
parameters are fixed; the position, the words delivered and the fault log are records of the run, not engine
state (logs 11, 12, 13); the scratch buffers hold fresh free words (log 14); the noise source is as R37
says. -/
def resetEngine (s : State) : State :=
  { State.resetWith s.params with
    resets     := s.resets + 1
    noiseDraws := noiseDrawsAfterReset s.params.noise s.noiseDraws
    position   := s.position
    inbox      := s.inbox
    responses  := s.responses
    faultLog   := s.faultLog }

end Sys2Proof.Machine
end

