-- ==== Sys2Proof/Machine/Envelope.lean ====
section
/-! DEFINITION. Machine/Envelope.lean: the Envelope Generator (41_envelope.md). Pure functions (R110). -/

namespace Sys2Proof.Machine

/-- INTERP(x, yL, yR, e), 41_envelope.md R111. -/
def interp (nf : NumFormat) (x yL yR e : Fp) : Fp :=
  if Fp.lt yL yR then
    Fp.add nf yL (Fp.mul nf (pow nf x e) (Fp.sub nf yR yL))
  else
    Fp.add nf yR (Fp.mul nf (pow nf (Fp.sub nf .one x) e) (Fp.sub nf yL yR))

/-- Elapsed time, never negative (41_envelope.md R118). -/
def elapsed (nf : NumFormat) (cur since : Fp) : Fp :=
  let t := Fp.sub nf cur since
  if Fp.lt t .zero then .zero else t

/-- The held branch of ENV at elapsed time t: attack, decay, sustain (41_envelope.md R113 to R115). -/
def envHeld (nf : NumFormat) (p : EnvParams) (t onAmp : Fp) : Fp :=
  let a := Fp.ofWord nf p.attack
  let d := Fp.ofWord nf p.decay
  let s := Fp.ofWord nf p.sustain
  if Fp.lt t a then interp nf (Fp.div nf t a) onAmp .one (Fp.ofWord nf p.attackExp)
  else if Fp.lt t (Fp.add nf a d) then interp nf (Fp.div nf (Fp.sub nf t a) d) .one s (Fp.ofWord nf p.decayExp)
  else s

/-- The released branch of ENV at elapsed time t (41_envelope.md R116, R117). -/
def envReleased (nf : NumFormat) (p : EnvParams) (t offAmp : Fp) : Fp :=
  let r := Fp.ofWord nf p.release
  if Fp.lt t r then interp nf (Fp.div nf t r) offAmp .zero (Fp.ofWord nf p.releaseExp)
  else .zero

/-- ENV(p, cur, on, off, onAmp, offAmp), 41_envelope.md R112. -/
def env (nf : NumFormat) (p : EnvParams) (cur on off onAmp offAmp : Fp) : Fp :=
  if Fp.eq off .zero then envHeld nf p (elapsed nf cur on) onAmp
  else envReleased nf p (elapsed nf cur off) offAmp

/-- ENV of an oscillator slot of a voice (44_events.md R182, 45_update_mixer.md R203). -/
def slotEnv (nf : NumFormat) (p : SlotCfg) (v : Voice) (o : OscState) (cur : Fp) : Fp :=
  env nf p.env cur (Fp.ofWord nf v.onTime) (Fp.ofWord nf v.offTime)
    (Fp.ofWord nf o.onAmp) (Fp.ofWord nf o.offAmp)

/-- ENV of the filter envelope of a voice (43_filter.md R161, 44_events.md R182). -/
def filterEnv (nf : NumFormat) (c : GlobalCfg) (v : Voice) (cur : Fp) : Fp :=
  env nf c.fenv cur (Fp.ofWord nf v.onTime) (Fp.ofWord nf v.offTime)
    (Fp.ofWord nf v.fOnAmp) (Fp.ofWord nf v.fOffAmp)

end Sys2Proof.Machine
end

