-- ==== Sys2Proof/Machine/Events.lean ====
section
/-! DEFINITION. Machine/Events.lean: the event commands, NOP and the reserved opcodes (44_events.md). -/

namespace Sys2Proof.Machine

/-- A zeroed oscillator state, 44_events.md R181. -/
def freshOsc : OscState where
  phase     := F64.zero
  syncPhase := F64.zero
  onAmp     := F64.zero
  offAmp    := F64.zero

/-- The new note state of 44_events.md R181. -/
def freshVoice (p : Params) (key : Key) (time : F64) : Voice where
  key     := key
  onTime  := time
  offTime := F64.zero
  osc     := List.replicate p.oscSlots freshOsc
  f0      := F64.zero
  f1      := F64.zero
  fOnAmp  := F64.zero
  fOffAmp := F64.zero

/-- A change of the oscillator states of the slots in use, slot by slot; the others stay. -/
def mapActive (f : SlotCfg → OscState → OscState) : List SlotCfg → List OscState → List OscState
  | p :: ps, o :: os => f p o :: mapActive f ps os
  | [], os => os
  | _ :: _, [] => []

/-- RETRIGGER(v, time), 44_events.md R182; every ENV reads the old fields. -/
def retrigger (nf : NumFormat) (c : GlobalCfg) (slots : List SlotCfg) (time : F64) (v : Voice) : Voice :=
  let t := Fp.ofWord nf time
  { v with
    osc     := mapActive (fun p o => { o with onAmp := (slotEnv nf p v o t).toWord }) slots v.osc
    fOnAmp  := (filterEnv nf c v t).toWord
    onTime  := time
    offTime := F64.zero }

/-- The release of a voice, 44_events.md R183; every ENV reads the old fields. -/
def release (nf : NumFormat) (c : GlobalCfg) (slots : List SlotCfg) (time : F64) (v : Voice) : Voice :=
  let t := Fp.ofWord nf time
  { v with
    osc     := mapActive (fun p o => { o with offAmp := (slotEnv nf p v o t).toWord }) slots v.osc
    fOffAmp := (filterEnv nf c v t).toWord
    offTime := time }

/-- NOTE_ON(key, time), 44_events.md R181, R182. -/
def execNoteOn (key : Key) (time : F64) (s : State) : Host.Outcome State Fault Refusal :=
  match findVoice key s.voices with
  | some _ => .next (s.setVoices (modifyVoice key (retrigger s.params.num s.cfg s.activeSlots time) s.voices))
  | none =>
    if s.params.maxVoices ≤ s.voices.length then .next (s.setStatus (recordOverflow s.status))
    else .next (s.setVoices (s.voices ++ [freshVoice s.params key time]))

/-- NOTE_OFF(key, time), 44_events.md R183: a silent no-op on an unknown key (R184). -/
def execNoteOff (key : Key) (time : F64) (s : State) : Host.Outcome State Fault Refusal :=
  match findVoice key s.voices with
  | some _ => .next (s.setVoices (modifyVoice key (release s.params.num s.cfg s.activeSlots time) s.voices))
  | none => .next s

/-- ALL_NOTES_OFF, 44_events.md R185; the operand is ignored (30_encoding.md R90). -/
def execAllNotesOff (_time : F64) (s : State) : Host.Outcome State Fault Refusal :=
  .next (s.setVoices [])

/-- NOP, 44_events.md R186. -/
def execNop (s : State) : Host.Outcome State Fault Refusal := .next s

/-- Opcode 0x9, a no-op, 44_events.md R187. -/
def execRsvd9 (s : State) : Host.Outcome State Fault Refusal := .next s
/-- Opcode 0xA, a no-op, 44_events.md R187. -/
def execRsvdA (s : State) : Host.Outcome State Fault Refusal := .next s
/-- Opcode 0xB, a no-op, 44_events.md R187. -/
def execRsvdB (s : State) : Host.Outcome State Fault Refusal := .next s
/-- Opcode 0xC, a no-op, 44_events.md R187. -/
def execRsvdC (s : State) : Host.Outcome State Fault Refusal := .next s
/-- Opcode 0xD, a no-op, 44_events.md R187. -/
def execRsvdD (s : State) : Host.Outcome State Fault Refusal := .next s
/-- Opcode 0xE, a no-op, 44_events.md R187. -/
def execRsvdE (s : State) : Host.Outcome State Fault Refusal := .next s

end Sys2Proof.Machine
end

