-- ==== Sys2Proof/Machine/Operands.lean ====
section
/-! DEFINITION. Machine/Operands.lean: the register space (20_memory.md R62), its reads and its writes. -/

namespace Sys2Proof.Machine

/-- The NUM fields of the global configuration, 10_state.md R23. -/
inductive GlobalField where
  | cutoff | resonance | fenvAmount | fenvAttack | fenvDecay | fenvSustain | fenvRelease
  | fenvAttackExp | fenvDecayExp | fenvReleaseExp
  deriving DecidableEq, Repr

/-- The NUM fields of a slot, 10_state.md R24. -/
inductive SlotField where
  | duty | detune | attack | decay | sustain | release | attackExp | decayExp | releaseExp
  | volume | syncDetune
  deriving DecidableEq, Repr

/-- What a register-space address names (20_memory.md R62). -/
inductive Reg where
  | global (f : GlobalField)
  | oscCount
  | status
  | activeCount
  | ident
  | params
  | slotNum (k : Nat) (f : SlotField)
  | slotWave (k : Nat)
  | slotSync (k : Nat)
  | reserved
  deriving DecidableEq, Repr

/-- The slot register at offset `o` of slot `k`, 10_state.md R24. -/
def slotReg (k o : Nat) : Reg :=
  match o with
  | 0x0 => .slotWave k
  | 0x1 => .slotNum k .duty
  | 0x2 => .slotNum k .detune
  | 0x3 => .slotNum k .attack
  | 0x4 => .slotNum k .decay
  | 0x5 => .slotNum k .sustain
  | 0x6 => .slotNum k .release
  | 0x7 => .slotNum k .attackExp
  | 0x8 => .slotNum k .decayExp
  | 0x9 => .slotNum k .releaseExp
  | 0xA => .slotNum k .volume
  | 0xB => .slotSync k
  | 0xC => .slotNum k .syncDetune
  | _ => .reserved

/-- The map of 20_memory.md R62 below 0x100. -/
def lowReg (a : Nat) : Reg :=
  match a with
  | 0x000 => .global .cutoff
  | 0x001 => .global .resonance
  | 0x002 => .global .fenvAmount
  | 0x003 => .global .fenvAttack
  | 0x004 => .global .fenvDecay
  | 0x005 => .global .fenvSustain
  | 0x006 => .global .fenvRelease
  | 0x007 => .global .fenvAttackExp
  | 0x008 => .global .fenvDecayExp
  | 0x009 => .global .fenvReleaseExp
  | 0x00A => .oscCount
  | 0x010 => .status
  | 0x011 => .activeCount
  | 0x012 => .ident
  | 0x013 => .params
  | _ => .reserved

/-- decode(addr), 20_memory.md R62. -/
def decodeReg (p : Params) (addr : BitVec 12) : Reg :=
  let a := addr.toNat
  if a < 0x100 then lowReg a
  else if a < 0x200 then
    (if a / 16 % 16 < p.oscSlots then slotReg (a / 16 % 16) (a % 16) else .reserved)
  else .reserved

/-- The address of a global NUM field, 10_state.md R23. -/
def GlobalField.addr : GlobalField → BitVec 12
  | .cutoff => 0x000#12
  | .resonance => 0x001#12
  | .fenvAmount => 0x002#12
  | .fenvAttack => 0x003#12
  | .fenvDecay => 0x004#12
  | .fenvSustain => 0x005#12
  | .fenvRelease => 0x006#12
  | .fenvAttackExp => 0x007#12
  | .fenvDecayExp => 0x008#12
  | .fenvReleaseExp => 0x009#12

/-- The offset of a slot's NUM field, 10_state.md R24. -/
def SlotField.offset : SlotField → Nat
  | .duty => 0x1
  | .detune => 0x2
  | .attack => 0x3
  | .decay => 0x4
  | .sustain => 0x5
  | .release => 0x6
  | .attackExp => 0x7
  | .decayExp => 0x8
  | .releaseExp => 0x9
  | .volume => 0xA
  | .syncDetune => 0xC

/-- The address 0x100 + 0x10·k + o, 10_state.md R24. -/
def slotAddr (k o : Nat) : BitVec 12 := BitVec.ofNat 12 (0x100 + 0x10 * k + o)

/-- A NUM field of the global configuration. -/
def getGlobal (f : GlobalField) (c : GlobalCfg) : F64 :=
  match f with
  | .cutoff => c.cutoff
  | .resonance => c.resonance
  | .fenvAmount => c.fenvAmount
  | .fenvAttack => c.fenv.attack
  | .fenvDecay => c.fenv.decay
  | .fenvSustain => c.fenv.sustain
  | .fenvRelease => c.fenv.release
  | .fenvAttackExp => c.fenv.attackExp
  | .fenvDecayExp => c.fenv.decayExp
  | .fenvReleaseExp => c.fenv.releaseExp

/-- The global configuration with a NUM field set; the pattern is kept (10_state.md R39). -/
def setGlobal (f : GlobalField) (w : F64) (c : GlobalCfg) : GlobalCfg :=
  match f with
  | .cutoff => { c with cutoff := w }
  | .resonance => { c with resonance := w }
  | .fenvAmount => { c with fenvAmount := w }
  | .fenvAttack => { c with fenv := { c.fenv with attack := w } }
  | .fenvDecay => { c with fenv := { c.fenv with decay := w } }
  | .fenvSustain => { c with fenv := { c.fenv with sustain := w } }
  | .fenvRelease => { c with fenv := { c.fenv with release := w } }
  | .fenvAttackExp => { c with fenv := { c.fenv with attackExp := w } }
  | .fenvDecayExp => { c with fenv := { c.fenv with decayExp := w } }
  | .fenvReleaseExp => { c with fenv := { c.fenv with releaseExp := w } }

/-- A NUM field of a slot. -/
def getSlotNum (f : SlotField) (c : SlotCfg) : F64 :=
  match f with
  | .duty => c.duty
  | .detune => c.detune
  | .attack => c.env.attack
  | .decay => c.env.decay
  | .sustain => c.env.sustain
  | .release => c.env.release
  | .attackExp => c.env.attackExp
  | .decayExp => c.env.decayExp
  | .releaseExp => c.env.releaseExp
  | .volume => c.volume
  | .syncDetune => c.syncDetune

/-- A slot with a NUM field set; the pattern is kept (10_state.md R39). -/
def setSlotNum (f : SlotField) (w : F64) (c : SlotCfg) : SlotCfg :=
  match f with
  | .duty => { c with duty := w }
  | .detune => { c with detune := w }
  | .attack => { c with env := { c.env with attack := w } }
  | .decay => { c with env := { c.env with decay := w } }
  | .sustain => { c with env := { c.env with sustain := w } }
  | .release => { c with env := { c.env with release := w } }
  | .attackExp => { c with env := { c.env with attackExp := w } }
  | .decayExp => { c with env := { c.env with decayExp := w } }
  | .releaseExp => { c with env := { c.env with releaseExp := w } }
  | .volume => { c with volume := w }
  | .syncDetune => { c with syncDetune := w }

/-- Slot k; a state of the invariant has every slot below OSC_SLOTS (log 18). -/
def State.slot (s : State) (k : Nat) : SlotCfg := s.slots.getD k (SlotCfg.reset s.params)

/-- ID, 10_state.md R34. -/
def identWord : Word := 0x4D454C4F00000007#64

/-- ACTIVE_COUNT, 10_state.md R34. -/
def activeCountWord (s : State) : Word := (BitVec.ofNat 8 s.voices.length).setWidth 64

/-- PARAMS, 10_state.md R34: OSC_SLOTS in bits [7:0], MAX_VOICES in [15:8], MAX_BLOCK in [31:16]. -/
def paramsWord (p : Params) : Word :=
  (BitVec.ofNat 8 p.oscSlots).setWidth 64 ||| ((BitVec.ofNat 8 p.maxVoices).setWidth 64 <<< 8) |||
    ((BitVec.ofNat 16 p.maxBlock).setWidth 64 <<< 16)

/-- RegRead(addr), 46_host_access.md R231. -/
def regRead (s : State) (addr : BitVec 12) : Word :=
  match decodeReg s.params addr with
  | .global f => getGlobal f s.cfg
  | .oscCount => s.cfg.oscCount.setWidth 64
  | .status => statusWord s.status
  | .activeCount => activeCountWord s
  | .ident => identWord
  | .params => paramsWord s.params
  | .slotNum k f => getSlotNum f (s.slot k)
  | .slotWave k => (s.slot k).wave.setWidth 64
  | .slotSync k => (BitVec.ofBool (s.slot k).sync).setWidth 64
  | .reserved => 0#64

/-- A write of OSC_COUNT: bits [4:0] when at most OSC_SLOTS, else the old value (10_state.md R27). -/
def writeOscCount (p : Params) (w : Word) (c : GlobalCfg) : GlobalCfg :=
  if (w.extractLsb' 0 5).toNat ≤ p.oscSlots then { c with oscCount := w.extractLsb' 0 5 } else c

/-- RegWrite(addr, w), 46_host_access.md R230, R233. -/
def regWrite (s : State) (addr : BitVec 12) (w : Word) : State :=
  match decodeReg s.params addr with
  | .global f => s.setCfg (setGlobal f w s.cfg)
  | .oscCount => s.setCfg (writeOscCount s.params w s.cfg)
  | .status => s
  | .activeCount => s
  | .ident => s
  | .params => s
  | .slotNum k f => s.setSlots (s.slots.modify k (setSlotNum f w))
  | .slotWave k => s.setSlots (s.slots.modify k (fun c => { c with wave := w.extractLsb' 0 3 }))
  | .slotSync k => s.setSlots (s.slots.modify k (fun c => { c with sync := w.getLsbD 0 }))
  | .reserved => s

end Sys2Proof.Machine
end

