-- ==== Sys2Proof/Machine/HostAccess.lean ====
section
/-! DEFINITION. Machine/HostAccess.lean: the host-access commands (46_host_access.md). -/

namespace Sys2Proof.Machine

/-- CFG_WRITE, 46_host_access.md R230. -/
def execCfgWrite (addr : BitVec 12) (value : Word) (s : State) : Host.Outcome State Fault Refusal :=
  .next (regWrite s addr value)

/-- CFG_READ, 46_host_access.md R231. -/
def execCfgRead (addr : BitVec 12) (s : State) : Host.Outcome State Fault Refusal :=
  .next (s.respond (regRead s addr))

/-- OUT_READ, 46_host_access.md R232. -/
def execOutRead (idx : BitVec 16) (s : State) : Host.Outcome State Fault Refusal :=
  .next (s.respond (outRead s idx.toNat))

/-- STATUS_CLEAR, 46_host_access.md R236. -/
def execStatusClear (mask : BitVec 2) (s : State) : Host.Outcome State Fault Refusal :=
  .next (s.setStatus (clearStatus mask s.status))

/-- RESET, 46_host_access.md R235: exactly the effect of the `rst` input (70_reset_and_hazards.md R280). -/
def execReset (s : State) : Host.Outcome State Fault Refusal := .next (resetEngine s)

end Sys2Proof.Machine
end

