-- ==== Sys2Proof/Machine/Filter.lean ====
section
/-! DEFINITION. Machine/Filter.lean: the Resonant Filter (43_filter.md). -/

namespace Sys2Proof.Machine

/-- The coefficients c and fb, constant over a block (43_filter.md R162). -/
structure Coeffs where
  c  : Fp
  fb : Fp
  deriving DecidableEq, Repr

/-- The effective cutoff, neither checked nor clamped (43_filter.md R161). -/
def effectiveCutoff (nf : NumFormat) (cfg : GlobalCfg) (e : Fp) : Fp :=
  let cutoff := Fp.ofWord nf cfg.cutoff
  Fp.add nf cutoff (Fp.mul nf (Fp.mul nf (Fp.sub nf .one cutoff) (Fp.ofWord nf cfg.fenvAmount)) e)

/-- The coefficient map, 43_filter.md R162. -/
def coeffs (ps : Params) (cut resonance : Fp) : Coeffs :=
  let base := Fp.ofWord ps.num ps.filtBase
  let step := Fp.ofWord ps.num ps.filtStep
  let c := pow ps.num base (Fp.div ps.num (Fp.sub ps.num .one cut) step)
  let r := pow ps.num base (Fp.div ps.num (Fp.add ps.num resonance step) step)
  { c := c, fb := Fp.sub ps.num .one (Fp.mul ps.num r c) }

/-- The recurrence, 43_filter.md R163: v1 reads the v0 just computed. The output, v0 and v1. -/
def filterBlock (nf : NumFormat) (k : Coeffs) : List Fp → Fp → Fp → List Fp × Fp × Fp
  | [], v0, v1 => ([], v0, v1)
  | x :: xs, v0, v1 =>
    let w0 := Fp.add nf (Fp.sub nf (Fp.mul nf k.fb v0) (Fp.mul nf k.c v1)) (Fp.mul nf k.c x)
    let w1 := Fp.add nf (Fp.mul nf k.fb v1) (Fp.mul nf k.c w0)
    let r := filterBlock nf k xs w0 w1
    (w1 :: r.1, r.2)

/-- FILTER(v, time, N), 43_filter.md R160: the filtered block and the voice with its filter state. -/
def filter (ps : Params) (cfg : GlobalCfg) (v : Voice) (time : Fp) (block : List Fp) : List Fp × Voice :=
  let cut := effectiveCutoff ps.num cfg (filterEnv ps.num cfg v time)
  let k := coeffs ps cut (Fp.ofWord ps.num cfg.resonance)
  let r := filterBlock ps.num k block (Fp.ofWord ps.num v.f0) (Fp.ofWord ps.num v.f1)
  (r.1, { v with f0 := r.2.1.toWord, f1 := r.2.2.toWord })

end Sys2Proof.Machine
end

