-- ==== Sys2Proof/Machine/Oscillator.lean ====
section
/-! DEFINITION. Machine/Oscillator.lean: the Oscillator Unit (42_oscillator.md). -/

namespace Sys2Proof.Machine

/-- What varies from sample to sample while one slot of one voice is generated: the two phases and the
number of noise draws taken. -/
structure GenState where
  phase : Fp
  sync  : Fp
  draws : Nat
  deriving DecidableEq, Repr

/-- What is constant over the block (42_oscillator.md R130, R131). -/
structure GenCtx where
  num   : NumFormat
  noise : NoiseSource
  wave  : BitVec 3
  duty  : Fp
  inc   : Fp
  /-- the sync increment when SYNC = 1 -/
  sinc  : Option Fp
  deriving DecidableEq, Repr

/-- Triangle, 42_oscillator.md R136. -/
def triangle (nf : NumFormat) (ph : Fp) : Fp :=
  if Fp.lt ph .half then Fp.add nf .negOne (Fp.mul nf .four ph) else Fp.sub nf .three (Fp.mul nf .four ph)

/-- Sawtooth, 42_oscillator.md R137. -/
def sawtooth (nf : NumFormat) (ph : Fp) : Fp := Fp.add nf .negOne (Fp.mul nf .two ph)

/-- Pulse, 42_oscillator.md R138. -/
def pulse (ph duty : Fp) : Fp := if Fp.lt ph duty then .negOne else .one

/-- WAVEVAL, 42_oscillator.md R132, with the number of draws taken afterwards. Codes 5 to 7 never reach it
(R130); they are given the draw's arm. -/
def waveVal (c : GenCtx) (g : GenState) : Fp × Nat :=
  match c.wave.toNat with
  | 0 => (sin2pi c.num g.phase, g.draws)
  | 1 => (triangle c.num g.phase, g.draws)
  | 2 => (sawtooth c.num g.phase, g.draws)
  | 3 => (pulse g.phase c.duty, g.draws)
  | _ => (noiseAt c.num c.noise g.draws, g.draws + 1)

/-- x − floor(x) once x ≥ 1: the wrap of 42_oscillator.md R133. -/
def wrap (nf : NumFormat) (x : Fp) : Fp := if Fp.le .one x then Fp.sub nf x (Fp.floor x) else x

/-- The phases after a sample: the primary's advance and wrap (42_oscillator.md R133), then hard sync
(R134). -/
def advancePhases (c : GenCtx) (ph sp : Fp) : Fp × Fp :=
  let ph1 := wrap c.num (Fp.add c.num ph c.inc)
  match c.sinc with
  | none => (ph1, sp)
  | some sinc =>
    let sp1 := Fp.add c.num sp sinc
    if Fp.le .one sp1 then (.zero, wrap c.num sp1) else (ph1, sp1)

/-- One sample: it is emitted before the phases advance (42_oscillator.md R130). -/
def genSample (c : GenCtx) (g : GenState) : Fp × GenState :=
  let x := waveVal c g
  let ps := advancePhases c g.phase g.sync
  (x.1, { phase := ps.1, sync := ps.2, draws := x.2 })

/-- `n` samples in ascending order. -/
def genSamples (c : GenCtx) : Nat → GenState → List Fp × GenState
  | 0, g => ([], g)
  | n + 1, g =>
    let x := genSample c g
    let xs := genSamples c n x.2
    (x.1 :: xs.1, xs.2)

/-- The constants of a block for slot `p` and key `key` at sample rate `sr` (42_oscillator.md R131,
R134). -/
def genCtx (ps : Params) (p : SlotCfg) (key : Key) (sr : Fp) : GenCtx where
  num   := ps.num
  noise := ps.noise
  wave  := p.wave
  duty  := Fp.ofWord ps.num p.duty
  inc   := Fp.div ps.num (noteFreq ps key p.detune) sr
  sinc  := if p.sync then some (Fp.div ps.num (noteFreq ps key p.syncDetune) sr) else none

/-- The result of GENERATE: the block, the oscillator state and the number of draws taken. -/
structure Generated where
  block : List Fp
  osc   : OscState
  draws : Nat
  deriving DecidableEq, Repr

/-- GENERATE(k, v, N, sr), 42_oscillator.md R130. -/
def generate (ps : Params) (p : SlotCfg) (key : Key) (n : Nat) (sr : Fp) (o : OscState) (draws : Nat) :
    Generated :=
  let r := genSamples (genCtx ps p key sr) n
    { phase := Fp.ofWord ps.num o.phase, sync := Fp.ofWord ps.num o.syncPhase, draws := draws }
  { block := r.1
    osc   := { o with phase := r.2.phase.toWord, syncPhase := r.2.sync.toWord }
    draws := r.2.draws }

end Sys2Proof.Machine
end

