-- ==== Sys2Proof/Machine/Mixer.lean ====
section
/-! DEFINITION. Machine/Mixer.lean: the rendering of one block, slot by slot and voice by voice
(45_update_mixer.md R200 to R206), and the checks before it (60_exceptions.md R253). -/

namespace Sys2Proof.Machine

/-- What a block is rendered with: constant over the UPDATE (45_update_mixer.md R208). -/
structure BlockCtx where
  params : Params
  cfg    : GlobalCfg
  /-- slots 0 .. OSC_COUNT−1 -/
  slots  : List SlotCfg
  n      : Nat
  time   : Fp
  sr     : Fp
  deriving DecidableEq, Repr

/-- endTime = time + ((N − 1) ÷ sr), 45_update_mixer.md R203. -/
def endTime (b : BlockCtx) : Fp := Fp.add b.params.num b.time (Fp.div b.params.num (Fp.ofNat (b.n - 1)) b.sr)

/-- GAIN(i, N, a0, a1), 45_update_mixer.md R204. -/
def gain (nf : NumFormat) (i n : Nat) (a0 a1 : Fp) : Fp :=
  if n = 1 then a0
  else Fp.add nf a0 (Fp.mul nf (Fp.div nf (Fp.ofNat i) (Fp.ofNat (n - 1))) (Fp.sub nf a1 a0))

/-- OSCBUF[i] × g(i) for i from `i` on (45_update_mixer.md R206). -/
def rampBlock (nf : NumFormat) (n : Nat) (a0 a1 : Fp) : Nat → List Fp → List Fp
  | _, [] => []
  | i, x :: xs => Fp.mul nf x (gain nf i n a0 a1) :: rampBlock nf n a0 a1 (i + 1) xs

/-- NOTEBUF[i] + (VOLUME × OSCBUF[i]) (45_update_mixer.md R206). -/
def mixSlot (nf : NumFormat) (volume : Fp) (note osc : List Fp) : List Fp :=
  List.zipWith (fun y x => Fp.add nf y (Fp.mul nf volume x)) note osc

/-- The larger of the two, the first unless the second is greater (45_update_mixer.md R205). -/
def maxAmp (m a : Fp) : Fp := if Fp.lt m a then a else m

/-- What the slots of a voice accumulate: NOTEBUF, the OSCBUF words last written (none before the first
slot), maxEnd, and the draws taken. -/
structure SlotAcc where
  note   : List Fp
  osc    : List Fp
  maxEnd : Fp
  draws  : Nat
  deriving DecidableEq, Repr

/-- One slot of one voice: generate, take the two envelope endpoints, ramp, accumulate
(45_update_mixer.md R202 step 2). -/
def renderSlot (b : BlockCtx) (v : Voice) (p : SlotCfg) (o : OscState) (acc : SlotAcc) :
    OscState × SlotAcc :=
  let g := generate b.params p v.key b.n b.sr o acc.draws
  let a0 := slotEnv b.params.num p v o b.time
  let a1 := slotEnv b.params.num p v o (endTime b)
  let osc := rampBlock b.params.num b.n a0 a1 0 g.block
  (g.osc,
    { note   := mixSlot b.params.num (Fp.ofWord b.params.num p.volume) acc.note osc
      osc    := osc
      maxEnd := maxAmp acc.maxEnd a1
      draws  := g.draws })

/-- The slots in use, ascending; the oscillator states beyond them stay (10_state.md R27). -/
def renderSlots (b : BlockCtx) (v : Voice) :
    List SlotCfg → List OscState → SlotAcc → List OscState × SlotAcc
  | p :: ps, o :: os, acc =>
    let r := renderSlot b v p o acc
    let rs := renderSlots b v ps os r.2
    (r.1 :: rs.1, rs.2)
  | [], os, acc => (os, acc)
  | _ :: _, [], acc => ([], acc)

/-- What the voices accumulate: OUT's block, the two scratch buffers' words last written, the draws taken,
and the voices kept so far in order. -/
structure MixAcc where
  out   : List Fp
  osc   : List Fp
  note  : List Fp
  draws : Nat
  kept  : List Voice
  deriving DecidableEq, Repr

/-- One voice: zero NOTEBUF, render its slots, filter, accumulate into OUT, decide removal
(45_update_mixer.md R202, R205). -/
def renderVoice (b : BlockCtx) (v : Voice) (acc : MixAcc) : MixAcc :=
  let rs := renderSlots b v b.slots v.osc
    { note := List.replicate b.n .zero, osc := acc.osc, maxEnd := .zero, draws := acc.draws }
  let f := filter b.params b.cfg { v with osc := rs.1 } b.time rs.2.note
  { out   := List.zipWith (Fp.add b.params.num) acc.out f.1
    osc   := rs.2.osc
    note  := f.1
    draws := rs.2.draws
    kept  := if Fp.eq rs.2.maxEnd .zero then acc.kept else acc.kept ++ [f.2] }

/-- The voices in order (45_update_mixer.md R202). -/
def renderVoices (b : BlockCtx) : List Voice → MixAcc → MixAcc
  | [], acc => acc
  | v :: vs, acc => renderVoices b vs (renderVoice b v acc)

/-- The context of UPDATE(N, time, sr) in a state: the configuration as it stands (10_state.md R25). -/
def blockCtx (s : State) (n : Nat) (time sr : F64) : BlockCtx where
  params := s.params
  cfg    := s.cfg
  slots  := s.activeSlots
  n      := n
  time   := Fp.ofWord s.params.num time
  sr     := Fp.ofWord s.params.num sr

/-- Before the first voice: OUT's block is +0, and nothing is written to the scratch buffers yet. -/
def mixStart (s : State) (n : Nat) : MixAcc where
  out   := List.replicate n .zero
  osc   := []
  note  := []
  draws := s.noiseDraws
  kept  := []

/-- The rendered block of every voice of a state. -/
def renderBlock (s : State) (n : Nat) (time sr : F64) : MixAcc :=
  renderVoices (blockCtx s n time sr) s.voices (mixStart s n)

/-- The state once a rendered block is stored: OUT[0 .. N−1], the scratch buffers, the voices kept and the
draws taken (45_update_mixer.md R200). -/
def storeBlock (m : MixAcc) (s : State) : State :=
  (((s.setOut (outStore (m.out.map Fp.toWord) s.out)).setScratch
    (Cells.storeBlock (m.osc.map Fp.toWord) s.oscBuf)
    (Cells.storeBlock (m.note.map Fp.toWord) s.noteBuf)).setVoices m.kept).setNoiseDraws m.draws

/-- 0 ≤ x ≤ 1, which a NaN fails (60_exceptions.md R253). -/
def inUnitInterval (nf : NumFormat) (x : F64) : Bool :=
  Fp.le .zero (Fp.ofWord nf x) && Fp.le (Fp.ofWord nf x) .one

/-- sr > 0 and sr < +∞ (60_exceptions.md R253). -/
def validRate (nf : NumFormat) (sr : F64) : Bool :=
  Fp.lt .zero (Fp.ofWord nf sr) && Fp.lt (Fp.ofWord nf sr) (.inf false)

/-- The lowest slot in use whose WAVE is reserved (60_exceptions.md R251). -/
def badWaveSlot (slots : List SlotCfg) : Option Nat := slots.findIdx? (fun p => decide (4 < p.wave.toNat))

/-- The checks made only when a voice is active (60_exceptions.md R253). -/
def validateConfig (s : State) : Option (Cause × BitVec 4) :=
  match badWaveSlot s.activeSlots with
  | some k => some (.badWaveform, BitVec.ofNat 4 k)
  | none =>
    if !inUnitInterval s.params.num s.cfg.cutoff then some (.cutoffRange, 0#4)
    else if !inUnitInterval s.params.num s.cfg.resonance then some (.resonanceRange, 0#4)
    else none

/-- VALIDATE(N, sr), 60_exceptions.md R253: the first failing check. -/
def validate (s : State) (n : Nat) (sr : F64) : Option (Cause × BitVec 4) :=
  if ¬ (1 ≤ n ∧ n ≤ s.params.maxBlock) then some (.badBlockLen, 0#4)
  else if !validRate s.params.num sr then some (.badSampleRate, 0#4)
  else if s.voices.isEmpty then none
  else validateConfig s

end Sys2Proof.Machine
end

