-- ==== Sys2Proof/Machine/Update.lean ====
section
/-! DEFINITION. Machine/Update.lean: UPDATE (45_update_mixer.md R200). -/

namespace Sys2Proof.Machine

/-- How an UPDATE ends (60_exceptions.md R264): it completes, or in the fault ConfigError with R252's effect
applied. The engine goes on from the state in both cases (R254, log 8). -/
inductive UpdateOutcome where
  | completed (s : State)
  | faulted (f : Fault) (s : State)
  deriving DecidableEq, Repr

/-- The state an UPDATE leaves. -/
def UpdateOutcome.state : UpdateOutcome → State
  | .completed s => s
  | .faulted _ s => s

/-- The fault an UPDATE ends in. -/
def UpdateOutcome.fault : UpdateOutcome → Option Fault
  | .completed _ => none
  | .faulted f _ => some f

/-- UPDATE(N, time, sr): the checks, then the silence fast path (45_update_mixer.md R201) or the block. -/
def updateOutcome (blkLen : BitVec 16) (time sr : F64) (s : State) : UpdateOutcome :=
  let n := blkLen.toNat
  match validate s n sr with
  | some (cause, slot) => .faulted (.configError cause slot) (raiseConfigError cause slot n s)
  | none =>
    if s.voices.isEmpty then .completed (s.setOut (outStore (zeroBlock n) s.out))
    else .completed (storeBlock (renderBlock s n time sr) s)

/-- UPDATE, 45_update_mixer.md R200. -/
def execUpdate (blkLen : BitVec 16) (time sr : F64) (s : State) : Host.Outcome State Fault Refusal :=
  .next (updateOutcome blkLen time sr s).state

end Sys2Proof.Machine
end

