-- ==== Sys2Proof/Syntax.lean ====
section
/-! DEFINITION. Syntax.lean: the commands, one constructor per row of spec/opcode_table.json. -/

namespace Sys2Proof

/-- A command with its operands (30_encoding.md R83, R91). The widths of the fields are R82's, so every
term can be encoded. -/
inductive Instr where
  /-- NOP, R186 -/
  | nop
  /-- NOTE_ON key, time: R181, R182 -/
  | noteOn (key : Key) (time : F64)
  /-- NOTE_OFF key, time: R183 -/
  | noteOff (key : Key) (time : F64)
  /-- ALL_NOTES_OFF time: R185; the operand beat is there and is ignored (R90) -/
  | allNotesOff (time : F64)
  /-- UPDATE n, time, sampleRate: R200 -/
  | update (blkLen : BitVec 16) (time sampleRate : F64)
  /-- CFG_WRITE addr, value: R230 -/
  | cfgWrite (addr : BitVec 12) (value : Word)
  /-- CFG_READ addr: R231 -/
  | cfgRead (addr : BitVec 12)
  /-- OUT_READ idx: R232 -/
  | outRead (idx : BitVec 16)
  /-- STATUS_CLEAR mask: R236 -/
  | statusClear (mask : BitVec 2)
  /-- opcode 0x9: R187 -/
  | rsvd9
  /-- opcode 0xA: R187 -/
  | rsvdA
  /-- opcode 0xB: R187 -/
  | rsvdB
  /-- opcode 0xC: R187 -/
  | rsvdC
  /-- opcode 0xD: R187 -/
  | rsvdD
  /-- opcode 0xE: R187 -/
  | rsvdE
  /-- RESET: R235 -/
  | reset
  deriving DecidableEq, Repr

end Sys2Proof
end

