-- ==== Sys2Proof/Machine/Dispatch.lean ====
section
/-! DEFINITION. Machine/Dispatch.lean: one arm per command. -/

namespace Sys2Proof.Machine

/-- The effect of one command, one atomic transition (20_memory.md R66). -/
def exec (i : Instr) (s : State) : Host.Outcome State Fault Refusal :=
  match i with
  | .nop => Sys2Proof.Machine.execNop s
  | .noteOn key time => Sys2Proof.Machine.execNoteOn key time s
  | .noteOff key time => Sys2Proof.Machine.execNoteOff key time s
  | .allNotesOff time => Sys2Proof.Machine.execAllNotesOff time s
  | .update blkLen time sampleRate => Sys2Proof.Machine.execUpdate blkLen time sampleRate s
  | .cfgWrite addr value => Sys2Proof.Machine.execCfgWrite addr value s
  | .cfgRead addr => Sys2Proof.Machine.execCfgRead addr s
  | .outRead idx => Sys2Proof.Machine.execOutRead idx s
  | .statusClear mask => Sys2Proof.Machine.execStatusClear mask s
  | .rsvd9 => Sys2Proof.Machine.execRsvd9 s
  | .rsvdA => Sys2Proof.Machine.execRsvdA s
  | .rsvdB => Sys2Proof.Machine.execRsvdB s
  | .rsvdC => Sys2Proof.Machine.execRsvdC s
  | .rsvdD => Sys2Proof.Machine.execRsvdD s
  | .rsvdE => Sys2Proof.Machine.execRsvdE s
  | .reset => Sys2Proof.Machine.execReset s

end Sys2Proof.Machine
end

