-- ==== Sys2Proof/WellFormed.lean ====
section
/-! DEFINITION. WellFormed.lean: what the spec asks of the host that sends commands. The field widths are
in the types of `Instr`, and the engine gives every term and every command word a meaning
(30_encoding.md R88, R91): these checks gate no meaning. -/

namespace Sys2Proof

/-- The pattern of a finite sample rate above zero: above +0 and below +∞ as patterns, sign bit clear
(60_exceptions.md R253). -/
def F64.positiveFinite (x : F64) : Bool :=
  decide (0 < x.toNat) && decide (x.toNat < 0x7FF0000000000000)

/-- 70_reset_and_hazards.md R284 item 4: every UPDATE needs 1 ≤ N ≤ MAX_BLOCK and a finite sr > 0.
The spec asks nothing of the other commands' operands. -/
def Instr.wellFormed (p : Params) : Instr → Bool
  | .nop => true
  | .noteOn _ _ => true
  | .noteOff _ _ => true
  | .allNotesOff _ => true
  | .update n _ sr => decide (1 ≤ n.toNat) && decide (n.toNat ≤ p.maxBlock) && sr.positiveFinite
  | .cfgWrite _ _ => true
  | .cfgRead _ => true
  | .outRead _ => true
  | .statusClear _ => true
  | .rsvd9 => true
  | .rsvdA => true
  | .rsvdB => true
  | .rsvdC => true
  | .rsvdD => true
  | .rsvdE => true
  | .reset => true

/-- How many low bits of the command word the format of an opcode uses as a field (30_encoding.md R82,
R83); KEY counts for ALL_NOTES_OFF too, whose format is E. -/
def fieldBits (opc : BitVec 4) : Nat :=
  match opc.toNat with
  | 1 => 7
  | 2 => 7
  | 3 => 7
  | 4 => 16
  | 5 => 12
  | 6 => 12
  | 7 => 16
  | 8 => 2
  | _ => 0

/-- 30_encoding.md R90: software should write ignored bits as 0. The bits between the field and the
opcode, and bits [63:32] of the beat, are clear. -/
def commandBeatWellFormed (w : Word) : Bool :=
  decide (w.toNat < 2 ^ 32) &&
  decide (w.toNat % 2 ^ 28 < 2 ^ fieldBits (w.extractLsb' 28 4))

end Sys2Proof
end

