-- ==== Sys2Proof/Decode.lean ====
section
/-! DEFINITION. Decode.lean: from the beats on the command port to a command, and back
(30_encoding.md R80 to R92). -/

namespace Sys2Proof

/-- The sixteen opcodes of 30_encoding.md R83. -/
inductive Opcode where
  | nop | noteOn | noteOff | allNotesOff | update | cfgWrite | cfgRead | outRead | statusClear
  | rsvd9 | rsvdA | rsvdB | rsvdC | rsvdD | rsvdE | reset
  deriving DecidableEq, Repr

/-- OPC of 30_encoding.md R83. -/
def Opcode.bits : Opcode → BitVec 4
  | .nop => 0x0#4
  | .noteOn => 0x1#4
  | .noteOff => 0x2#4
  | .allNotesOff => 0x3#4
  | .update => 0x4#4
  | .cfgWrite => 0x5#4
  | .cfgRead => 0x6#4
  | .outRead => 0x7#4
  | .statusClear => 0x8#4
  | .rsvd9 => 0x9#4
  | .rsvdA => 0xA#4
  | .rsvdB => 0xB#4
  | .rsvdC => 0xC#4
  | .rsvdD => 0xD#4
  | .rsvdE => 0xE#4
  | .reset => 0xF#4

/-- The opcode alone selects the command, and every value selects one (30_encoding.md R81, R91). -/
def Opcode.ofBits (b : BitVec 4) : Opcode :=
  match b.toNat with
  | 0 => .nop
  | 1 => .noteOn
  | 2 => .noteOff
  | 3 => .allNotesOff
  | 4 => .update
  | 5 => .cfgWrite
  | 6 => .cfgRead
  | 7 => .outRead
  | 8 => .statusClear
  | 9 => .rsvd9
  | 10 => .rsvdA
  | 11 => .rsvdB
  | 12 => .rsvdC
  | 13 => .rsvdD
  | 14 => .rsvdE
  | _ => .reset

/-- K of 30_encoding.md R83: the operand beats after the command word. -/
def Opcode.operandBeats : Opcode → Nat
  | .nop => 0
  | .noteOn => 1
  | .noteOff => 1
  | .allNotesOff => 1
  | .update => 2
  | .cfgWrite => 1
  | .cfgRead => 0
  | .outRead => 0
  | .statusClear => 0
  | .rsvd9 => 0
  | .rsvdA => 0
  | .rsvdB => 0
  | .rsvdC => 0
  | .rsvdD => 0
  | .rsvdE => 0
  | .reset => 0

/-- R of 30_encoding.md R83: the response beats of the command. -/
def Opcode.responseBeats : Opcode → Nat
  | .cfgRead => 1
  | .outRead => 1
  | .nop => 0
  | .noteOn => 0
  | .noteOff => 0
  | .allNotesOff => 0
  | .update => 0
  | .cfgWrite => 0
  | .statusClear => 0
  | .rsvd9 => 0
  | .rsvdA => 0
  | .rsvdB => 0
  | .rsvdC => 0
  | .rsvdD => 0
  | .rsvdE => 0
  | .reset => 0

/-- OPC = bits[31:28] of a command beat; bits [63:32] are ignored (30_encoding.md R80, R81). -/
def opcodeOf (w : Word) : Opcode := Opcode.ofBits (w.extractLsb' 28 4)

/-- KEY = bits[6:0] (30_encoding.md R82, R84). -/
def keyField (w : Word) : Key := w.extractLsb' 0 7
/-- BLKLEN = bits[15:0] (30_encoding.md R82, R85). -/
def blkLenField (w : Word) : BitVec 16 := w.extractLsb' 0 16
/-- ADDR = bits[11:0] (30_encoding.md R82, R86). -/
def addrField (w : Word) : BitVec 12 := w.extractLsb' 0 12
/-- IDX = bits[15:0] (30_encoding.md R82, R86). -/
def idxField (w : Word) : BitVec 16 := w.extractLsb' 0 16
/-- MASK = bits[1:0] (30_encoding.md R82, R86). -/
def maskField (w : Word) : BitVec 2 := w.extractLsb' 0 2

/-- Why beats are not yet a command. No command word is illegal (30_encoding.md R88): the only reason is
that beats are missing (70_reset_and_hazards.md R290). -/
inductive Incomplete where
  /-- no beat at all -/
  | noCommandWord
  /-- the command word is there, and fewer operand beats than its opcode needs -/
  | missingOperands (op : Opcode) (received : Nat)
  deriving DecidableEq, Repr

/-- What decoding beats gives: a command and the beats after it, or the reason there is none. -/
inductive Decoded where
  | command (i : Instr) (rest : List Word)
  | incomplete (why : Incomplete)
  deriving DecidableEq, Repr

/-- A command with one operand beat: the first beat after the command word is A (30_encoding.md R87). -/
def decodeA (op : Opcode) (mk : Word → Instr) : List Word → Decoded
  | a :: rest => .command (mk a) rest
  | [] => .incomplete (.missingOperands op 0)

/-- A command with two operand beats: A, then B (30_encoding.md R87). -/
def decodeAB (op : Opcode) (mk : Word → Word → Instr) : List Word → Decoded
  | a :: b :: rest => .command (mk a b) rest
  | [_] => .incomplete (.missingOperands op 1)
  | [] => .incomplete (.missingOperands op 0)

/-- 30_encoding.md R91: the command at the head of the beats. -/
def decode : List Word → Decoded
  | [] => .incomplete .noCommandWord
  | w :: rest =>
    match opcodeOf w with
    | .nop => .command .nop rest
    | .noteOn => decodeA .noteOn (.noteOn (keyField w)) rest
    | .noteOff => decodeA .noteOff (.noteOff (keyField w)) rest
    | .allNotesOff => decodeA .allNotesOff .allNotesOff rest
    | .update => decodeAB .update (.update (blkLenField w)) rest
    | .cfgWrite => decodeA .cfgWrite (.cfgWrite (addrField w)) rest
    | .cfgRead => .command (.cfgRead (addrField w)) rest
    | .outRead => .command (.outRead (idxField w)) rest
    | .statusClear => .command (.statusClear (maskField w)) rest
    | .rsvd9 => .command .rsvd9 rest
    | .rsvdA => .command .rsvdA rest
    | .rsvdB => .command .rsvdB rest
    | .rsvdC => .command .rsvdC rest
    | .rsvdD => .command .rsvdD rest
    | .rsvdE => .command .rsvdE rest
    | .reset => .command .reset rest

/-- The opcode of a command. -/
def Instr.opcode : Instr → Opcode
  | .nop => .nop
  | .noteOn _ _ => .noteOn
  | .noteOff _ _ => .noteOff
  | .allNotesOff _ => .allNotesOff
  | .update _ _ _ => .update
  | .cfgWrite _ _ => .cfgWrite
  | .cfgRead _ => .cfgRead
  | .outRead _ => .outRead
  | .statusClear _ => .statusClear
  | .rsvd9 => .rsvd9
  | .rsvdA => .rsvdA
  | .rsvdB => .rsvdB
  | .rsvdC => .rsvdC
  | .rsvdD => .rsvdD
  | .rsvdE => .rsvdE
  | .reset => .reset

/-- The length of a command in beats, 1 + K (30_encoding.md R92). -/
def Instr.beats (i : Instr) : Nat := 1 + i.opcode.operandBeats

/-- The command beat of an opcode and a field of `n` bits, every ignored bit 0 (30_encoding.md R93). -/
def commandBeat (op : Opcode) {n : Nat} (field : BitVec n) : Word :=
  (op.bits.setWidth 64 <<< 28) ||| field.setWidth 64

/-- The beats of a command (30_encoding.md R93). -/
def encode : Instr → List Word
  | .nop => [commandBeat .nop 0#0]
  | .noteOn key time => [commandBeat .noteOn key, time]
  | .noteOff key time => [commandBeat .noteOff key, time]
  | .allNotesOff time => [commandBeat .allNotesOff 0#0, time]
  | .update n time sr => [commandBeat .update n, time, sr]
  | .cfgWrite addr value => [commandBeat .cfgWrite addr, value]
  | .cfgRead addr => [commandBeat .cfgRead addr]
  | .outRead idx => [commandBeat .outRead idx]
  | .statusClear mask => [commandBeat .statusClear mask]
  | .rsvd9 => [commandBeat .rsvd9 0#0]
  | .rsvdA => [commandBeat .rsvdA 0#0]
  | .rsvdB => [commandBeat .rsvdB 0#0]
  | .rsvdC => [commandBeat .rsvdC 0#0]
  | .rsvdD => [commandBeat .rsvdD 0#0]
  | .rsvdE => [commandBeat .rsvdE 0#0]
  | .reset => [commandBeat .reset 0#0]

/-- The beats of the command whose bits are `w`, numbered as the opcode table numbers them: the 32-bit
command word, then each 64-bit operand word, every bit from `nbits` up being 0 (log 17). -/
def tableBeats (nbits w : Nat) : List Word :=
  let v := w % 2 ^ nbits
  let command : Word := BitVec.ofNat 64 (v % 2 ^ 32)
  let a : Word := BitVec.ofNat 64 (v / 2 ^ 32)
  let b : Word := BitVec.ofNat 64 (v / 2 ^ 96)
  [command, a, b].take (1 + (opcodeOf command).operandBeats)

/-- A word as a host that serialises it lays it out: byte j is bits [8j+7 : 8j] (20_memory.md R65). No
command observes it. -/
def wordBytes (w : Word) : List (BitVec 8) := (List.range 8).map (fun j => w.extractLsb' (8 * j) 8)

/-- The command the decoder reads from a table row's bits. -/
def decodeTableWord (nbits w : Nat) : Option Instr :=
  match decode (tableBeats nbits w) with
  | .command i _ => some i
  | .incomplete _ => none

end Sys2Proof
end

