-- ==== Sys2Proof/Machine/Fetch.lean ====
section
/-! DEFINITION. Machine/Fetch.lean: taking the next command, or an assertion of `rst`, off the input ports
(30_encoding.md R80, 70_reset_and_hazards.md R281, R290). -/

namespace Sys2Proof.Machine

/-- The beats at the head of the ports' queue, up to an assertion of `rst`. -/
def leadingBeats : List PortInput → List Word
  | .beat w :: rest => w :: leadingBeats rest
  | .rst :: _ => []
  | .rstDuring :: _ => []
  | [] => []

/-- What follows the first assertion of `rst`, none when there is none. -/
def afterRst : List PortInput → Option (List PortInput)
  | .beat _ :: rest => afterRst rest
  | .rst :: rest => some rest
  | .rstDuring :: rest => some rest
  | [] => none

/-- What the engine finds on its ports. -/
inductive Fetched where
  /-- all the beats of a command have arrived; what waits behind them -/
  | command (i : Instr) (rest : List PortInput)
  /-- `rst` came before the beats of a command were complete, or while the command executed; what waits
  behind it -/
  | reset (rest : List PortInput)
  /-- the engine waits for beats (70_reset_and_hazards.md R290; 93_implementation_defined.md Z9) -/
  | waiting
  deriving DecidableEq, Repr

/-- A command with all its beats there, unless `rst` is asserted while it executes: it then has no effect
and sends no response (70_reset_and_hazards.md R281). -/
def commandOrRst (i : Instr) : List PortInput → Fetched
  | .rstDuring :: rest => .reset rest
  | .rst :: rest => .command i (.rst :: rest)
  | .beat w :: rest => .command i (.beat w :: rest)
  | [] => .command i []

/-- The next command once all its beats have arrived (30_encoding.md R80); else an assertion of `rst`,
which discards the beats of a partly received command (70_reset_and_hazards.md R281); else nothing. -/
def fetch (inbox : List PortInput) : Fetched :=
  match decode (leadingBeats inbox) with
  | .command i _ => commandOrRst i (inbox.drop i.beats)
  | .incomplete _ =>
    match afterRst inbox with
    | some rest => .reset rest
    | none => .waiting

/-- The state with beats offered by the host behind those that wait: none is dropped
(30_encoding.md R80). -/
def State.offer (s : State) (beats : List Word) : State :=
  { s with inbox := s.inbox ++ beats.map .beat }

/-- The state with `rst` asserted behind what waits on the ports. -/
def State.assertRst (s : State) : State := { s with inbox := s.inbox ++ [.rst] }

/-- The state with the beats of a command in front of what waits on the ports: the next the engine takes.
An assertion of `rst` at the head that belonged to another command is not kept: it would be this one's. -/
def State.offerFirst (s : State) (beats : List Word) : State :=
  { s with inbox := beats.map .beat ++ s.inbox.dropWhile (fun x => decide (x = .rstDuring)) }

/-- The state after `rst`: the engine is reset, and the first beat that waits is a command word
(70_reset_and_hazards.md R281). -/
def resetByPin (rest : List PortInput) (s : State) : State :=
  { resetEngine s with inbox := rest }

end Sys2Proof.Machine
end

