-- ==== Sys2Proof/Machine/Step.lean ====
section
/-! DEFINITION. Machine/Step.lean: one step of the machine. -/

namespace Sys2Proof.Machine

/-- One step: the next command runs to completion as one atomic transition (20_memory.md R66), or `rst`
resets the engine, or the engine waits and nothing changes (logs 9, 10). -/
def step (s : State) : Host.Outcome State Fault Refusal :=
  match fetch s.inbox with
  | .command i rest => exec i (s.take rest)
  | .reset rest => .next (resetByPin rest s)
  | .waiting => .next s

/-- The state in which the table row's command is the next on the command port (logs 9, 17). -/
def State.withFetchWord (s : State) (nbits w : Nat) : State := s.offerFirst (tableBeats nbits w)

end Sys2Proof.Machine
end

