-- ==== Sys2Proof/Machine/Pseudo.lean ====
section
/-! DEFINITION. Machine/Pseudo.lean: the pseudo-commands of 30_encoding.md R94, each by its expansion. -/

namespace Sys2Proof.Machine

/-- The pseudo-commands of 30_encoding.md R94. -/
inductive Pseudo where
  | setWave (k : Nat) (w : Word)
  | setEnv (k : Nat) (a d s r : F64)
  | setFilter (c q : F64)
  | clearErr
  | panic (t : F64)
  | readBlock (n : Nat)
  deriving DecidableEq, Repr

/-- The commands a pseudo-command stands for, 30_encoding.md R94. DESIGN CHOICE (log 19): the rule gives k and
n no bound; an address is taken modulo 2^12 and an index modulo 2^16, the widths of ADDR and IDX. -/
def Pseudo.expand : Pseudo → List Instr
  | .setWave k w => [.cfgWrite (slotAddr k 0x0) w]
  | .setEnv k a d s r =>
    [.cfgWrite (slotAddr k 0x3) a, .cfgWrite (slotAddr k 0x4) d,
     .cfgWrite (slotAddr k 0x5) s, .cfgWrite (slotAddr k 0x6) r]
  | .setFilter c q => [.cfgWrite 0x000#12 c, .cfgWrite 0x001#12 q]
  | .clearErr => [.statusClear 3#2]
  | .panic t => [.allNotesOff t]
  | .readBlock n => (List.range n).map (fun i => .outRead (BitVec.ofNat 16 i))

end Sys2Proof.Machine
end

