-- ==== Sys2Proof/Safety.lean ====
section
/-! DEFINITION. Safety.lean: what claims about runs are stated with: the invariant of the engine's state,
what a host sees, and the premises 60_exceptions.md R264 names. -/

namespace Sys2Proof.Machine

/-- A scratch buffer's form: strictly rising indices. -/
def scratchWf (m : Cells) : Bool := Cells.risingFrom 0 m

/-- Every index of a buffer is below MAX_BLOCK. -/
def Cells.below (bound : Nat) (m : Cells) : Bool := m.all (fun c => decide (c.1 < bound))

/-- The relations between the fields of the state that the spec states or that its rules keep. -/
structure State.Inv (s : State) : Prop where
  /-- the ranges of 00_scope.md R10 and R11 -/
  params_wf     : s.params.wellFormed = true
  /-- OSC_SLOTS slots, 10_state.md R24 -/
  slots_length  : s.slots.length = s.params.oscSlots
  /-- OSC_COUNT ≤ OSC_SLOTS, 10_state.md R27 -/
  osc_count     : s.oscCount ≤ s.params.oscSlots
  /-- at most MAX_VOICES voices, 10_state.md R30 -/
  voices_length : s.voices.length ≤ s.params.maxVoices
  /-- no two voices with one key, 10_state.md R30 -/
  keys_distinct : (s.voices.map Voice.key).Nodup
  /-- an oscillator state per slot, 10_state.md R28 -/
  osc_length    : ∀ v ∈ s.voices, v.osc.length = s.params.oscSlots
  /-- no error recorded while ERR = 0, 10_state.md R33 -/
  no_error      : s.status.err = false → s.status.cause = 0#4 ∧ s.status.errSlot = 0#4
  /-- a cause of 60_exceptions.md R251 while ERR = 1; codes 6 to 15 are never recorded -/
  error_cause   : s.status.err = true → 1 ≤ s.status.cause.toNat ∧ s.status.cause.toNat ≤ 5
  /-- ERR_SLOT is 0 but for cause 3, where it is a slot, 60_exceptions.md R251 -/
  error_slot    : s.status.errSlot = 0#4 ∨
    (s.status.cause = 3#4 ∧ s.status.errSlot.toNat < s.params.oscSlots)
  /-- OUT is in canonical form -/
  out_wf        : Memory.wf s.out = true
  /-- OUT has MAX_BLOCK words, 10_state.md R35 -/
  out_below     : Cells.below s.params.maxBlock s.out = true
  /-- the scratch buffers' form and size, 10_state.md R36 -/
  osc_buf       : scratchWf s.oscBuf = true ∧ Cells.below s.params.maxBlock s.oscBuf = true
  note_buf      : scratchWf s.noteBuf = true ∧ Cells.below s.params.maxBlock s.noteBuf = true
  /-- an error that STATUS shows is in the fault log, 60_exceptions.md R264 -/
  error_logged  : s.status.err = true → s.faultLog ≠ []

/-- What a host observes of a state: the response words, OUT, STATUS and err_irq (00_scope.md R19). -/
structure Observation where
  responses : List Word
  out       : Cells
  status    : Word
  errIrq    : Bool
  deriving DecidableEq, Repr

/-- The observation of a state, 00_scope.md R19. -/
def State.observation (s : State) : Observation where
  responses := s.responses
  out       := s.out
  status    := statusWord s.status
  errIrq    := s.errIrq

/-- The fault outcome of a command: an UPDATE's, and none of any other (60_exceptions.md R250, R264). -/
def faultOutcome (i : Instr) (s : State) : Option Fault :=
  match i with
  | .update n time sr => (updateOutcome n time sr s).fault
  | .nop => none
  | .noteOn _ _ => none
  | .noteOff _ _ => none
  | .allNotesOff _ => none
  | .cfgWrite _ _ => none
  | .cfgRead _ => none
  | .outRead _ => none
  | .statusClear _ => none
  | .rsvd9 => none
  | .rsvdA => none
  | .rsvdB => none
  | .rsvdC => none
  | .rsvdD => none
  | .rsvdE => none
  | .reset => none

/-- No ConfigError was raised between two states of a run: no command erases the log (60_exceptions.md
R264). -/
def NoConfigError (s t : State) : Prop := t.faultLog = s.faultLog

/-- VOICE_OVF is never set in the first `k` steps from a state: it is 0 in every state of the run, so no
NOTE_ON is dropped, whatever STATUS_CLEAR does (60_exceptions.md R264). -/
def NoDroppedNote (s : State) (k : Nat) : Prop :=
  ∀ j, j ≤ k → ∀ t : State, Sys2Proof.core.run j s = .next t → t.status.voiceOvf = false

/-- A phase in [0, 1), 10_state.md R29. -/
def unitPhase (nf : NumFormat) (w : F64) : Bool :=
  Fp.le .zero (Fp.ofWord nf w) && Fp.lt (Fp.ofWord nf w) .one

/-- A finite increment that is not negative (10_state.md R32). -/
def finiteIncrement (x : Fp) : Bool := Fp.le .zero x && Fp.lt x (.inf false)

/-- Every phase and sync phase of every voice is in [0, 1), 10_state.md R32. -/
def State.phasesInUnit (s : State) : Prop :=
  ∀ v ∈ s.voices, ∀ o ∈ v.osc,
    unitPhase s.params.num o.phase = true ∧ unitPhase s.params.num o.syncPhase = true

/-- Every increment an UPDATE at sample rate `sr` would use is finite and not negative: the proviso of
10_state.md R32. -/
def State.incrementsFinite (s : State) (sr : F64) : Prop :=
  ∀ v ∈ s.voices, ∀ p ∈ s.activeSlots,
    finiteIncrement (Fp.div s.params.num (noteFreq s.params v.key p.detune)
      (Fp.ofWord s.params.num sr)) = true ∧
    (p.sync = true → finiteIncrement (Fp.div s.params.num (noteFreq s.params v.key p.syncDetune)
      (Fp.ofWord s.params.num sr)) = true)

end Sys2Proof.Machine
end

