-- ==== Sys2Proof/Certificates/Slice0/Obligations.lean ====
section
/-! DEFINITION. Certificates/Slice0/Obligations.lean: the statements, each with the rule of spec/ it
formalises. `Fp` values are NUM values, `F64` their patterns. -/

open Sys2Proof Sys2Proof.Machine

/-- A command word with opcode `opc` and `k` operand beats behind it is the command `mk` gives, whatever its
other bits and whatever follows (30_encoding.md R82, R83, R87). -/
def encodedAs (opc : BitVec 4) (k : Nat) (mk : Word → List Word → Instr) : Prop :=
  ∀ (w : Word) (ops rest : List Word), w.extractLsb' 28 4 = opc → ops.length = k →
    decode (w :: (ops ++ rest)) = .command (mk w ops) rest

/-! ## Reset -/

/-- 10_state.md R41, the reset state, for every value of the parameters. R36 leaves the scratch buffers any
value: that it is the free value of the reset's number is the model's form (log 14). -/
def Obligations.ResetStateValues : Prop :=
  (∀ p : Params,
    (State.resetWith p).params = p ∧
    (State.resetWith p).cfg =
      { cutoff := 0x3FF0000000000000#64, resonance := 0#64, fenvAmount := 0#64,
        fenv := { attack := 0#64, decay := 0#64, sustain := 0x3FF0000000000000#64, release := 0#64,
                  attackExp := p.defaultExp, decayExp := p.defaultExp, releaseExp := p.defaultExp },
        oscCount := 1#5 } ∧
    (State.resetWith p).slots = List.replicate p.oscSlots
      { wave := 0#3, duty := 0x3FE0000000000000#64, detune := 0#64,
        env := { attack := 0#64, decay := 0#64, sustain := 0x3FF0000000000000#64, release := 0#64,
                 attackExp := p.defaultExp, decayExp := p.defaultExp, releaseExp := p.defaultExp },
        volume := 0x3FF0000000000000#64, sync := false, syncDetune := 0#64 } ∧
    (State.resetWith p).voices = [] ∧
    statusWord (State.resetWith p).status = 0#64 ∧
    (State.resetWith p).errIrq = false ∧
    (∀ i, outRead (State.resetWith p) i = 0#64) ∧
    (∀ i, oscBufRead (State.resetWith p) i = Config.oscBufFree (State.resetWith p).resets i) ∧
    (∀ i, noteBufRead (State.resetWith p) i = Config.noteBufFree (State.resetWith p).resets i)) ∧
  State.reset = State.resetWith Params.reference ∧
  Params.reference.num = .binary64 ∧
  Params.reference.oscSlots = 4 ∧ Params.reference.maxVoices = 16 ∧ Params.reference.maxBlock = 4096 ∧
  Params.reference.filtBase = 0x3FE0000000000000#64 ∧ Params.reference.filtStep = 0x3FC0000000000000#64 ∧
  Params.reference.defaultExp = 0x4000000000000000#64

/-- The reset state meets the invariant and has every phase in range, for every legal parameter value. -/
def Obligations.ResetMeetsInvariant : Prop :=
  (∀ p : Params, p.wellFormed = true → (State.resetWith p).Inv ∧ (State.resetWith p).phasesInUnit) ∧
  State.reset.Inv

/-- 46_host_access.md R235: RESET (opcode 0xF, no operand) puts the engine in its reset state. The noise
source is as 10_state.md R37 says: a seeded one restarts. The number of resets, and the free values it gives
the scratch buffers, are the model's own (log 14). -/
def Obligations.ResetCommandRestoresResetState : Prop :=
  encodedAs 0xF#4 0 (fun _ _ => .reset) ∧
  ∀ s : State, ∃ t : State, exec .reset s = .next t ∧
    t.cfg = (State.resetWith s.params).cfg ∧ t.slots = (State.resetWith s.params).slots ∧
    t.voices = [] ∧ statusWord t.status = 0#64 ∧ t.errIrq = false ∧
    (∀ i, outRead t i = 0#64) ∧
    t.resets = s.resets + 1 ∧
    (∀ i, oscBufRead t i = Config.oscBufFree t.resets i ∧ noteBufRead t i = Config.noteBufFree t.resets i) ∧
    (∀ seed, s.params.noise = .seeded seed → t.noiseDraws = 0)

/-- 70_reset_and_hazards.md R280, R281: `rst` discards the beats of a partly received command, and takes back
a command that executes: in both cases the engine is reset as by RESET, no response is sent, and the first
beat that waits behind is the next command word. The model's own: `rst` as an item of the ports' queue
(log 10), the fault log that stays (log 12), the position that counts no command taken back (log 13) and the
fresh words in the scratch buffers (log 14). -/
def Obligations.RstPinDiscardsPartialCommand : Prop :=
  ∀ (s : State) (bs : List Word) (rest : List PortInput),
    (∀ e : Incomplete, decode bs = .incomplete e → s.inbox = bs.map .beat ++ .rst :: rest →
      ∃ t : State, step s = .next { t with inbox := rest } ∧ exec .reset s = .next t ∧
        t.responses = s.responses) ∧
    (∀ i : Instr, decode bs = .command i [] → s.inbox = bs.map .beat ++ .rstDuring :: rest →
      ∃ t : State, step s = .next { t with inbox := rest } ∧ exec .reset s = .next t ∧
        t.responses = s.responses)

/-! ## Encoding -/

/-- Words written out from 30_encoding.md R82 and R83 and 95_test_vectors.md L2.1, and what they decode
as. -/
def Obligations.TableWordsDecode : Prop :=
  decode [0x00000000#64] = .command .nop [] ∧
  decode [0x10000045#64, 0#64] = .command (.noteOn 69#7 0#64) [] ∧
  decode [0x1FFFFFC5#64, 0#64] = .command (.noteOn 69#7 0#64) [] ∧
  decode [0x20000045#64, 0x3F50624DD2F1A9FC#64] = .command (.noteOff 69#7 0x3F50624DD2F1A9FC#64) [] ∧
  decode [0x3000007F#64, 1#64] = .command (.allNotesOff 1#64) [] ∧
  decode [0x4ABC0010#64, 5#64, 6#64] = .command (.update 16#16 5#64 6#64) [] ∧
  decode [0x5FFF0123#64, 7#64] = .command (.cfgWrite 0x123#12 7#64) [] ∧
  decode [0x60000012#64] = .command (.cfgRead 0x012#12) [] ∧
  decode [0x7000FFFF#64] = .command (.outRead 0xFFFF#16) [] ∧
  decode [0x8000000F#64] = .command (.statusClear 3#2) [] ∧
  decode [0x90000000#64] = .command .rsvd9 [] ∧
  decode [0xA1234567#64] = .command .rsvdA [] ∧
  decode [0xB0000000#64] = .command .rsvdB [] ∧
  decode [0xC0000000#64] = .command .rsvdC [] ∧
  decode [0xD0000000#64] = .command .rsvdD [] ∧
  decode [0xE0000000#64] = .command .rsvdE [] ∧
  decode [0xFFFFFFFF#64] = .command .reset []

/-- Decoding the beats of any command gives the command back and leaves what follows (30_encoding.md R91,
R92, R93); its beats are well formed and as many as R92 says. -/
def Obligations.DecodeInvertsEncode : Prop :=
  ∀ (i : Instr) (rest : List Word),
    decode (encode i ++ rest) = .command i rest ∧
    (encode i).length = i.beats ∧
    (∀ w ∈ (encode i).head?, commandBeatWellFormed w = true)

/-- 30_encoding.md R91 and R92: what every command word is, by bits [31:28] of its first beat alone, with as
many operand beats as its opcode takes; with fewer there is no command yet. -/
def Obligations.DecodeByOpcode : Prop :=
  encodedAs 0x0#4 0 (fun _ _ => .nop) ∧
  encodedAs 0x1#4 1 (fun w ops => .noteOn (w.extractLsb' 0 7) (ops.getD 0 0#64)) ∧
  encodedAs 0x2#4 1 (fun w ops => .noteOff (w.extractLsb' 0 7) (ops.getD 0 0#64)) ∧
  encodedAs 0x3#4 1 (fun _ ops => .allNotesOff (ops.getD 0 0#64)) ∧
  encodedAs 0x4#4 2 (fun w ops => .update (w.extractLsb' 0 16) (ops.getD 0 0#64) (ops.getD 1 0#64)) ∧
  encodedAs 0x5#4 1 (fun w ops => .cfgWrite (w.extractLsb' 0 12) (ops.getD 0 0#64)) ∧
  encodedAs 0x6#4 0 (fun w _ => .cfgRead (w.extractLsb' 0 12)) ∧
  encodedAs 0x7#4 0 (fun w _ => .outRead (w.extractLsb' 0 16)) ∧
  encodedAs 0x8#4 0 (fun w _ => .statusClear (w.extractLsb' 0 2)) ∧
  encodedAs 0x9#4 0 (fun _ _ => .rsvd9) ∧ encodedAs 0xA#4 0 (fun _ _ => .rsvdA) ∧
  encodedAs 0xB#4 0 (fun _ _ => .rsvdB) ∧ encodedAs 0xC#4 0 (fun _ _ => .rsvdC) ∧
  encodedAs 0xD#4 0 (fun _ _ => .rsvdD) ∧ encodedAs 0xE#4 0 (fun _ _ => .rsvdE) ∧
  encodedAs 0xF#4 0 (fun _ _ => .reset) ∧
  (∀ i : Instr, i.beats =
    (if (i.opcode.bits).toNat = 1 ∨ (i.opcode.bits).toNat = 2 ∨ (i.opcode.bits).toNat = 3 ∨
        (i.opcode.bits).toNat = 5 then 2
     else if (i.opcode.bits).toNat = 4 then 3 else 1)) ∧
  (∀ (w : Word) (ops : List Word), ops.length < (opcodeOf w).operandBeats →
    ∃ e : Incomplete, decode (w :: ops) = .incomplete e)

/-- 30_encoding.md R90: two command beats that agree on the opcode and on the bits of the opcode's field
decode alike, whatever their other bits; KEY of ALL_NOTES_OFF and its A operand are ignored as well. -/
def Obligations.IgnoredBitsAreIgnored : Prop :=
  (∀ (w w' : Word) (rest : List Word),
    w.extractLsb' 28 4 = w'.extractLsb' 28 4 →
    ((w.extractLsb' 28 4).toNat ≠ 3 →
      w.toNat % 2 ^ fieldBits (w.extractLsb' 28 4) = w'.toNat % 2 ^ fieldBits (w.extractLsb' 28 4)) →
    decode (w :: rest) = decode (w' :: rest)) ∧
  (∀ (a a' : F64) (s : State), exec (.allNotesOff a) s = exec (.allNotesOff a') s)

/-- Encoding gives back the beats a command was decoded from, where the ignored bits were 0 (30_encoding.md
R82, R90, R91); KEY of ALL_NOTES_OFF is ignored and is encoded as 0. -/
def Obligations.EncodeInvertsDecode : Prop :=
  ∀ (w : Word) (rest rest' : List Word) (i : Instr),
    decode (w :: rest) = .command i rest' → commandBeatWellFormed w = true →
    encode i ++ rest' =
      (if i.opcode = .allNotesOff then 0x30000000#64 else w) :: rest

/-! ## Steps -/

/-- When the beats that wait on the command port decode to a command, and `rst` is not asserted while it
executes, the step is that command's effect at the state where its beats are taken off the port and the
position has moved on by one (30_encoding.md R80, 20_memory.md R66). -/
def Obligations.StepRunsDecodedCommand : Prop :=
  ∀ (s : State) (i : Instr) (rest : List Word),
    decode (leadingBeats s.inbox) = .command i rest →
    (s.inbox.drop i.beats).head? ≠ some .rstDuring →
    step s = exec i { s with inbox := s.inbox.drop i.beats, position := s.position + 1 }

/-- A command whose beats are next on the port is run by the next step, whatever waits behind it (an
assertion of `rst` during another command aside). -/
def Obligations.StepRunsOfferedCommand : Prop :=
  ∀ (s : State) (i : Instr) (q : List PortInput), q.head? ≠ some .rstDuring →
    step { s with inbox := (encode i).map .beat ++ q } =
      exec i { s with inbox := q, position := s.position + 1 }

/-- 70_reset_and_hazards.md R290: with fewer operand beats than the opcode needs, and no `rst`, the command
has not started and the engine waits: nothing changes. -/
def Obligations.StepWaitsForMissingBeats : Prop :=
  ∀ (s : State) (bs : List Word), s.inbox = bs.map .beat →
    (bs = [] ∨ ∃ w ops, bs = w :: ops ∧ ops.length < (opcodeOf w).operandBeats) →
    step s = .next s

/-- Every command completes and every step answers a next state (60_exceptions.md R252, R254; 20_memory.md
R66). A command never changes the parameters, the position or what waits on the ports; it adds to the
responses exactly the beats of 30_encoding.md R83. -/
def Obligations.EveryCommandCompletes : Prop :=
  (∀ (i : Instr) (s : State), ∃ t : State, exec i s = .next t ∧
    t.params = s.params ∧ t.position = s.position ∧ t.inbox = s.inbox ∧
    s.responses <+: t.responses ∧
    t.responses.length = s.responses.length + i.opcode.responseBeats) ∧
  (∀ s : State, ∃ t : State, step s = .next t)

/-! ## Event commands -/

/-- 44_events.md R186, R187 and 30_encoding.md R89: NOP and the reserved opcodes take no operand beat, leave
every piece of state unchanged and send no response. -/
def Obligations.NopAndReservedChangeNothing : Prop :=
  (encodedAs 0x0#4 0 (fun _ _ => .nop) ∧ encodedAs 0x9#4 0 (fun _ _ => .rsvd9) ∧
    encodedAs 0xA#4 0 (fun _ _ => .rsvdA) ∧ encodedAs 0xB#4 0 (fun _ _ => .rsvdB) ∧
    encodedAs 0xC#4 0 (fun _ _ => .rsvdC) ∧ encodedAs 0xD#4 0 (fun _ _ => .rsvdD) ∧
    encodedAs 0xE#4 0 (fun _ _ => .rsvdE)) ∧
  ∀ s : State,
    exec .nop s = .next s ∧ exec .rsvd9 s = .next s ∧ exec .rsvdA s = .next s ∧
    exec .rsvdB s = .next s ∧ exec .rsvdC s = .next s ∧ exec .rsvdD s = .next s ∧
    exec .rsvdE s = .next s

/-- 44_events.md R181: a NOTE_ON of an absent key appends a zeroed note state, or, when the set is full, is
dropped and sets VOICE_OVF. Nothing else changes. -/
def Obligations.NoteOnFreshNote : Prop :=
  encodedAs 0x1#4 1 (fun w ops => .noteOn (w.extractLsb' 0 7) (ops.getD 0 0#64)) ∧
  ∀ (s : State) (key : Key) (time : F64), s.Inv → (∀ v ∈ s.voices, v.key ≠ key) →
    (s.voices.length < s.params.maxVoices →
      exec (.noteOn key time) s = .next { s with
        voices := s.voices ++ [{
          key := key, onTime := time, offTime := 0#64,
          osc := List.replicate s.params.oscSlots
            { phase := 0#64, syncPhase := 0#64, onAmp := 0#64, offAmp := 0#64 },
          f0 := 0#64, f1 := 0#64, fOnAmp := 0#64, fOffAmp := 0#64 }] }) ∧
    (s.voices.length = s.params.maxVoices →
      exec (.noteOn key time) s = .next { s with status := { s.status with voiceOvf := true } })

/-- 44_events.md R182: a NOTE_ON of a present key snapshots the amplitudes with the old times, then sets
onTime and clears offTime. Slots from OSC_COUNT on keep their states, the entry keeps its place, and
nothing else changes. -/
def Obligations.NoteOnRetriggers : Prop :=
  ∀ (s : State) (key : Key) (time : F64) (before after : List Voice) (v : Voice) (nf : NumFormat),
    s.Inv → nf = s.params.num →
    s.voices = before ++ v :: after → v.key = key →
    ∃ v' : Voice, exec (.noteOn key time) s = .next { s with voices := before ++ v' :: after } ∧
      v'.key = v.key ∧ v'.onTime = time ∧ v'.offTime = 0#64 ∧
      v'.f0 = v.f0 ∧ v'.f1 = v.f1 ∧ v'.fOffAmp = v.fOffAmp ∧
      v'.fOnAmp = (env nf s.cfg.fenv (Fp.ofWord nf time) (Fp.ofWord nf v.onTime) (Fp.ofWord nf v.offTime)
        (Fp.ofWord nf v.fOnAmp) (Fp.ofWord nf v.fOffAmp)).toWord ∧
      v'.osc.length = v.osc.length ∧
      (∀ k p o, s.slots[k]? = some p → v.osc[k]? = some o →
        v'.osc[k]? = some (if k < s.oscCount then
          { o with onAmp := (env nf p.env (Fp.ofWord nf time) (Fp.ofWord nf v.onTime) (Fp.ofWord nf v.offTime)
              (Fp.ofWord nf o.onAmp) (Fp.ofWord nf o.offAmp)).toWord }
          else o))

/-- 44_events.md R183: a NOTE_OFF of a present key snapshots the amplitudes with the current times, then sets
offTime; of an absent key it changes nothing. -/
def Obligations.NoteOffReleases : Prop :=
  encodedAs 0x2#4 1 (fun w ops => .noteOff (w.extractLsb' 0 7) (ops.getD 0 0#64)) ∧
  (∀ (s : State) (key : Key) (time : F64), (∀ v ∈ s.voices, v.key ≠ key) →
    exec (.noteOff key time) s = .next s) ∧
  ∀ (s : State) (key : Key) (time : F64) (before after : List Voice) (v : Voice) (nf : NumFormat),
    s.Inv → nf = s.params.num →
    s.voices = before ++ v :: after → v.key = key →
    ∃ v' : Voice, exec (.noteOff key time) s = .next { s with voices := before ++ v' :: after } ∧
      v'.key = v.key ∧ v'.onTime = v.onTime ∧ v'.offTime = time ∧
      v'.f0 = v.f0 ∧ v'.f1 = v.f1 ∧ v'.fOnAmp = v.fOnAmp ∧
      v'.fOffAmp = (env nf s.cfg.fenv (Fp.ofWord nf time) (Fp.ofWord nf v.onTime) (Fp.ofWord nf v.offTime)
        (Fp.ofWord nf v.fOnAmp) (Fp.ofWord nf v.fOffAmp)).toWord ∧
      v'.osc.length = v.osc.length ∧
      (∀ k p o, s.slots[k]? = some p → v.osc[k]? = some o →
        v'.osc[k]? = some (if k < s.oscCount then
          { o with offAmp := (env nf p.env (Fp.ofWord nf time) (Fp.ofWord nf v.onTime) (Fp.ofWord nf v.offTime)
              (Fp.ofWord nf o.onAmp) (Fp.ofWord nf o.offAmp)).toWord }
          else o))

/-- 44_events.md R184: the envelope of a voice after a NOTE_OFF at time ±0 is the held one, and after a
NOTE_OFF at a NaN time it is +0 at every time. -/
def Obligations.NoteOffAtZeroOrNaN : Prop :=
  ∀ (nf : NumFormat) (c : GlobalCfg) (slots : List SlotCfg) (time : F64) (v : Voice) (p : SlotCfg)
      (o : OscState) (cur : Fp),
    (Fp.eq (Fp.ofWord nf time) .zero = true →
      slotEnv nf p (release nf c slots time v) o cur =
        envHeld nf p.env (elapsed nf cur (Fp.ofWord nf v.onTime)) (Fp.ofWord nf o.onAmp)) ∧
    (Fp.eq (Fp.ofWord nf time) (Fp.ofWord nf time) = false →
      slotEnv nf p (release nf c slots time v) o cur = .zero)

/-- 44_events.md R185: ALL_NOTES_OFF empties the set and changes nothing else, whatever its KEY field and its
operand are. -/
def Obligations.AllNotesOffEmptiesVoices : Prop :=
  encodedAs 0x3#4 1 (fun _ ops => .allNotesOff (ops.getD 0 0#64)) ∧
  ∀ (s : State) (time : F64), exec (.allNotesOff time) s = .next { s with voices := [] }

/-- 44_events.md R188: after a NOTE_ON that was not dropped, any number of NOTE_ON and NOTE_OFF commands for
the same key leaves exactly one entry for that key. -/
def Obligations.SameKeyEventsKeepOneEntry : Prop :=
  ∀ (s : State) (key : Key) (time : F64) (events : List Instr), s.Inv →
    ((∃ v ∈ s.voices, v.key = key) ∨ s.voices.length < s.params.maxVoices) →
    (∀ i ∈ events, ∃ u : F64, i = .noteOn key u ∨ i = .noteOff key u) →
    ∃ t : State,
      Sys2Proof.core.run (events.length + 1)
        { s with inbox := ((Instr.noteOn key time :: events).flatMap encode).map .beat } = .next t ∧
      t.voices.countP (fun v => decide (v.key = key)) = 1

/-! ## Envelope -/

/-- 41_envelope.md R111 to R117: INTERP and the segments of ENV. -/
def Obligations.EnvSegments : Prop :=
  ∀ nf : NumFormat,
  (∀ x yL yR e : Fp, interp nf x yL yR e =
    if Fp.lt yL yR then Fp.add nf yL (Fp.mul nf (pow nf x e) (Fp.sub nf yR yL))
    else Fp.add nf yR (Fp.mul nf (pow nf (Fp.sub nf .one x) e) (Fp.sub nf yL yR))) ∧
  (∀ cur since : Fp, elapsed nf cur since =
    if Fp.lt (Fp.sub nf cur since) .zero then .zero else Fp.sub nf cur since) ∧
  ∀ (p : EnvParams) (cur on off onAmp offAmp : Fp),
    (Fp.eq off .zero = true →
      (Fp.lt (elapsed nf cur on) (Fp.ofWord nf p.attack) = true →
        env nf p cur on off onAmp offAmp = interp nf (Fp.div nf (elapsed nf cur on) (Fp.ofWord nf p.attack))
          onAmp .one (Fp.ofWord nf p.attackExp)) ∧
      (Fp.lt (elapsed nf cur on) (Fp.ofWord nf p.attack) = false →
        Fp.lt (elapsed nf cur on) (Fp.add nf (Fp.ofWord nf p.attack) (Fp.ofWord nf p.decay)) = true →
        env nf p cur on off onAmp offAmp =
          interp nf (Fp.div nf (Fp.sub nf (elapsed nf cur on) (Fp.ofWord nf p.attack)) (Fp.ofWord nf p.decay))
            .one (Fp.ofWord nf p.sustain) (Fp.ofWord nf p.decayExp)) ∧
      (Fp.lt (elapsed nf cur on) (Fp.ofWord nf p.attack) = false →
        Fp.lt (elapsed nf cur on) (Fp.add nf (Fp.ofWord nf p.attack) (Fp.ofWord nf p.decay)) = false →
        env nf p cur on off onAmp offAmp = Fp.ofWord nf p.sustain)) ∧
    (Fp.eq off .zero = false →
      (Fp.lt (elapsed nf cur off) (Fp.ofWord nf p.release) = true →
        env nf p cur on off onAmp offAmp = interp nf (Fp.div nf (elapsed nf cur off) (Fp.ofWord nf p.release))
          offAmp .zero (Fp.ofWord nf p.releaseExp)) ∧
      (Fp.lt (elapsed nf cur off) (Fp.ofWord nf p.release) = false →
        env nf p cur on off onAmp offAmp = .zero))

/-- 41_envelope.md R118: elapsed time is never below 0, and is +0 when `cur` is before the time it is
measured from. -/
def Obligations.ElapsedTimeNeverNegative : Prop :=
  ∀ (nf : NumFormat) (cur since : F64), nf.wellFormed = true →
    Fp.lt (elapsed nf (Fp.ofWord nf cur) (Fp.ofWord nf since)) .zero = false ∧
    (Fp.lt (Fp.ofWord nf cur) (Fp.ofWord nf since) = true →
      elapsed nf (Fp.ofWord nf cur) (Fp.ofWord nf since) = .zero)

/-- 41_envelope.md R119: a segment of length 0 is never entered: a = 0 skips to the decay test, d = 0 skips to
sustain, and r = 0 returns 0 at once. -/
def Obligations.ZeroLengthSegmentsJump : Prop :=
  ∀ (nf : NumFormat) (p : EnvParams) (cur on off : F64) (onAmp offAmp : Fp), nf.wellFormed = true →
    (Fp.eq (Fp.ofWord nf off) .zero = true → Fp.eq (Fp.ofWord nf p.attack) .zero = true →
      env nf p (Fp.ofWord nf cur) (Fp.ofWord nf on) (Fp.ofWord nf off) onAmp offAmp =
        if Fp.lt (elapsed nf (Fp.ofWord nf cur) (Fp.ofWord nf on))
          (Fp.add nf (Fp.ofWord nf p.attack) (Fp.ofWord nf p.decay))
        then interp nf (Fp.div nf
          (Fp.sub nf (elapsed nf (Fp.ofWord nf cur) (Fp.ofWord nf on)) (Fp.ofWord nf p.attack))
          (Fp.ofWord nf p.decay)) .one (Fp.ofWord nf p.sustain) (Fp.ofWord nf p.decayExp)
        else Fp.ofWord nf p.sustain) ∧
    (Fp.eq (Fp.ofWord nf off) .zero = true → Fp.eq (Fp.ofWord nf p.decay) .zero = true →
      (Fp.eq (Fp.ofWord nf p.attack) .zero = true ∨
        Fp.lt (elapsed nf (Fp.ofWord nf cur) (Fp.ofWord nf on)) (Fp.ofWord nf p.attack) = false) →
      env nf p (Fp.ofWord nf cur) (Fp.ofWord nf on) (Fp.ofWord nf off) onAmp offAmp = Fp.ofWord nf p.sustain) ∧
    (Fp.eq (Fp.ofWord nf off) .zero = false → Fp.eq (Fp.ofWord nf p.release) .zero = true →
      env nf p (Fp.ofWord nf cur) (Fp.ofWord nf on) (Fp.ofWord nf off) onAmp offAmp = .zero)

/-- 41_envelope.md R120: with an infinite release time and an exponent above 0 a released voice holds a
finite offAmp at every finite elapsed time. -/
def Obligations.InfiniteReleaseHoldsOffAmp : Prop :=
  ∀ (nf : NumFormat) (p : EnvParams) (cur on off offAmp : F64) (onAmp : Fp), nf.wellFormed = true →
    p.release = 0x7FF0000000000000#64 →
    Fp.lt .zero (Fp.ofWord nf p.releaseExp) = true →
    Fp.eq (Fp.ofWord nf off) .zero = false →
    Fp.lt (elapsed nf (Fp.ofWord nf cur) (Fp.ofWord nf off)) (.inf false) = true →
    Fp.lt (.inf true) (Fp.ofWord nf offAmp) = true → Fp.lt (Fp.ofWord nf offAmp) (.inf false) = true →
    Fp.eq (env nf p (Fp.ofWord nf cur) (Fp.ofWord nf on) (Fp.ofWord nf off) onAmp (Fp.ofWord nf offAmp))
      (Fp.ofWord nf offAmp) = true

/-- 41_envelope.md R124: a retrigger at a finite time T makes no jump, for a > 0. With A the value of ENV at T
before it, from the old times and amplitudes, the new onAmp of a slot in use is A; where A is at most 1, the
value of ENV at T after it is that onAmp and A again (below 1, for an exponent above 0, where R14 states
POW(0, ea)); where A is above 1 it is 1 + (A − 1), which is A up to one rounding. -/
def Obligations.RetriggerIsContinuous : Prop :=
  ∀ (nf : NumFormat) (c : GlobalCfg) (slots : List SlotCfg) (time : F64) (v : Voice) (k : Nat) (p : SlotCfg)
      (o : OscState) (A : Fp), nf.wellFormed = true →
    slots[k]? = some p → v.osc[k]? = some o → A = slotEnv nf p v o (Fp.ofWord nf time) →
    Fp.lt (Fp.ofWord nf time) (.inf false) = true → Fp.lt (.inf true) (Fp.ofWord nf time) = true →
    Fp.lt .zero (Fp.ofWord nf p.env.attack) = true →
    ∃ o' : OscState, (retrigger nf c slots time v).osc[k]? = some o' ∧ o'.onAmp = A.toWord ∧
      (Fp.lt (.inf true) A = true → Fp.le A .one = true →
        (Fp.lt A .one = true → Fp.lt .zero (Fp.ofWord nf p.env.attackExp) = true) →
        Fp.eq (slotEnv nf p (retrigger nf c slots time v) o' (Fp.ofWord nf time)) (Fp.ofWord nf o'.onAmp) = true ∧
        Fp.eq (slotEnv nf p (retrigger nf c slots time v) o' (Fp.ofWord nf time)) A = true) ∧
      (Fp.lt .one A = true →
        slotEnv nf p (retrigger nf c slots time v) o' (Fp.ofWord nf time) =
          Fp.add nf .one (Fp.sub nf A .one))

/-! ## Function parameters -/

/-- 00_scope.md R14: the named properties of POW, for every format of NUM. The model's choices (log 3): the
argument 0 of a property is +0, and in a format other than binary64, which has all the powers of two the rule
lists, the last two properties speak of those the format has. -/
def Obligations.PowNamedProperties : Prop :=
  ∀ nf : NumFormat, nf.wellFormed = true →
    (∀ x : F64, pow nf (Fp.ofWord nf x) .zero = .one) ∧
    (∀ y : F64, pow nf .one (Fp.ofWord nf y) = .one) ∧
    (∀ y : F64, Fp.lt .zero (Fp.ofWord nf y) = true → pow nf .zero (Fp.ofWord nf y) = .zero) ∧
    (∀ x : F64, pow nf (Fp.ofWord nf x) .one = Fp.ofWord nf x) ∧
    (∀ x : F64, pow nf (Fp.ofWord nf x) .two = Fp.mul nf (Fp.ofWord nf x) (Fp.ofWord nf x)) ∧
    (∀ n : Nat, n ≤ 1074 → (nf = .binary64 ∨ nf.quantumExp ≤ 1074 - n) →
      pow nf .half (Fp.ofNat n) = .fin false (2 ^ (1074 - n))) ∧
    (∀ n : Nat, n ≤ 1023 → (nf = .binary64 ∨ 1074 + n < nf.limitExp) →
      pow nf .two (Fp.ofNat n) = .fin false (2 ^ (1074 + n)))

/-- 00_scope.md R13: the properties of SIN2PI. That the argument 0 of the first one is +0 is the model's choice
(log 4). -/
def Obligations.SineNamedProperties : Prop :=
  ∀ nf : NumFormat,
  sin2pi nf .zero = .zero ∧ sin2pi nf .quarter = .one ∧ sin2pi nf .threeQuarters = .negOne ∧
  Fp.le (sin2pi nf .half) (.fin false (2 ^ 1024)) = true ∧
  Fp.le (.fin true (2 ^ 1024)) (sin2pi nf .half) = true ∧
  (∀ p : F64, Fp.le .zero (Fp.ofWord nf p) = true → Fp.lt (Fp.ofWord nf p) .one = true →
    Fp.le (sin2pi nf (Fp.ofWord nf p)) .one = true ∧ Fp.le .negOne (sin2pi nf (Fp.ofWord nf p)) = true)

/-- 00_scope.md R15: every draw of every noise source is in [−1, 1]. -/
def Obligations.NoiseDrawsInRange : Prop :=
  ∀ (nf : NumFormat) (src : NoiseSource) (n : Nat),
    Fp.le .negOne (noiseAt nf src n) = true ∧ Fp.le (noiseAt nf src n) .one = true

/-! ## Oscillator -/

/-- 42_oscillator.md R130 and R132: GENERATE's loop. There are the phases, sync phases and draw counts before
each sample; sample i is emitted at the i-th of them, by the waveform's formula; then the primary phase
advances and wraps, and with SYNC = 1 the sync phase advances and, where it reaches 1, wraps and sets the
primary phase to 0. The state after the block is the last one. -/
def Obligations.GenerateFollowsLoop : Prop :=
  ∀ (ps : Params) (p : SlotCfg) (key : Key) (n : Nat) (sr : Fp) (o : OscState) (d : Nat) (inc sinc : Fp)
      (nf : NumFormat), nf = ps.num → p.wave.toNat ≤ 4 →
    inc = Fp.div nf (noteFreq ps key p.detune) sr → sinc = Fp.div nf (noteFreq ps key p.syncDetune) sr →
    ∃ (ph sp : Nat → Fp) (dr : Nat → Nat),
      ph 0 = Fp.ofWord nf o.phase ∧ sp 0 = Fp.ofWord nf o.syncPhase ∧ dr 0 = d ∧
      (∀ i, i < n → (generate ps p key n sr o d).block[i]? = some
        (if p.wave = 0#3 then sin2pi nf (ph i)
         else if p.wave = 1#3 then
           (if Fp.lt (ph i) .half then Fp.add nf .negOne (Fp.mul nf .four (ph i))
            else Fp.sub nf .three (Fp.mul nf .four (ph i)))
         else if p.wave = 2#3 then Fp.add nf .negOne (Fp.mul nf .two (ph i))
         else if p.wave = 3#3 then (if Fp.lt (ph i) (Fp.ofWord nf p.duty) then .negOne else .one)
         else noiseAt nf ps.noise (dr i))) ∧
      (∀ i, i < n → ∃ adv : Fp,
        adv = (if Fp.le .one (Fp.add nf (ph i) inc) then
            Fp.sub nf (Fp.add nf (ph i) inc) (Fp.floor (Fp.add nf (ph i) inc))
          else Fp.add nf (ph i) inc) ∧
        dr (i + 1) = (if p.wave = 4#3 then dr i + 1 else dr i) ∧
        (p.sync = false → ph (i + 1) = adv ∧ sp (i + 1) = sp i) ∧
        (p.sync = true → Fp.le .one (Fp.add nf (sp i) sinc) = false →
          ph (i + 1) = adv ∧ sp (i + 1) = Fp.add nf (sp i) sinc) ∧
        (p.sync = true → Fp.le .one (Fp.add nf (sp i) sinc) = true →
          ph (i + 1) = .zero ∧
          sp (i + 1) = Fp.sub nf (Fp.add nf (sp i) sinc) (Fp.floor (Fp.add nf (sp i) sinc)))) ∧
      (generate ps p key n sr o d).block.length = n ∧
      (generate ps p key n sr o d).osc = { o with phase := (ph n).toWord, syncPhase := (sp n).toWord } ∧
      (generate ps p key n sr o d).draws = dr n

/-- 42_oscillator.md R133 and 10_state.md R32: from a phase in [0, 1), a finite increment that is not
negative leads to a phase in [0, 1). -/
def Obligations.PhaseAdvanceStaysInUnit : Prop :=
  ∀ (nf : NumFormat) (ph inc : F64), nf.wellFormed = true →
    unitPhase nf ph = true → finiteIncrement (Fp.ofWord nf inc) = true →
    unitPhase nf (wrap nf (Fp.add nf (Fp.ofWord nf ph) (Fp.ofWord nf inc))).toWord = true

/-- 42_oscillator.md R134: with SYNC = 1, a sync accumulator that reaches 1 wraps and sets the primary phase
to 0, and otherwise advances beside the primary; with SYNC = 0 it keeps its value. -/
def Obligations.HardSyncResetsPhase : Prop :=
  ∀ (c : GenCtx) (ph sp : Fp) (nf : NumFormat), nf = c.num →
    (∀ sinc, c.sinc = some sinc →
      (Fp.le .one (Fp.add nf sp sinc) = true →
        advancePhases c ph sp =
          (.zero, Fp.sub nf (Fp.add nf sp sinc) (Fp.floor (Fp.add nf sp sinc)))) ∧
      (Fp.le .one (Fp.add nf sp sinc) = false →
        advancePhases c ph sp = (wrap nf (Fp.add nf ph c.inc), Fp.add nf sp sinc))) ∧
    (c.sinc = none → advancePhases c ph sp = (wrap nf (Fp.add nf ph c.inc), sp))

/-- 42_oscillator.md R138: pulse is −1 while ph < duty, else +1; with its corners. -/
def Obligations.PulseCorners : Prop :=
  ∀ (nf : NumFormat) (ph duty : F64),
    (Fp.lt (Fp.ofWord nf ph) (Fp.ofWord nf duty) = true →
      pulse (Fp.ofWord nf ph) (Fp.ofWord nf duty) = .negOne) ∧
    (Fp.lt (Fp.ofWord nf ph) (Fp.ofWord nf duty) = false → pulse (Fp.ofWord nf ph) (Fp.ofWord nf duty) = .one) ∧
    (Fp.le (Fp.ofWord nf duty) .zero = true → Fp.le .zero (Fp.ofWord nf ph) = true →
      pulse (Fp.ofWord nf ph) (Fp.ofWord nf duty) = .one) ∧
    (Fp.lt .one (Fp.ofWord nf duty) = true → Fp.lt (Fp.ofWord nf ph) .one = true →
      pulse (Fp.ofWord nf ph) (Fp.ofWord nf duty) = .negOne) ∧
    (Fp.eq (Fp.ofWord nf duty) (Fp.ofWord nf duty) = false → pulse (Fp.ofWord nf ph) (Fp.ofWord nf duty) = .one)

/-- The examples of 42_oscillator.md R136 and R137 and 95_test_vectors.md L2.3: triangle and sawtooth at the
phases 0, 0.25, 0.5, 0.75. -/
def Obligations.WaveformsAtQuarterPhases : Prop :=
  ∀ nf : NumFormat, nf.wellFormed = true →
    [Fp.zero, .quarter, .half, .threeQuarters].map (triangle nf) = [.negOne, .zero, .one, .zero] ∧
    [Fp.zero, .quarter, .half, .threeQuarters].map (sawtooth nf) =
      [.negOne, .fin true (2 ^ 1073), .zero, .half]

/-- 42_oscillator.md R141: with SYNC = 0 and an increment 2^−k, 0 ≤ k ≤ 52 (below the precision, in another
format of NUM), a phase that is a multiple of the increment in [0, 1) returns to itself exactly after 2^k
samples. -/
def Obligations.PhaseReturnsAfterPeriod : Prop :=
  ∀ (c : GenCtx) (g : GenState) (k j : Nat), c.num.wellFormed = true →
    k < c.num.precision → c.num.quantumExp + k ≤ 1074 → j < 2 ^ k →
    c.sinc = none → c.inc = .fin false (2 ^ (1074 - k)) → g.phase = .fin false (j * 2 ^ (1074 - k)) →
    (genSamples c (2 ^ k) g).2.phase = g.phase

/-! ## Filter -/

/-- 43_filter.md R160, R161, R163: FILTER. The filter envelope is taken once, at the block start, from the
voice's times and snapshots; the effective cutoff is not clamped; the coefficients are constant over the
block; for each sample in ascending order v0 is computed from the old v0 and v1, then v1 from the old v1 and
the new v0, and the output is v1; of the voice only the filter state changes. -/
def Obligations.FilterFollowsLoop : Prop :=
  ∀ (p : Params) (cfg : GlobalCfg) (v : Voice) (time : Fp) (xs : List Fp) (nf : NumFormat), nf = p.num →
    ∃ (e cut c r fb : Fp) (v0 v1 : Nat → Fp),
      e = env nf cfg.fenv time (Fp.ofWord nf v.onTime) (Fp.ofWord nf v.offTime)
        (Fp.ofWord nf v.fOnAmp) (Fp.ofWord nf v.fOffAmp) ∧
      cut = Fp.add nf (Fp.ofWord nf cfg.cutoff)
        (Fp.mul nf (Fp.mul nf (Fp.sub nf .one (Fp.ofWord nf cfg.cutoff)) (Fp.ofWord nf cfg.fenvAmount)) e) ∧
      c = pow nf (Fp.ofWord nf p.filtBase) (Fp.div nf (Fp.sub nf .one cut) (Fp.ofWord nf p.filtStep)) ∧
      r = pow nf (Fp.ofWord nf p.filtBase)
        (Fp.div nf (Fp.add nf (Fp.ofWord nf cfg.resonance) (Fp.ofWord nf p.filtStep))
          (Fp.ofWord nf p.filtStep)) ∧
      fb = Fp.sub nf .one (Fp.mul nf r c) ∧
      v0 0 = Fp.ofWord nf v.f0 ∧ v1 0 = Fp.ofWord nf v.f1 ∧
      (∀ i x, xs[i]? = some x →
        v0 (i + 1) = Fp.add nf (Fp.sub nf (Fp.mul nf fb (v0 i)) (Fp.mul nf c (v1 i))) (Fp.mul nf c x) ∧
        v1 (i + 1) = Fp.add nf (Fp.mul nf fb (v1 i)) (Fp.mul nf c (v0 (i + 1))) ∧
        (filter p cfg v time xs).1[i]? = some (v1 (i + 1))) ∧
      (filter p cfg v time xs).1.length = xs.length ∧
      (filter p cfg v time xs).2 =
        { v with f0 := (v0 xs.length).toWord, f1 := (v1 xs.length).toWord }

/-- 43_filter.md R162: the coefficient map, and the values of r, c and fb at the boundaries, in binary64
with FILT_BASE = 0.5 and FILT_STEP = 0.125. -/
def Obligations.FilterCoefficientMap : Prop :=
  (∀ (p : Params) (cut res : Fp) (nf : NumFormat), nf = p.num →
    (coeffs p cut res).c =
      pow nf (Fp.ofWord nf p.filtBase) (Fp.div nf (Fp.sub nf .one cut) (Fp.ofWord nf p.filtStep)) ∧
    (coeffs p cut res).fb = Fp.sub nf .one (Fp.mul nf
      (pow nf (Fp.ofWord nf p.filtBase)
        (Fp.div nf (Fp.add nf res (Fp.ofWord nf p.filtStep)) (Fp.ofWord nf p.filtStep)))
      (coeffs p cut res).c)) ∧
  (∀ (nf : NumFormat) (step : Fp), nf = .binary64 → step = .fin false (2 ^ 1071) →
    pow nf .half (Fp.div nf (Fp.add nf .zero step) step) = .half ∧
    pow nf .half (Fp.div nf (Fp.add nf .one step) step) = .fin false (2 ^ 1065) ∧
    pow nf .half (Fp.div nf (Fp.add nf .half step) step) = .fin false (2 ^ 1069)) ∧
  (∀ p : Params, p.num = .binary64 → p.filtBase = 0x3FE0000000000000#64 → p.filtStep = 0x3FC0000000000000#64 →
    coeffs p .one .zero = ⟨.one, .half⟩ ∧
    coeffs p .one .one = ⟨.one, Fp.ofWord p.num 0x3FEFF00000000000#64⟩ ∧
    coeffs p .zero .zero = ⟨.fin false (2 ^ 1066), Fp.ofWord p.num 0x3FEFF00000000000#64⟩ ∧
    coeffs p .zero .one = ⟨.fin false (2 ^ 1066), Fp.ofWord p.num 0x3FEFFFF000000000#64⟩ ∧
    coeffs p .half .half = ⟨.fin false (2 ^ 1070), Fp.ofWord p.num 0x3FEFF00000000000#64⟩)

/-! ## UPDATE -/

/-- 60_exceptions.md R253: the checks of UPDATE in their order; cause 3 with the lowest slot in use whose WAVE
is reserved; causes 3 to 5 only with a voice active. -/
def Obligations.UpdateChecksInOrder : Prop :=
  (∀ (nf : NumFormat) (sr : F64), validRate nf sr =
    (Fp.lt .zero (Fp.ofWord nf sr) && Fp.lt (Fp.ofWord nf sr) (Fp.ofWord nf 0x7FF0000000000000#64))) ∧
  (∀ (nf : NumFormat) (x : F64), inUnitInterval nf x =
    (Fp.le .zero (Fp.ofWord nf x) && Fp.le (Fp.ofWord nf x) .one)) ∧
  ∀ (s : State) (n : Nat) (sr : F64),
    (¬ (1 ≤ n ∧ n ≤ s.params.maxBlock) → validate s n sr = some (.badBlockLen, 0#4)) ∧
    (1 ≤ n → n ≤ s.params.maxBlock →
      (validRate s.params.num sr = false → validate s n sr = some (.badSampleRate, 0#4)) ∧
      (validRate s.params.num sr = true →
        (s.voices = [] → validate s n sr = none) ∧
        (s.voices ≠ [] →
          (∀ k p, s.activeSlots[k]? = some p → 4 < p.wave.toNat →
            (∀ j q, j < k → s.activeSlots[j]? = some q → q.wave.toNat ≤ 4) →
            validate s n sr = some (.badWaveform, BitVec.ofNat 4 k)) ∧
          ((∀ p ∈ s.activeSlots, p.wave.toNat ≤ 4) →
            (inUnitInterval s.params.num s.cfg.cutoff = false → validate s n sr = some (.cutoffRange, 0#4)) ∧
            (inUnitInterval s.params.num s.cfg.cutoff = true →
              (inUnitInterval s.params.num s.cfg.resonance = false →
                validate s n sr = some (.resonanceRange, 0#4)) ∧
              (inUnitInterval s.params.num s.cfg.resonance = true → validate s n sr = none))))))

/-- 60_exceptions.md R252, R254: an UPDATE whose checks fail zeroes its block of OUT unless the cause is 1,
records the first cause since the last clear, sets ERR and so err_irq, logs the cause, and changes nothing
else. -/
def Obligations.ConfigErrorIsAtomic : Prop :=
  ∀ (s : State) (n : BitVec 16) (time sr : F64) (cause : Cause) (slot : BitVec 4), s.Inv →
    validate s n.toNat sr = some (cause, slot) →
    ∃ m : Cells, ∃ st : Status,
      exec (.update n time sr) s =
        .next { s with out := m, status := st, faultLog := s.faultLog ++ [cause] } ∧
      (∀ i, outRead { s with out := m } i =
        if cause ≠ .badBlockLen ∧ i < n.toNat then 0#64 else outRead s i) ∧
      st.err = true ∧ st.voiceOvf = s.status.voiceOvf ∧
      (s.status.err = false → st.cause = cause.code ∧ st.errSlot = slot) ∧
      (s.status.err = true → st.cause = s.status.cause ∧ st.errSlot = s.status.errSlot)

/-- 45_update_mixer.md R201: with no voice, a legal block length and a legal rate, UPDATE writes +0 to
OUT[0 .. N−1] and changes nothing else, whatever the configuration. -/
def Obligations.SilentUpdateWritesZeros : Prop :=
  ∀ (s : State) (n : BitVec 16) (time sr : F64), s.Inv → s.voices = [] →
    1 ≤ n.toNat → n.toNat ≤ s.params.maxBlock → validRate s.params.num sr = true →
    ∃ m : Cells, exec (.update n time sr) s = .next { s with out := m } ∧
      (∀ i, outRead { s with out := m } i = if i < n.toNat then 0#64 else outRead s i)

/-- How many draws one voice takes in a block: a draw for each sample of each slot in use whose wave is
noise (42_oscillator.md R139). -/
def noiseDrawsPerVoice (s : State) (n : Nat) : Nat :=
  s.activeSlots.countP (fun p => decide (p.wave = 4#3)) * n

/-- What an UPDATE renders with, from its operands and the state (45_update_mixer.md R200, R208). -/
def updateCtx (s : State) (n : BitVec 16) (time sr : F64) : BlockCtx where
  params := s.params
  cfg    := s.cfg
  slots  := s.slots.take s.cfg.oscCount.toNat
  n      := n.toNat
  time   := Fp.ofWord s.params.num time
  sr     := Fp.ofWord s.params.num sr

/-- endTime = time + ((N − 1) ÷ sr), 45_update_mixer.md R203. -/
def blockEnd (b : BlockCtx) : Fp :=
  Fp.add b.params.num b.time (Fp.div b.params.num (Fp.ofNat (b.n - 1)) b.sr)

/-- ENV of slot `p` of a voice at a time, from the voice's times and the slot's snapshots (45_update_mixer.md
R203). -/
def amplitudeAt (b : BlockCtx) (v : Voice) (p : SlotCfg) (o : OscState) (cur : Fp) : Fp :=
  env b.params.num p.env cur (Fp.ofWord b.params.num v.onTime) (Fp.ofWord b.params.num v.offTime)
    (Fp.ofWord b.params.num o.onAmp) (Fp.ofWord b.params.num o.offAmp)

/-- What slot `p` with oscillator state `o` adds to NOTEBUF[i]: VOLUME × (raw sample × gain), its noise
drawn from the `draws`-th value on (45_update_mixer.md R203, R204, R206). -/
def slotContribution (b : BlockCtx) (v : Voice) (p : SlotCfg) (o : OscState) (draws i : Nat) : Fp :=
  Fp.mul b.params.num (Fp.ofWord b.params.num p.volume)
    (Fp.mul b.params.num ((generate b.params p v.key b.n b.sr o draws).block.getD i .zero)
      (gain b.params.num i b.n (amplitudeAt b v p o b.time) (amplitudeAt b v p o (blockEnd b))))

/-- The draws taken before slot `k` of a voice whose first slot draws from the `draws`-th value on: N for
each noise slot before it (42_oscillator.md R139). -/
def drawsBefore (b : BlockCtx) (draws k : Nat) : Nat :=
  draws + (b.slots.take k).countP (fun p => decide (p.wave = 4#3)) * b.n

/-- NOTEBUF[i] of a voice before its filter: the sum from +0 of the contributions of the slots in use,
ascending, each addition rounding once (45_update_mixer.md R206). -/
def slotsSum (b : BlockCtx) (v : Voice) (draws i : Nat) : Fp :=
  (b.slots.zip v.osc).zipIdx.foldl (fun acc pk => Fp.add b.params.num acc
    (slotContribution b v pk.1.1 pk.1.2 (drawsBefore b draws pk.2) i)) .zero

/-- FILTER over a voice's NOTEBUF (45_update_mixer.md R202, 43_filter.md R160): the filtered block, and the
voice with its filter state. -/
def filteredBlock (b : BlockCtx) (v : Voice) (draws : Nat) : List Fp × Voice :=
  filter b.params b.cfg v b.time ((List.range b.n).map (slotsSum b v draws))

/-- The maximum end amplitude of a voice over the slots in use: from +0, a1 where a1 > maxEnd, else maxEnd
(45_update_mixer.md R205). -/
def maxEndOf (b : BlockCtx) (v : Voice) : Fp :=
  (b.slots.zip v.osc).foldl (fun m po =>
    let a1 := amplitudeAt b v po.1 po.2 (blockEnd b)
    if Fp.lt m a1 then a1 else m) .zero

/-- A voice after its block: each slot in use has GENERATE's phases, the filter state is FILTER's, and every
other field, with the oscillator states from OSC_COUNT on, is as before (42_oscillator.md R140, 43_filter.md
R160, 10_state.md R27). -/
def renderedVoice (b : BlockCtx) (v : Voice) (draws : Nat) : Voice :=
  { v with
    osc := (b.slots.zip v.osc).zipIdx.map (fun pk =>
        (generate b.params pk.1.1 v.key b.n b.sr pk.1.2 (drawsBefore b draws pk.2)).osc) ++
      v.osc.drop b.slots.length
    f0  := (filteredBlock b v draws).2.f0
    f1  := (filteredBlock b v draws).2.f1 }

/-- 45_update_mixer.md R200, R206: an UPDATE whose checks pass stores, for every sample of its block, the sum
from +0 of the filtered voices in `voices` order, each addition rounding once; the words beyond the block
keep their values (R207); noise is drawn voice by voice. -/
def Obligations.UpdateMixesVoicesInOrder : Prop :=
  ∀ (s : State) (n : BitVec 16) (time sr : F64), s.Inv → s.voices ≠ [] →
    validate s n.toNat sr = none →
    ∃ t : State, exec (.update n time sr) s = .next t ∧
      (∀ i, i < n.toNat → outRead t i =
        (s.voices.zipIdx.foldl (fun acc vj => Fp.add s.params.num acc
          ((filteredBlock (updateCtx s n time sr) vj.1
            (s.noiseDraws + vj.2 * noiseDrawsPerVoice s n.toNat)).1.getD i .zero)) .zero).toWord) ∧
      (∀ i, n.toNat ≤ i → outRead t i = outRead s i) ∧
      t.noiseDraws = s.noiseDraws + s.voices.length * noiseDrawsPerVoice s n.toNat

/-- 45_update_mixer.md R203, R204, R206: the model's NOTEBUF[i] of a voice before its filter is the sum from +0
of the contributions of the slots in use, ascending, with the gain ramp between the envelope at the block's
start and at time + ((N − 1) ÷ sr). -/
def Obligations.SlotsAccumulateInOrder : Prop :=
  ∀ (b : BlockCtx) (v : Voice) (draws i : Nat), b.slots.length ≤ v.osc.length → i < b.n →
    (∀ p ∈ b.slots, p.wave.toNat ≤ 4) →
    (renderSlots b v b.slots v.osc
        { note := List.replicate b.n .zero, osc := [], maxEnd := .zero, draws := draws }).2.note[i]? =
      some (slotsSum b v draws i)

/-- 45_update_mixer.md R205, 42_oscillator.md R130, R140, 43_filter.md R160, R163: after the block the voices
whose maximum end amplitude is not 0 remain, in their order, and the others are gone; a kept voice has the
phases GENERATE leaves, at the draws taken before each of its slots, and the filter state FILTER leaves over
the sum of its slots, and nothing else of it changes. -/
def Obligations.UpdateRemovesDecayedVoices : Prop :=
  ∀ (s : State) (n : BitVec 16) (time sr : F64), s.Inv → s.voices ≠ [] →
    validate s n.toNat sr = none →
    ∃ t : State, exec (.update n time sr) s = .next t ∧
      t.voices = (s.voices.zipIdx.filter (fun vj =>
          !Fp.eq (maxEndOf (updateCtx s n time sr) vj.1) .zero)).map (fun vj =>
        renderedVoice (updateCtx s n time sr) vj.1 (s.noiseDraws + vj.2 * noiseDrawsPerVoice s n.toNat))

/-- The frame of an UPDATE whose checks pass: the configuration, the slots, STATUS, the responses and the
fault log stay (10_state.md R25, R33). -/
def Obligations.UpdateFrame : Prop :=
  ∀ (s : State) (n : BitVec 16) (time sr : F64), validate s n.toNat sr = none →
    ∃ t : State, exec (.update n time sr) s = .next t ∧
      t = { s with out := t.out, oscBuf := t.oscBuf, noteBuf := t.noteBuf, voices := t.voices,
                   noiseDraws := t.noiseDraws } ∧
      (s.voices = [] → t.oscBuf = s.oscBuf ∧ t.noteBuf = s.noteBuf) ∧
      (∀ i, n.toNat ≤ i → oscBufRead t i = oscBufRead s i ∧ noteBufRead t i = noteBufRead s i)

/-- 45_update_mixer.md R204: the gain ramp. A block of one sample has gain a0; for amplitudes in [0, 1] the
first gain of a longer block is a0 and the last is a0 + (a1 − a0). -/
def Obligations.GainRampEndpoints : Prop :=
  (∀ (nf : NumFormat) (i n : Nat) (a0 a1 : Fp), gain nf i n a0 a1 =
    if n = 1 then a0
    else Fp.add nf a0 (Fp.mul nf (Fp.div nf (Fp.ofNat i) (Fp.ofNat (n - 1))) (Fp.sub nf a1 a0))) ∧
  (∀ (nf : NumFormat) (a0 a1 : F64) (n : Nat), nf.wellFormed = true → 2 ≤ n → n ≤ 65535 →
    Fp.le .zero (Fp.ofWord nf a0) = true → Fp.le (Fp.ofWord nf a0) .one = true →
    Fp.le .zero (Fp.ofWord nf a1) = true → Fp.le (Fp.ofWord nf a1) .one = true →
    Fp.eq (gain nf 0 n (Fp.ofWord nf a0) (Fp.ofWord nf a1)) (Fp.ofWord nf a0) = true ∧
    gain nf (n - 1) n (Fp.ofWord nf a0) (Fp.ofWord nf a1) =
      Fp.add nf (Fp.ofWord nf a0) (Fp.sub nf (Fp.ofWord nf a1) (Fp.ofWord nf a0)))

/-! ## Host access -/

/-- 10_state.md R39, 46_host_access.md R234: a NUM field, global or of a slot the hardware has, reads back
exactly the pattern written; WAVE stores bits [2:0] and SYNC bit [0], and their other bits read as 0. -/
def Obligations.FieldsReadBackAsWritten : Prop :=
  ∀ (s : State) (w : Word), s.Inv →
    (∀ f : GlobalField, ∃ t : State, exec (.cfgWrite f.addr w) s = .next t ∧ regRead t f.addr = w) ∧
    (∀ (k : Nat) (f : SlotField), k < s.params.oscSlots →
      ∃ t : State, exec (.cfgWrite (slotAddr k f.offset) w) s = .next t ∧
        regRead t (slotAddr k f.offset) = w) ∧
    (∀ k, k < s.params.oscSlots →
      (∃ t : State, exec (.cfgWrite (slotAddr k 0x0) w) s = .next t ∧
        regRead t (slotAddr k 0x0) = w &&& 7#64) ∧
      (∃ t : State, exec (.cfgWrite (slotAddr k 0xB) w) s = .next t ∧
        regRead t (slotAddr k 0xB) = w &&& 1#64))

/-- 10_state.md R27: OSC_COUNT stores bits [4:0] of the word when they are at most OSC_SLOTS, and else keeps
its value; no slot changes. -/
def Obligations.OscCountStoresLegalValues : Prop :=
  ∀ (s : State) (w : Word),
    ((w &&& 31#64).toNat ≤ s.params.oscSlots →
      ∃ t : State, exec (.cfgWrite 0x00A#12 w) s = .next t ∧ regRead t 0x00A#12 = w &&& 31#64 ∧
        t.slots = s.slots) ∧
    (s.params.oscSlots < (w &&& 31#64).toNat → exec (.cfgWrite 0x00A#12 w) s = .next s)

/-- The addresses CFG_WRITE can change: 20_memory.md R62. -/
def writableAddr (p : Params) (a : BitVec 12) : Prop :=
  a.toNat ≤ 0x00A ∨
    (0x100 ≤ a.toNat ∧ a.toNat < 0x200 ∧ a.toNat / 16 % 16 < p.oscSlots ∧ a.toNat % 16 ≤ 0xC)

/-- A write of one register leaves every other register as it was, and changes nothing but the
configuration (46_host_access.md R230). -/
def Obligations.RegisterWriteIsLocal : Prop :=
  ∀ (s : State) (a : BitVec 12) (w : Word), s.Inv →
    ∃ t : State, exec (.cfgWrite a w) s = .next t ∧
      t = { s with cfg := t.cfg, slots := t.slots } ∧
      (∀ b, b ≠ a → regRead t b = regRead s b)

/-- 20_memory.md R63, 46_host_access.md R233: a write to a reserved address, to an absent slot or to a
read-only register has no effect, and a reserved address or absent slot reads 0. -/
def Obligations.ReservedAndReadOnlyAddresses : Prop :=
  ∀ (s : State) (a : BitVec 12) (w : Word), ¬ writableAddr s.params a →
    exec (.cfgWrite a w) s = .next s ∧
    (¬ (0x010 ≤ a.toNat ∧ a.toNat ≤ 0x013) → regRead s a = 0#64)

/-- 20_memory.md R67: a register write is idempotent. -/
def Obligations.RegisterWriteIdempotent : Prop :=
  ∀ (s t : State) (a : BitVec 12) (w : Word), s.Inv → exec (.cfgWrite a w) s = .next t →
    exec (.cfgWrite a w) t = .next t

/-- 46_host_access.md R231: CFG_READ responds with the register's word and changes nothing else: the
configuration fields at their addresses (10_state.md R23, R24), STATUS, ACTIVE_COUNT, ID and PARAMS
(R33, R34). -/
def Obligations.CfgReadResponds : Prop :=
  encodedAs 0x6#4 0 (fun w _ => .cfgRead (w.extractLsb' 0 12)) ∧
  ∀ (s : State) (a : BitVec 12),
    exec (.cfgRead a) s = .next { s with responses := s.responses ++ [regRead s a] } ∧
    (¬ writableAddr s.params a → ¬ (0x010 ≤ a.toNat ∧ a.toNat ≤ 0x013) → regRead s a = 0#64) ∧
    (∀ f : GlobalField, regRead s f.addr = getGlobal f s.cfg) ∧
    regRead s 0x00A#12 = s.cfg.oscCount.setWidth 64 ∧
    regRead s 0x010#12 = statusWord s.status ∧
    regRead s 0x011#12 = BitVec.ofNat 64 (s.voices.length % 256) ∧
    regRead s 0x012#12 = 0x4D454C4F00000007#64 ∧
    (s.params.wellFormed = true →
      regRead s 0x013#12 =
        BitVec.ofNat 64 (s.params.oscSlots + 2 ^ 8 * s.params.maxVoices + 2 ^ 16 * s.params.maxBlock) ∧
      ∀ k p, s.slots[k]? = some p → k < s.params.oscSlots →
        regRead s (slotAddr k 0x0) = p.wave.setWidth 64 ∧
        regRead s (slotAddr k 0xB) = (if p.sync then 1#64 else 0#64) ∧
        (∀ f : SlotField, regRead s (slotAddr k f.offset) = getSlotNum f p))

/-- 46_host_access.md R232, 20_memory.md R64: OUT_READ responds with the word of OUT, or 0 from MAX_BLOCK on,
and changes nothing else. -/
def Obligations.OutReadResponds : Prop :=
  encodedAs 0x7#4 0 (fun w _ => .outRead (w.extractLsb' 0 16)) ∧
  ∀ (s : State) (idx : BitVec 16),
    (idx.toNat < s.params.maxBlock →
      exec (.outRead idx) s =
        .next { s with responses := s.responses ++ [((s.out.lookup idx.toNat).getD 0#64)] }) ∧
    (s.params.maxBlock ≤ idx.toNat →
      exec (.outRead idx) s = .next { s with responses := s.responses ++ [0#64] })

/-- 46_host_access.md R236: STATUS_CLEAR clears the error group by mask bit 0 and VOICE_OVF by mask bit 1, and
nothing else changes. -/
def Obligations.StatusClearByMask : Prop :=
  encodedAs 0x8#4 0 (fun w _ => .statusClear (w.extractLsb' 0 2)) ∧
  ∀ (s : State) (mask : BitVec 2),
    ∃ st : Status, exec (.statusClear mask) s = .next { s with status := st } ∧
      State.errIrq { s with status := st } = st.err ∧
      (mask.getLsbD 0 = true → st.err = false ∧ st.cause = 0#4 ∧ st.errSlot = 0#4) ∧
      (mask.getLsbD 0 = false →
        st.err = s.status.err ∧ st.cause = s.status.cause ∧ st.errSlot = s.status.errSlot) ∧
      (mask.getLsbD 1 = true → st.voiceOvf = false) ∧
      (mask.getLsbD 1 = false → st.voiceOvf = s.status.voiceOvf)

/-- 10_state.md R33, R38: the fields of STATUS at their bits, every other bit 0, and err_irq equal to ERR. -/
def Obligations.StatusWordLayout : Prop :=
  ∀ (s : State) (i : Nat),
    (statusWord s.status).getLsbD i =
      (if i = 0 then s.status.err
       else if 4 ≤ i ∧ i ≤ 7 then s.status.cause.getLsbD (i - 4)
       else if 8 ≤ i ∧ i ≤ 11 then s.status.errSlot.getLsbD (i - 8)
       else if i = 12 then s.status.voiceOvf
       else false) ∧
    s.errIrq = (statusWord s.status).getLsbD 0

/-! ## The whole machine -/

/-- 60_exceptions.md R250, R254, R264: only UPDATE raises ConfigError, at most once; the raise is the fault
outcome of that step and appends its cause to the fault log, which no command erases, and ERR is raised by
nothing else. In a run in which no ConfigError is raised every UPDATE passes its checks, and in a run in
which VOICE_OVF is never set every NOTE_ON leaves a voice of its key. -/
def Obligations.OnlyUpdateRaisesConfigError : Prop :=
  (∀ (i : Instr) (s t : State), exec i s = .next t →
    ((faultOutcome i s = none ∧ t.faultLog = s.faultLog) ∨
      ∃ n time sr c k, i = .update n time sr ∧ validate s n.toNat sr = some (c, k) ∧
        faultOutcome i s = some (.configError c k) ∧ t.faultLog = s.faultLog ++ [c]) ∧
    (s.status.err = false → t.status.err = true → t.faultLog ≠ s.faultLog) ∧
    ((∃ n time sr, i = .update n time sr) → t.faultLog ≠ s.faultLog → t.status.err = true)) ∧
  (∀ (k j : Nat) (s t u : State) (n : BitVec 16) (time sr : F64) (rest : List PortInput), j < k →
    Sys2Proof.core.run k s = .next t → NoConfigError s t →
    Sys2Proof.core.run j s = .next u → fetch u.inbox = .command (.update n time sr) rest →
    validate u n.toNat sr = none) ∧
  (∀ (k j : Nat) (s u : State) (key : Key) (time : F64) (rest : List PortInput), j < k →
    NoDroppedNote s k →
    Sys2Proof.core.run j s = .next u → fetch u.inbox = .command (.noteOn key time) rest →
    ∃ t : State, Sys2Proof.core.run (j + 1) s = .next t ∧ ∃ v ∈ t.voices, v.key = key)

/-- Who changes what, from the prose: STATUS only NOTE_ON, UPDATE, STATUS_CLEAR and RESET (10_state.md R33,
46_host_access.md R233); the configuration only CFG_WRITE and RESET (10_state.md R25); OUT only UPDATE and
RESET (20_memory.md R64); the number of voices only NOTE_ON, ALL_NOTES_OFF, UPDATE and RESET (R233). -/
def Obligations.WhoChangesWhat : Prop :=
  ∀ (i : Instr) (s t : State), exec i s = .next t →
    (t.status = s.status ∨ (∃ k u, i = .noteOn k u) ∨ (∃ n u r, i = .update n u r) ∨
      (∃ m, i = .statusClear m) ∨ i = .reset) ∧
    ((t.cfg = s.cfg ∧ t.slots = s.slots) ∨ (∃ a w, i = .cfgWrite a w) ∨ i = .reset) ∧
    (t.out = s.out ∨ (∃ n u r, i = .update n u r) ∨ i = .reset) ∧
    (t.voices.length = s.voices.length ∨ (∃ k u, i = .noteOn k u) ∨ (∃ u, i = .allNotesOff u) ∨
      (∃ n u r, i = .update n u r) ∨ i = .reset)

/-- 10_state.md R36, 70_reset_and_hazards.md R296: what a scratch buffer held before is never observed. From
two states that differ only in the scratch buffers, in the words written and in those a reset left, any
number of steps leads to states that differ only there, and what the host observes is the same. -/
def Obligations.ScratchBuffersNeverObserved : Prop :=
  ∀ (k : Nat) (s t : State) (a b : Cells) (r : Nat), Sys2Proof.core.run k s = .next t →
    ∃ t' : State, ∃ a' b' : Cells, ∃ r' : Nat,
      Sys2Proof.core.run k { s with oscBuf := a, noteBuf := b, resets := r } = .next t' ∧
      t' = { t with oscBuf := a', noteBuf := b', resets := r' } ∧ t'.observation = t.observation

/-- 45_update_mixer.md R209: where no slot in use is a noise slot, an UPDATE depends on neither the noise
source nor the draws taken before. -/
def Obligations.NoiseFreeUpdateIgnoresSource : Prop :=
  ∀ (s : State) (n : BitVec 16) (time sr : F64) (src : NoiseSource) (d : Nat),
    (∀ p ∈ s.activeSlots, p.wave.toNat < 4) →
    ∃ t : State, exec (.update n time sr) s = .next t ∧
      exec (.update n time sr) { s with params := { s.params with noise := src }, noiseDraws := d } =
        .next { t with params := { s.params with noise := src }, noiseDraws := d }

/-- Every step keeps the invariant of the state: at most one voice per key and at most MAX_VOICES
(44_events.md R188, 10_state.md R30), the legal values of STATUS, OSC_COUNT and the buffers. -/
def Obligations.StepKeepsInvariant : Prop :=
  ∀ s t : State, s.Inv → step s = .next t → t.Inv

/-- 10_state.md R32: every phase and sync phase stays in [0, 1), provided every increment an UPDATE uses is
finite and not negative. -/
def Obligations.StepKeepsPhasesInUnit : Prop :=
  ∀ s t : State, s.Inv → s.phasesInUnit →
    (∀ n time sr rest, fetch s.inbox = .command (.update n time sr) rest → s.incrementsFinite sr) →
    step s = .next t → t.phasesInUnit

/-- 30_encoding.md R94: what the pseudo-commands stand for. The rule gives k and n no bound: that an address is
taken modulo 2^12 and an index modulo 2^16 where they exceed the fields is the model's choice (log 19). -/
def Obligations.PseudoCommandsExpand : Prop :=
  (∀ k w, Pseudo.expand (.setWave k w) = [.cfgWrite (BitVec.ofNat 12 (0x100 + 0x10 * k)) w]) ∧
  (∀ k a d s r, Pseudo.expand (.setEnv k a d s r) =
    [.cfgWrite (BitVec.ofNat 12 (0x103 + 0x10 * k)) a, .cfgWrite (BitVec.ofNat 12 (0x104 + 0x10 * k)) d,
     .cfgWrite (BitVec.ofNat 12 (0x105 + 0x10 * k)) s, .cfgWrite (BitVec.ofNat 12 (0x106 + 0x10 * k)) r]) ∧
  (∀ c q, Pseudo.expand (.setFilter c q) = [.cfgWrite 0x000#12 c, .cfgWrite 0x001#12 q]) ∧
  Pseudo.expand .clearErr = [.statusClear 3#2] ∧
  (∀ t, Pseudo.expand (.panic t) = [.allNotesOff t]) ∧
  (∀ n, (Pseudo.expand (.readBlock n)).length = n ∧
    ∀ i, i < n → (Pseudo.expand (.readBlock n))[i]? = some (.outRead (BitVec.ofNat 16 i)))
end

