-- ==== Sys2Proof/Laws/Fp.lean ====
section
/-! SUPPORT. Laws/Fp.lean: what rounding and the patterns do: a rounded magnitude is representable, a
representable one is rounded to itself, and words and values of NUM determine each other. -/

set_option exponentiation.threshold 4096

namespace Sys2Proof.Machine

/-- A magnitude some finite value of NUM has. -/
def Representable (nf : NumFormat) (mag : Nat) : Prop :=
  2 ^ max (mag.log2 + 1 - nf.precision) nf.quantumExp ∣ mag ∧ mag < 2 ^ nf.limitExp

/-- The pattern is that of a NaN. -/
def IsNanPattern (w : F64) : Prop := w.toNat / 2 ^ 52 % 2 ^ 11 = 2047 ∧ w.toNat % 2 ^ 52 ≠ 0

/-- A value of NUM; a NaN is that of some pattern. -/
def Fp.Proper (nf : NumFormat) : Fp → Prop
  | .nan p => IsNanPattern p
  | .inf _ => True
  | .fin _ mag => Representable nf mag

/-- The bounds of a format. -/
theorem format_bounds {nf : NumFormat} (h : nf.wellFormed = true) :
    2 ≤ nf.precision ∧ nf.precision ≤ 53 ∧ nf.quantumExp ≤ 1071 ∧ nf.precision + 1076 ≤ nf.limitExp ∧
      nf.limitExp ≤ 2098 := by
  simpa [NumFormat.wellFormed, and_assoc] using h

theorem binary64_wellFormed : NumFormat.binary64.wellFormed = true := by decide

/-! ## Magnitudes -/

theorem unitMag_eq : unitMag = 2 ^ 1074 := by unfold unitMag; rfl

theorem infMag_eq : infMag = 2 ^ 2098 := by unfold infMag; rfl

theorem unitMag_pos : 0 < unitMag := unitMag_eq ▸ Nat.two_pow_pos 1074

theorem infMag_pos : 0 < infMag := infMag_eq ▸ Nat.two_pow_pos 2098

theorem log2_lt_of_lt {n k : Nat} (h : n < 2 ^ k) (hk : 0 < k) : n.log2 < k := by
  rcases Nat.eq_zero_or_pos n with rfl | hn
  · simpa using hk
  · exact (Nat.log2_lt hn.ne').mpr h

theorem log2_mul_two_pow {m : Nat} (h : m ≠ 0) (k : Nat) : (m * 2 ^ k).log2 = m.log2 + k := by
  rw [Nat.log2_eq_iff (by positivity)]
  have h1 := Nat.log2_self_le h
  have h2 := Nat.lt_log2_self (n := m)
  constructor
  · rw [pow_add]; exact Nat.mul_le_mul_right _ h1
  · rw [show m.log2 + k + 1 = (m.log2 + 1) + k by omega, pow_add]
    exact Nat.mul_lt_mul_of_pos_right h2 (by positivity)

theorem representable_zero (nf : NumFormat) : Representable nf 0 := ⟨by simp, by positivity⟩

/-- A significand within the precision, times a power of two within the exponents. -/
theorem representable_of_mul {nf : NumFormat} {m k : Nat} (hm : m < 2 ^ nf.precision) (hq : nf.quantumExp ≤ k)
    (hk : nf.precision + k ≤ nf.limitExp) : Representable nf (m * 2 ^ k) := by
  rcases Nat.eq_zero_or_pos m with rfl | hm0
  · simpa using representable_zero nf
  · have hp : 0 < nf.precision := by
      by_contra hc
      rw [Nat.eq_zero_of_not_pos hc] at hm
      omega
    have hl : m.log2 < nf.precision := log2_lt_of_lt hm hp
    constructor
    · rw [log2_mul_two_pow hm0.ne']
      exact Dvd.dvd.mul_left (pow_dvd_pow 2 (by omega)) m
    · calc m * 2 ^ k < 2 ^ nf.precision * 2 ^ k := Nat.mul_lt_mul_of_pos_right hm (by positivity)
        _ = 2 ^ (nf.precision + k) := by rw [pow_add]
        _ ≤ 2 ^ nf.limitExp := Nat.pow_le_pow_right Nat.two_pos hk

theorem representable64_iff (mag : Nat) :
    Representable .binary64 mag ↔ 2 ^ (mag.log2 - 52) ∣ mag ∧ mag < infMag := by
  have e : max (mag.log2 + 1 - 53) 0 = mag.log2 - 52 := by omega
  simp only [Representable, NumFormat.binary64, e, infMag_eq]

/-- A value of NUM is a binary64 value. -/
theorem Representable.to64 {nf : NumFormat} (hf : nf.wellFormed = true) {mag : Nat} (h : Representable nf mag) :
    Representable .binary64 mag := by
  obtain ⟨-, h2, -, -, h5⟩ := format_bounds hf
  rw [representable64_iff]
  refine ⟨(pow_dvd_pow 2 ?_).trans h.1, lt_of_lt_of_le h.2 ?_⟩
  · omega
  · rw [infMag_eq]; exact Nat.pow_le_pow_right Nat.two_pos h5

/-- A finite magnitude is below that of infinity. -/
theorem Representable.lt_infMag {nf : NumFormat} (hf : nf.wellFormed = true) {mag : Nat}
    (h : Representable nf mag) : mag < infMag := ((representable64_iff mag).mp (h.to64 hf)).2

/-- The normal form of a binary64 magnitude. -/
theorem Representable.normal {mag : Nat} (h : Representable .binary64 mag) :
    mag < 2 ^ 53 ∨ ∃ m k, 1 ≤ k ∧ k ≤ 2045 ∧ 2 ^ 52 ≤ m ∧ m < 2 ^ 53 ∧ mag = m * 2 ^ k ∧ mag.log2 = 52 + k := by
  obtain ⟨⟨m, hm⟩, hlt⟩ := (representable64_iff mag).mp h
  by_cases hs : mag < 2 ^ 53
  · exact .inl hs
  · right
    have hpos : mag ≠ 0 := by intro h0; rw [h0] at hs; exact hs (by positivity)
    have hl : 53 ≤ mag.log2 := (Nat.le_log2 hpos).mpr (by omega)
    have hl2 : mag.log2 < 2098 := (Nat.log2_lt (k := 2098) hpos).mpr (lt_of_lt_of_eq hlt infMag_eq)
    obtain ⟨k, hk⟩ : ∃ k, mag.log2 = 52 + k := ⟨mag.log2 - 52, by omega⟩
    have hkk : mag.log2 - 52 = k := by omega
    rw [hkk] at hm
    have h1 := Nat.log2_self_le hpos
    have h2 := Nat.lt_log2_self (n := mag)
    rw [hk, pow_add] at h1
    rw [hk, show 52 + k + 1 = k + 53 by omega, pow_add] at h2
    have hp : 0 < 2 ^ k := by positivity
    refine ⟨m, k, by omega, by omega, ?_, ?_, by rw [hm]; ring, hk⟩
    · by_contra hc
      have hc := not_le.mp hc
      have := Nat.mul_lt_mul_of_pos_left hc hp
      rw [← hm] at this
      rw [mul_comm] at h1
      omega
    · by_contra hc
      have hc := not_lt.mp hc
      have := Nat.mul_le_mul_left (2 ^ k) hc
      rw [← hm] at this
      omega

/-- A representable magnitude is rounded to itself. -/
theorem roundMag_of_representable {nf : NumFormat} {mag : Nat} (h : Representable nf mag) :
    roundMag nf mag 1 = mag := by
  obtain ⟨⟨m, hm⟩, -⟩ := h
  unfold roundMag
  simp only [Nat.div_one, one_mul]
  generalize hk : max (mag.log2 + 1 - nf.precision) nf.quantumExp = k at hm ⊢
  have hp : 0 < 2 ^ k := by positivity
  generalize 2 ^ k = u at hm hp ⊢
  subst hm
  simp only [Nat.mul_mod_right, Nat.mul_div_right _ hp, mul_zero]
  have h1 : ¬ (u < 0 ∨ (0 = u ∧ m % 2 = 1)) := by omega
  rw [if_neg h1, mul_comm]

/-- The rounded magnitude has a significand within the precision, or one more. -/
theorem roundMag_form (nf : NumFormat) (n d : Nat) :
    ∃ q k, roundMag nf n d = q * 2 ^ k ∧ q ≤ 2 ^ nf.precision ∧ nf.quantumExp ≤ k := by
  unfold roundMag
  simp only
  generalize hk : max ((n / d).log2 + 1 - nf.precision) nf.quantumExp = k
  have hq : n / (d * 2 ^ k) < 2 ^ nf.precision := by
    rw [← Nat.div_div_eq_div_mul, Nat.div_lt_iff_lt_mul (by positivity), ← pow_add]
    calc n / d < 2 ^ ((n / d).log2 + 1) := Nat.lt_log2_self
      _ ≤ 2 ^ (nf.precision + k) := Nat.pow_le_pow_right (by norm_num) (by omega)
  split
  · exact ⟨_, k, rfl, by omega, by omega⟩
  · exact ⟨_, k, rfl, by omega, by omega⟩

/-- A rounded magnitude within the range is representable. -/
theorem roundMag_representable {nf : NumFormat} (hf : nf.wellFormed = true) {n d : Nat}
    (h : roundMag nf n d < 2 ^ nf.limitExp) : Representable nf (roundMag nf n d) := by
  have hp := (format_bounds hf).1
  obtain ⟨q, k, hq, hle, hk⟩ := roundMag_form nf n d
  rw [hq] at h ⊢
  rcases Nat.eq_zero_or_pos q with rfl | hq0
  · simpa using representable_zero nf
  · refine ⟨?_, h⟩
    rw [log2_mul_two_pow hq0.ne']
    rcases Nat.lt_or_eq_of_le hle with hlt | rfl
    · have : q.log2 < nf.precision := log2_lt_of_lt hlt (by omega)
      exact Dvd.dvd.mul_left (pow_dvd_pow 2 (by omega)) q
    · rw [Nat.log2_two_pow, ← pow_add]
      exact pow_dvd_pow 2 (by omega)

theorem Fp.ofRatio_proper {nf : NumFormat} (hf : nf.wellFormed = true) (neg : Bool) (n d : Nat) :
    (Fp.ofRatio nf neg n d).Proper nf := by
  unfold Fp.ofRatio
  simp only
  split
  · next h => exact roundMag_representable hf h
  · trivial

theorem Fp.ofInt_proper {nf : NumFormat} (hf : nf.wellFormed = true) (z : Int) (b : Bool) :
    (Fp.ofInt nf z b).Proper nf := by
  unfold Fp.ofInt
  split
  · exact representable_zero nf
  · exact Fp.ofRatio_proper hf _ _ _

/-! ## Patterns -/

theorem quiet_pattern (w : F64) :
    IsNanPattern ((w &&& 0x8007FFFFFFFFFFFF#64) ||| 0x7FF8000000000000#64) := by
  generalize hx : (w &&& 0x8007FFFFFFFFFFFF#64) ||| 0x7FF8000000000000#64 = x
  have hbit : ∀ i, 51 ≤ i → i < 63 → x.getLsbD i = true := by
    intro i h1 h2
    subst hx
    have : (0x7FF8000000000000#64 : BitVec 64).getLsbD i = true := by
      interval_cases i <;> rfl
    rw [BitVec.getLsbD_or, this, Bool.or_true]
  have hn : ∀ i, 51 ≤ i → i < 63 → x.toNat.testBit i = true := fun i h1 h2 => by
    have := hbit i h1 h2
    rwa [← BitVec.testBit_toNat] at this
  constructor
  · have : ∀ i, (x.toNat / 2 ^ 52 % 2 ^ 11).testBit i = (2047 : Nat).testBit i := by
      intro i
      rw [Nat.testBit_mod_two_pow, Nat.testBit_div_two_pow]
      rw [show (2047 : Nat) = 2 ^ 11 - 1 by norm_num, Nat.testBit_two_pow_sub_one]
      by_cases hi : i < 11
      · simp only [hi, decide_true, Bool.true_and]
        exact hn _ (by omega) (by omega)
      · simp [hi]
    exact Nat.eq_of_testBit_eq this
  · intro h0
    have := hn 51 (by norm_num) (by norm_num)
    have h2 : (x.toNat % 2 ^ 52).testBit 51 = true := by
      rw [Nat.testBit_mod_two_pow]; simp [this]
    rw [h0] at h2
    simp at h2

theorem nanResult_proper (nf : NumFormat) (op : NumOp) (x y : Fp) : (nanResult op x y).Proper nf := quiet_pattern _

theorem msb_ofNat_signBit (neg : Bool) {b : Nat} (hb : b < 2 ^ 63) :
    (BitVec.ofNat 64 (signBit neg + b)).msb = neg := by
  rw [BitVec.msb_eq_decide, BitVec.toNat_ofNat]
  cases neg
  · simp only [signBit, Bool.false_eq_true, if_false, zero_add, decide_eq_false_iff_not, not_le]
    rw [Nat.mod_eq_of_lt (by omega)]; omega
  · simp only [signBit, if_true, decide_eq_true_eq]
    rw [Nat.mod_eq_of_lt (by omega)]; omega

theorem toNat_ofNat_signBit (neg : Bool) {b : Nat} (hb : b < 2 ^ 63) :
    (BitVec.ofNat 64 (signBit neg + b)).toNat = signBit neg + b := by
  rw [BitVec.toNat_ofNat, Nat.mod_eq_of_lt]
  cases neg <;> simp only [signBit, Bool.false_eq_true, if_false, if_true] <;> omega

/-- The value of a pattern, from its sign, exponent and fraction. -/
theorem Fp.decode_of_fields {w : F64} {neg : Bool} {e f : Nat} (hs : w.msb = neg)
    (he : w.toNat / 2 ^ 52 % 2 ^ 11 = e) (hf : w.toNat % 2 ^ 52 = f) :
    Fp.decode w = if e = 2047 then (if f = 0 then .inf neg else .nan w)
      else if e = 0 then .fin neg f else .fin neg ((2 ^ 52 + f) * 2 ^ (e - 1)) := by
  subst hs he hf
  rfl

/-- The fields of a pattern built from a sign and 63 low bits. -/
theorem Fp.decode_signBit (neg : Bool) {b : Nat} (hb : b < 2 ^ 63) :
    Fp.decode (BitVec.ofNat 64 (signBit neg + b)) =
      if b / 2 ^ 52 = 2047 then
        (if b % 2 ^ 52 = 0 then .inf neg else .nan (BitVec.ofNat 64 (signBit neg + b)))
      else if b / 2 ^ 52 = 0 then .fin neg (b % 2 ^ 52)
      else .fin neg ((2 ^ 52 + b % 2 ^ 52) * 2 ^ (b / 2 ^ 52 - 1)) := by
  refine Fp.decode_of_fields (msb_ofNat_signBit neg hb) ?_ ?_ <;> rw [toNat_ofNat_signBit neg hb] <;>
    cases neg <;> simp only [signBit, Bool.false_eq_true, if_false, if_true] <;> omega

theorem magBits_small {mag : Nat} (h : mag < 2 ^ 53) : magBits mag = mag := by
  have hl : mag.log2 - 52 = 0 := by
    have := log2_lt_of_lt h (by norm_num)
    omega
  rw [magBits, hl, Nat.zero_mul, Nat.zero_add, pow_zero, Nat.div_one]

theorem magBits_normal {m k : Nat} (hl : (m * 2 ^ k).log2 = 52 + k) : magBits (m * 2 ^ k) = k * 2 ^ 52 + m := by
  rw [magBits, hl, Nat.add_sub_cancel_left, Nat.mul_div_cancel _ (by positivity)]

/-- The pattern of a proper value has that value. -/
theorem Fp.decode_toWord {x : Fp} (h : x.Proper .binary64) : Fp.decode x.toWord = x := by
  cases x with
  | nan p =>
    show Fp.decode p = .nan p
    rw [Fp.decode_of_fields rfl h.1 rfl, if_pos rfl, if_neg h.2]
  | inf neg =>
    rw [Fp.toWord, Fp.decode_signBit neg (by norm_num), if_pos (by norm_num), if_pos (by norm_num)]
  | fin neg mag =>
    rw [Fp.toWord]
    rcases Representable.normal h with hs | ⟨m, k, hk1, hk2, hm1, hm2, rfl, hlog⟩
    · rw [magBits_small hs, Fp.decode_signBit neg (by omega), if_neg (by omega)]
      split
      · congr 1; omega
      · have e1 : mag / 2 ^ 52 - 1 = 0 := by omega
        rw [e1, pow_zero, Nat.mul_one]
        congr 1; omega
    · have e0 : (k * 2 ^ 52 + m) / 2 ^ 52 = k + 1 := by omega
      have f0 : 2 ^ 52 + (k * 2 ^ 52 + m) % 2 ^ 52 = m := by omega
      rw [magBits_normal hlog, Fp.decode_signBit neg (by omega), f0, e0, if_neg (by omega),
        if_neg (by omega), Nat.add_sub_cancel]

/-- The value of a pattern is proper. -/
theorem Fp.decode_proper (w : F64) : (Fp.decode w).Proper .binary64 := by
  unfold Fp.decode
  simp only
  split
  · next h =>
    split
    · trivial
    · next h2 => exact ⟨h, h2⟩
  · next h =>
    have he : w.toNat / 2 ^ 52 % 2 ^ 11 < 2 ^ 11 := Nat.mod_lt _ (by norm_num)
    have hf : w.toNat % 2 ^ 52 < 2 ^ 52 := Nat.mod_lt _ (by norm_num)
    split
    · show Representable .binary64 _
      have h0 := representable_of_mul (nf := .binary64) (m := w.toNat % 2 ^ 52) (k := 0)
        (by show _ < 2 ^ 53; omega) (Nat.zero_le _) (by decide)
      rwa [pow_zero, Nat.mul_one] at h0
    · show Representable .binary64 _
      exact representable_of_mul (by show _ < 2 ^ 53; omega) (Nat.zero_le _) (by show 53 + _ ≤ 2098; omega)

/-- The value of a pattern has that pattern. -/
theorem Fp.toWord_decode (w : F64) : (Fp.decode w).toWord = w := by
  have hw := w.isLt
  have hmsb : w.msb = decide (2 ^ 63 ≤ w.toNat) := by rw [BitVec.msb_eq_decide]
  have hsign : signBit w.msb = w.toNat / 2 ^ 63 * 2 ^ 63 := by
    rw [hmsb, signBit]
    by_cases h : 2 ^ 63 ≤ w.toNat
    · simp only [h, decide_true, if_true]; omega
    · simp only [h, decide_false, Bool.false_eq_true, if_false]; omega
  have hback : ∀ b, b = w.toNat % 2 ^ 63 → BitVec.ofNat 64 (signBit w.msb + b) = w := by
    intro b hb
    apply BitVec.eq_of_toNat_eq
    rw [BitVec.toNat_ofNat, hsign, hb]
    omega
  have he : w.toNat / 2 ^ 52 % 2 ^ 11 < 2 ^ 11 := Nat.mod_lt _ (by norm_num)
  have hf : w.toNat % 2 ^ 52 < 2 ^ 52 := Nat.mod_lt _ (by norm_num)
  unfold Fp.decode
  simp only
  split
  · next h =>
    split
    · next h2 => exact hback _ (by omega)
    · rfl
  · next h =>
    split
    · next h2 =>
      simp only [Fp.toWord]
      rw [magBits_small (by omega)]
      exact hback _ (by omega)
    · next h2 =>
      simp only [Fp.toWord]
      generalize hE : w.toNat / 2 ^ 52 % 2 ^ 11 = E at *
      generalize hF : w.toNat % 2 ^ 52 = F at *
      have hpos : (2 ^ 52 + F) * 2 ^ (E - 1) ≠ 0 := by positivity
      have hl : ((2 ^ 52 + F) * 2 ^ (E - 1)).log2 = 52 + (E - 1) := by
        rw [Nat.log2_eq_iff hpos]
        constructor
        · rw [pow_add]; exact Nat.mul_le_mul_right _ (by omega)
        · rw [show 52 + (E - 1) + 1 = 53 + (E - 1) by omega, pow_add]
          exact Nat.mul_lt_mul_of_pos_right (by omega) (by positivity)
      rw [magBits_normal hl]
      exact hback _ (by omega)

/-! ## Words -/

/-- A value of NUM is a binary64 value. -/
theorem Fp.Proper.to64 {nf : NumFormat} (hf : nf.wellFormed = true) {x : Fp} (h : x.Proper nf) :
    x.Proper .binary64 := by
  cases x with
  | nan p => exact h
  | inf s => trivial
  | fin s a => exact Representable.to64 hf h

/-- A value of NUM is the nearest to itself. -/
theorem Fp.round_of_proper {nf : NumFormat} {x : Fp} (h : x.Proper nf) : Fp.round nf x = x := by
  cases x with
  | nan p => rfl
  | inf s => rfl
  | fin s a =>
    have h' : Representable nf a := h
    simp only [Fp.round, Fp.ofRatio, roundMag_of_representable h', if_pos h'.2]

/-- A word carries a value of NUM. -/
theorem Fp.ofWord_proper {nf : NumFormat} (hf : nf.wellFormed = true) (w : F64) : (Fp.ofWord nf w).Proper nf := by
  have h := Fp.decode_proper w
  unfold Fp.ofWord
  cases hd : Fp.decode w with
  | nan p => rw [hd] at h; exact h
  | inf s => trivial
  | fin s a => exact Fp.ofRatio_proper hf _ _ _

/-- The word of a value of NUM carries that value. -/
theorem Fp.ofWord_toWord {nf : NumFormat} (hf : nf.wellFormed = true) {x : Fp} (h : x.Proper nf) :
    Fp.ofWord nf x.toWord = x := by
  rw [Fp.ofWord, Fp.decode_toWord (h.to64 hf), Fp.round_of_proper h]

/-- In binary64 a word carries the value of its pattern. -/
theorem Fp.ofWord_binary64 (w : F64) : Fp.ofWord .binary64 w = Fp.decode w :=
  Fp.round_of_proper (Fp.decode_proper w)

/-- In binary64 a word is the word of the value it carries. -/
theorem Fp.toWord_ofWord (w : F64) : (Fp.ofWord .binary64 w).toWord = w := by
  rw [Fp.ofWord_binary64, Fp.toWord_decode]

/-! ## Results of operations are proper -/

theorem Fp.add_proper {nf : NumFormat} (hf : nf.wellFormed = true) (x y : Fp) :
    (Fp.add nf x y).Proper nf := by
  unfold Fp.add
  split <;> first | exact Fp.ofInt_proper hf _ _ | trivial | exact nanResult_proper _ _ _ _ | skip
  split
  · trivial
  · exact nanResult_proper _ _ _ _

theorem Fp.sub_proper {nf : NumFormat} (hf : nf.wellFormed = true) (x y : Fp) :
    (Fp.sub nf x y).Proper nf := by
  unfold Fp.sub
  split <;> first | exact Fp.ofInt_proper hf _ _ | trivial | exact nanResult_proper _ _ _ _ | skip
  split
  · exact nanResult_proper _ _ _ _
  · trivial

theorem Fp.mul_proper {nf : NumFormat} (hf : nf.wellFormed = true) (x y : Fp) :
    (Fp.mul nf x y).Proper nf := by
  unfold Fp.mul
  split <;> first | exact Fp.ofRatio_proper hf _ _ _ | trivial | exact nanResult_proper _ _ _ _ | skip
  all_goals
    split
    · exact nanResult_proper _ _ _ _
    · trivial

theorem Fp.div_proper {nf : NumFormat} (hf : nf.wellFormed = true) (x y : Fp) :
    (Fp.div nf x y).Proper nf := by
  unfold Fp.div
  split <;> first | trivial | exact nanResult_proper _ _ _ _ | exact representable_zero nf | skip
  split
  · split
    · exact nanResult_proper _ _ _ _
    · trivial
  · exact Fp.ofRatio_proper hf _ _ _

theorem representable_unit {nf : NumFormat} (hf : nf.wellFormed = true) : Representable nf unitMag := by
  obtain ⟨h1, -, h3, h4, -⟩ := format_bounds hf
  have h := representable_of_mul (nf := nf) (m := 1) (k := 1074) (Nat.one_lt_two_pow (by omega)) (by omega) (by omega)
  rwa [Nat.one_mul, ← unitMag_eq] at h

theorem Fp.within_proper {nf : NumFormat} {b y : Fp} (h : y.Proper nf) : (Fp.within b y).Proper nf := by
  unfold Fp.within
  split
  · split
    · exact h
    · exact representable_zero nf
  · exact representable_zero nf

end Sys2Proof.Machine
end

