-- ==== Sys2Proof/Laws/Arith.lean ====
section
/-! SUPPORT. Laws/Arith.lean: exact cases of the arithmetic, where it cannot overflow, and the order. -/

set_option exponentiation.threshold 4096

namespace Sys2Proof.Machine

variable {nf : NumFormat}

/-! ## Rounding -/

theorem roundMag_zero (nf : NumFormat) (d : Nat) : roundMag nf 0 d = 0 := by simp [roundMag]

/-- A positive multiple of the smallest subnormal is not rounded to 0. -/
theorem roundMag_pos {nf : NumFormat} (hf : nf.wellFormed = true) {n : Nat} (h : 0 < n)
    (hq : 2 ^ nf.quantumExp ∣ n) : 0 < roundMag nf n 1 := by
  have hp := (format_bounds hf).1
  unfold roundMag
  simp only [Nat.div_one, one_mul]
  have h1 : 2 ^ max (n.log2 + 1 - nf.precision) nf.quantumExp ≤ n := by
    rcases le_total (n.log2 + 1 - nf.precision) nf.quantumExp with hc | hc
    · rw [max_eq_right hc]; exact Nat.le_of_dvd h hq
    · rw [max_eq_left hc]
      exact (Nat.pow_le_pow_right Nat.two_pos (by omega)).trans (Nat.log2_self_le h.ne')
  have hd : 1 ≤ n / 2 ^ max (n.log2 + 1 - nf.precision) nf.quantumExp :=
    (Nat.one_le_div_iff (by positivity)).mpr h1
  refine Nat.mul_pos ?_ (by positivity)
  split <;> omega

/-- A common factor does not change a rounding. -/
theorem roundMag_scale (nf : NumFormat) (a : Nat) {c : Nat} (hc : 0 < c) :
    roundMag nf (a * c) c = roundMag nf a 1 := by
  unfold roundMag
  simp only [Nat.mul_div_cancel _ hc, Nat.div_one, one_mul]
  generalize 2 ^ max (a.log2 + 1 - nf.precision) nf.quantumExp = u
  have h1 : a * c / (c * u) = a / u := by rw [mul_comm a c, Nat.mul_div_mul_left _ _ hc]
  have h2 : a * c % (c * u) = c * (a % u) := by rw [mul_comm a c, Nat.mul_mod_mul_left]
  rw [h1, h2]
  have h3 : c * u < 2 * (c * (a % u)) ↔ u < 2 * (a % u) := by
    rw [show 2 * (c * (a % u)) = c * (2 * (a % u)) by ring, Nat.mul_lt_mul_left hc]
  have h4 : 2 * (c * (a % u)) = c * u ↔ 2 * (a % u) = u := by
    rw [show 2 * (c * (a % u)) = c * (2 * (a % u)) by ring, Nat.mul_right_inj hc.ne']
  simp only [h3, h4]

/-- Rounding an integer moves it up by at most half the last place. -/
theorem two_mul_roundMag_le (nf : NumFormat) (n : Nat) :
    2 * roundMag nf n 1 ≤ 2 * n + 2 ^ max (n.log2 + 1 - nf.precision) nf.quantumExp := by
  unfold roundMag
  simp only [Nat.div_one, one_mul]
  generalize 2 ^ max (n.log2 + 1 - nf.precision) nf.quantumExp = u
  have h := Nat.div_add_mod n u
  rw [mul_comm] at h
  split
  · rw [Nat.add_mul, one_mul]; omega
  · omega

/-- Rounding an integer less than half the last place of the largest magnitudes stays in the range. -/
theorem roundMag_lt_limit {nf : NumFormat} (hf : nf.wellFormed = true) {n : Nat}
    (h : n + 2 ^ (nf.limitExp - nf.precision - 1) < 2 ^ nf.limitExp) : roundMag nf n 1 < 2 ^ nf.limitExp := by
  obtain ⟨-, -, h3, h4, -⟩ := format_bounds hf
  rcases Nat.eq_zero_or_pos n with rfl | hn
  · rw [roundMag_zero]; positivity
  have hl : n.log2 < nf.limitExp := (Nat.log2_lt hn.ne').mpr (lt_of_le_of_lt (Nat.le_add_right _ _) h)
  have h5 := two_mul_roundMag_le nf n
  have h6 : 2 ^ max (n.log2 + 1 - nf.precision) nf.quantumExp ≤ 2 * 2 ^ (nf.limitExp - nf.precision - 1) := by
    rw [← pow_succ']
    exact Nat.pow_le_pow_right Nat.two_pos (by omega)
  omega

/-- The gap between a representable magnitude and the range's end. -/
theorem Representable.gap {nf : NumFormat} (hf : nf.wellFormed = true) {a : Nat} (h : Representable nf a) :
    a + 2 ^ (nf.limitExp - nf.precision) ≤ 2 ^ nf.limitExp := by
  obtain ⟨h1, -, -, h4, -⟩ := format_bounds hf
  obtain ⟨hd, hlt⟩ := h
  by_cases hc : a < 2 ^ (nf.limitExp - 1)
  · have e1 : (2 : Nat) ^ nf.limitExp = 2 * 2 ^ (nf.limitExp - 1) := by rw [← pow_succ']; congr 1; omega
    have e2 : (2 : Nat) ^ (nf.limitExp - nf.precision) ≤ 2 ^ (nf.limitExp - 1) :=
      Nat.pow_le_pow_right Nat.two_pos (by omega)
    omega
  · have ha : a ≠ 0 := by rintro rfl; exact hc (by positivity)
    have hl : nf.limitExp - 1 ≤ a.log2 := (Nat.le_log2 ha).mpr (not_lt.mp hc)
    obtain ⟨m, rfl⟩ := (pow_dvd_pow 2 (show nf.limitExp - nf.precision ≤
      max (a.log2 + 1 - nf.precision) nf.quantumExp by omega)).trans hd
    have e : (2 : Nat) ^ nf.limitExp = 2 ^ (nf.limitExp - nf.precision) * 2 ^ nf.precision := by
      rw [← pow_add]; congr 1; omega
    rw [e] at hlt ⊢
    have hm : m + 1 ≤ 2 ^ nf.precision := lt_of_mul_lt_mul_left hlt (Nat.zero_le _)
    have := Nat.mul_le_mul_left (2 ^ (nf.limitExp - nf.precision)) hm
    rw [Nat.mul_add, Nat.mul_one] at this
    exact this

/-- Half the last place of the largest magnitudes exceeds 1.0. -/
theorem unitMag_lt_half_ulp {nf : NumFormat} (hf : nf.wellFormed = true) :
    unitMag < 2 ^ (nf.limitExp - nf.precision - 1) ∧
      2 ^ (nf.limitExp - nf.precision) = 2 * 2 ^ (nf.limitExp - nf.precision - 1) := by
  have h4 := (format_bounds hf).2.2.2.1
  refine ⟨?_, ?_⟩
  · rw [unitMag_eq]; exact Nat.pow_lt_pow_right (by norm_num) (by omega)
  · rw [← pow_succ']; congr 1; omega

/-- A representable magnitude plus at most 1.0 does not round to infinity. -/
theorem Representable.add_unit {nf : NumFormat} (hf : nf.wellFormed = true) {a b : Nat}
    (h : Representable nf a) (hb : b ≤ unitMag) : roundMag nf (a + b) 1 < 2 ^ nf.limitExp := by
  have h1 := h.gap hf
  have h2 := unitMag_lt_half_ulp hf
  exact roundMag_lt_limit hf (by omega)

/-- The fractional part of a representable magnitude is representable. -/
theorem Representable.mod_unit {nf : NumFormat} (hf : nf.wellFormed = true) {a : Nat}
    (h : Representable nf a) : Representable nf (a % unitMag) := by
  have hq := (format_bounds hf).2.2.1
  rcases Nat.eq_zero_or_pos (a % unitMag) with h0 | h0
  · rw [h0]; exact representable_zero nf
  have hle : a % unitMag ≤ a := Nat.mod_le _ _
  refine ⟨?_, lt_of_le_of_lt hle h.2⟩
  have hl : (a % unitMag).log2 ≤ a.log2 :=
    (Nat.le_log2 (by omega)).mpr ((Nat.log2_self_le h0.ne').trans hle)
  by_cases hk : max (a.log2 + 1 - nf.precision) nf.quantumExp ≤ 1074
  · have h2 : 2 ^ max (a.log2 + 1 - nf.precision) nf.quantumExp ∣ a % unitMag := by
      refine (Nat.dvd_mod_iff ?_).mpr h.1
      rw [unitMag_eq]; exact pow_dvd_pow 2 hk
    exact (pow_dvd_pow 2 (by omega)).trans h2
  · have h2 : unitMag ∣ a := by
      rw [unitMag_eq]; exact (pow_dvd_pow 2 (by omega)).trans h.1
    rw [Nat.mod_eq_zero_of_dvd h2] at h0
    omega

/-- A representable magnitude is a multiple of the smallest subnormal. -/
theorem Representable.quantum_dvd {nf : NumFormat} {a : Nat} (h : Representable nf a) :
    2 ^ nf.quantumExp ∣ a := (pow_dvd_pow 2 (le_max_right _ _)).trans h.1

/-! ## Exact results -/

@[simp] theorem Fp.ofInt_zero (b : Bool) : Fp.ofInt nf 0 b = .fin b 0 := rfl

/-- An exact result that is representable is the result. -/
theorem Fp.ofInt_of_representable {z : Int} (h : Representable nf z.natAbs) (b : Bool) :
    Fp.ofInt nf z b = .fin (if z = 0 then b else decide (z < 0)) z.natAbs := by
  unfold Fp.ofInt Fp.ofRatio
  by_cases hz : z = 0
  · simp [hz]
  · simp only [hz, if_false, roundMag_of_representable h, if_pos h.2]

@[simp] theorem natAbs_signedMag (s : Bool) (a : Nat) : (signedMag s a).natAbs = a := by
  cases s <;> simp [signedMag]

@[simp] theorem signedMag_zero (s : Bool) : signedMag s 0 = 0 := by cases s <;> rfl

theorem signedMag_eq_zero (s : Bool) (a : Nat) : signedMag s a = 0 ↔ a = 0 := by
  cases s <;> simp [signedMag]

theorem signedMag_neg_iff (s : Bool) (a : Nat) : signedMag s a < 0 ↔ s = true ∧ 0 < a := by
  cases s
  · simp [signedMag]
  · simp [signedMag]

/-- The value of a sum rounded from a representable integer. -/
theorem Fp.value_ofInt {z : Int} (h : Representable nf z.natAbs) (b : Bool) : (Fp.ofInt nf z b).value = some z := by
  rw [Fp.ofInt_of_representable h]
  by_cases hz : z = 0
  · subst hz; simp [Fp.value]
  · simp only [hz, if_false, Fp.value, signedMag, Option.some.injEq, decide_eq_true_eq]
    split <;> omega

/-- x + (±0) has the value of x. -/
theorem Fp.value_add_zero {s t : Bool} {a : Nat} (h : Representable nf a) :
    (Fp.add nf (.fin s a) (.fin t 0)).value = some (signedMag s a) := by
  simp only [Fp.add, signedMag_zero, add_zero]
  exact Fp.value_ofInt (by simpa using h) _

/-- (+0) + x has the value of x. -/
theorem Fp.value_zero_add {s t : Bool} {a : Nat} (h : Representable nf a) :
    (Fp.add nf (.fin t 0) (.fin s a)).value = some (signedMag s a) := by
  simp only [Fp.add, signedMag_zero, zero_add]
  exact Fp.value_ofInt (by simpa using h) _

/-- x − (+0) has the value of x. -/
theorem Fp.value_sub_zero {s t : Bool} {a : Nat} (h : Representable nf a) :
    (Fp.sub nf (.fin s a) (.fin t 0)).value = some (signedMag s a) := by
  simp only [Fp.sub, signedMag_zero, sub_zero]
  exact Fp.value_ofInt (by simpa using h) _

theorem Fp.value_sub_of_add {m q r : Nat} (h : q + r = m) (hr : Representable nf r) :
    (Fp.sub nf (.fin false m) (.fin false q)).value = some (r : Int) := by
  have e : signedMag false m - signedMag false q = (r : Int) := by
    simp only [signedMag, Bool.false_eq_true, if_false]; omega
  simp only [Fp.sub, e]
  exact Fp.value_ofInt (by rwa [Int.natAbs_natCast]) _

theorem floor_add_fract (m : Nat) : m / unitMag * unitMag + m % unitMag = m := by
  have h := Nat.div_add_mod m unitMag
  rwa [mul_comm] at h

/-- x − floor(x) is the fractional part of x, exactly. -/
theorem Fp.value_sub_floor (hf : nf.wellFormed = true) {m : Nat} (h : Representable nf m) :
    (Fp.sub nf (.fin false m) (Fp.floor (.fin false m))).value = some ((m % unitMag : Nat) : Int) :=
  Fp.value_sub_of_add (floor_add_fract m) (h.mod_unit hf)

/-- ±0 times a finite value is ±0. -/
theorem Fp.zero_mul_fin (s t : Bool) (b : Nat) : Fp.mul nf (.fin s 0) (.fin t b) = .fin (s ^^ t) 0 := by
  simp [Fp.mul, Fp.ofRatio, roundMag_zero]

/-- ±0 over a finite value that is not 0 is ±0. -/
theorem Fp.zero_div_fin (s t : Bool) {b : Nat} (h : b ≠ 0) : Fp.div nf (.fin s 0) (.fin t b) = .fin (s ^^ t) 0 := by
  simp [Fp.div, h, Fp.ofRatio, roundMag_zero]

/-- 1 × x = x for finite x. -/
theorem Fp.one_mul_fin (t : Bool) {b : Nat} (h : Representable nf b) : Fp.mul nf .one (.fin t b) = .fin t b := by
  simp [Fp.mul, Fp.ofRatio, mul_comm unitMag b, roundMag_scale nf b unitMag_pos, roundMag_of_representable h, h.2]

/-- An exact quotient that is representable is the result. -/
theorem Fp.ofRatio_exact (neg : Bool) {n d m : Nat} (hd : 0 < d) (h : n = m * d) (hr : Representable nf m) :
    Fp.ofRatio nf neg n d = .fin neg m := by
  subst h
  simp only [Fp.ofRatio, roundMag_scale nf m hd, roundMag_of_representable hr, if_pos hr.2]

/-- Words that carry the same value in every format: +0, and the infinities. -/
@[simp] theorem Fp.ofWord_zero (nf : NumFormat) : Fp.ofWord nf F64.zero = .zero := by
  have e : Fp.decode F64.zero = .zero := by decide
  simp [Fp.ofWord, e, Fp.round, Fp.ofRatio, roundMag_zero]

@[simp] theorem Fp.ofWord_plusInf (nf : NumFormat) : Fp.ofWord nf 0x7FF0000000000000#64 = .inf false := by
  have e : Fp.decode 0x7FF0000000000000#64 = .inf false := by decide
  simp [Fp.ofWord, e, Fp.round]

/-- Where rounding cannot overflow, the result is finite. -/
theorem Fp.ofInt_finite {z : Int} (h : roundMag nf z.natAbs 1 < 2 ^ nf.limitExp) (b : Bool) :
    ∃ t m, Fp.ofInt nf z b = .fin t m := by
  unfold Fp.ofInt
  split
  · exact ⟨_, _, rfl⟩
  · simp only [Fp.ofRatio, if_pos h]
    exact ⟨_, _, rfl⟩

/-- 1 − x is finite when x is finite and at most 1. -/
theorem Fp.one_sub_finite (hf : nf.wellFormed = true) {s : Bool} {a : Nat} (h : Representable nf a) (h1 : signedMag s a ≤ unitMag) :
    ∃ t m, Fp.sub nf .one (.fin s a) = .fin t m := by
  have hr : Representable nf (signedMag s a).natAbs := by simpa using h
  refine Fp.ofInt_finite ?_ _
  cases s
  · simp only [signedMag, Bool.false_eq_true, if_false] at h1 ⊢
    refine roundMag_lt_limit hf ?_
    have h2 := (representable_unit hf).gap hf
    have h3 := unitMag_lt_half_ulp hf
    omega
  · have e : (signedMag false unitMag - signedMag true a).natAbs = a + unitMag := by
      simp only [signedMag, if_true, Bool.false_eq_true, if_false]; omega
    rw [e]
    exact h.add_unit hf le_rfl

/-! ## Order -/

@[simp] theorem Fp.value_fin (s : Bool) (a : Nat) : (Fp.fin s a).value = some (signedMag s a) := rfl
@[simp] theorem Fp.value_inf (s : Bool) : (Fp.inf s).value = some (signedMag s infMag) := rfl
@[simp] theorem Fp.value_nan (p : F64) : (Fp.nan p).value = none := rfl

theorem Fp.lt_iff (x y : Fp) : Fp.lt x y = true ↔ ∃ a b, x.value = some a ∧ y.value = some b ∧ a < b := by
  unfold Fp.lt
  cases x.value <;> cases y.value <;> simp

theorem Fp.le_iff (x y : Fp) : Fp.le x y = true ↔ ∃ a b, x.value = some a ∧ y.value = some b ∧ a ≤ b := by
  unfold Fp.le
  cases x.value <;> cases y.value <;> simp

theorem Fp.eq_iff (x y : Fp) : Fp.eq x y = true ↔ ∃ a, x.value = some a ∧ y.value = some a := by
  unfold Fp.eq
  cases x.value <;> cases y.value <;> simp [eq_comm]

/-- Two values that are not NaN and have one value compare equal. -/
theorem Fp.eq_of_value {x y : Fp} {z : Int} (hx : x.value = some z) (hy : y.value = some z) :
    Fp.eq x y = true := (Fp.eq_iff x y).mpr ⟨z, hx, hy⟩

/-- A value strictly between the infinities is finite. -/
theorem Fp.finite_of_between {x : Fp} (h1 : Fp.lt (.inf true) x = true) (h2 : Fp.lt x (.inf false) = true) :
    ∃ s a, x = .fin s a := by
  cases x with
  | fin s a => exact ⟨s, a, rfl⟩
  | nan p => simp [Fp.lt] at h1
  | inf s => cases s <;> simp [Fp.lt] at h1 h2


end Sys2Proof.Machine
end

