-- ==== Sys2Proof/Laws/Decode.lean ====
section
/-! SUPPORT. Laws/Decode.lean: the fields of a command beat. -/

namespace Sys2Proof

/-- The opcode bits determine the opcode, and back. -/
@[simp] theorem Opcode.ofBits_bits (op : Opcode) : Opcode.ofBits op.bits = op := by cases op <;> rfl

theorem Opcode.bits_ofBits (b : BitVec 4) : (Opcode.ofBits b).bits = b := by
  revert b; decide

/-- The opcode of a command beat. -/
theorem opcodeBits_commandBeat (op : Opcode) {n : Nat} (f : BitVec n) (hn : n ≤ 28) :
    (commandBeat op f).extractLsb' 28 4 = op.bits := by
  ext i hi
  have h : f.getLsbD (28 + i) = false := BitVec.getLsbD_of_ge f (28 + i) (by omega)
  have h2 : 28 + i < 64 := by omega
  simp [commandBeat, h, h2, BitVec.getLsbD_eq_getElem hi]

@[simp] theorem opcodeOf_commandBeat (op : Opcode) {n : Nat} (f : BitVec n) (hn : n ≤ 28) :
    opcodeOf (commandBeat op f) = op := by
  rw [opcodeOf, opcodeBits_commandBeat op f hn, Opcode.ofBits_bits]

/-- The field of a command beat. -/
theorem field_commandBeat (op : Opcode) {n : Nat} (f : BitVec n) (hn : n ≤ 28) :
    (commandBeat op f).extractLsb' 0 n = f := by
  ext i hi
  have h1 : i < 28 := by omega
  have h2 : i < 64 := by omega
  simp [commandBeat, h1, h2, BitVec.getLsbD_eq_getElem hi]

/-- A command beat is below 2^32, with its opcode above its field. -/
theorem toNat_commandBeat (op : Opcode) {n : Nat} (f : BitVec n) (hn : n ≤ 28) :
    (commandBeat op f).toNat = op.bits.toNat * 2 ^ 28 + f.toNat := by
  have hf : f.toNat < 2 ^ 28 := lt_of_lt_of_le f.isLt (Nat.pow_le_pow_right Nat.two_pos hn)
  have ho : op.bits.toNat < 2 ^ 4 := op.bits.isLt
  have e1 : (op.bits.setWidth 64 <<< 28).toNat = op.bits.toNat * 2 ^ 28 := by
    rw [BitVec.toNat_shiftLeft, BitVec.toNat_setWidth, Nat.shiftLeft_eq]
    omega
  have e2 : (f.setWidth 64).toNat = f.toNat := by
    rw [BitVec.toNat_setWidth]; omega
  rw [commandBeat, BitVec.toNat_or, e1, e2, Nat.mul_comm, ← Nat.two_pow_add_eq_or_of_lt hf]

/-- A command beat whose field fits its opcode's format has every ignored bit 0. -/
theorem commandBeatWellFormed_commandBeat (op : Opcode) {n : Nat} (f : BitVec n) (hn : n ≤ 28)
    (hf : f.toNat < 2 ^ fieldBits op.bits) : commandBeatWellFormed (commandBeat op f) = true := by
  have hf' : f.toNat < 2 ^ 28 := lt_of_lt_of_le f.isLt (Nat.pow_le_pow_right Nat.two_pos hn)
  have ho : op.bits.toNat < 2 ^ 4 := op.bits.isLt
  simp only [commandBeatWellFormed, opcodeBits_commandBeat op f hn, toNat_commandBeat op f hn,
    Bool.and_eq_true, decide_eq_true_eq]
  refine ⟨by omega, ?_⟩
  rw [Nat.mul_comm, Nat.mul_add_mod, Nat.mod_eq_of_lt hf']
  exact hf

/-- Two words that agree on their low bits have the same low fields. -/
theorem extractLow_eq {w w' : Word} {n k : Nat} (hk : n ≤ k) (h : w.toNat % 2 ^ k = w'.toNat % 2 ^ k) :
    w.extractLsb' 0 n = w'.extractLsb' 0 n := by
  apply BitVec.eq_of_toNat_eq
  simp only [BitVec.extractLsb'_toNat, Nat.shiftRight_zero]
  rw [← Nat.mod_mod_of_dvd w.toNat (Nat.pow_dvd_pow 2 hk), h, Nat.mod_mod_of_dvd _ (Nat.pow_dvd_pow 2 hk)]

/-- A command takes its own beats and leaves the others. -/
theorem length_of_decode {bs rest : List Word} {i : Instr} (h : decode bs = .command i rest) :
    bs.length = i.beats + rest.length := by
  match bs with
  | [] => cases h
  | w :: bs =>
    simp only [decode] at h
    generalize opcodeOf w = op at h
    cases op <;> simp only at h
    case noteOn | noteOff | allNotesOff | cfgWrite =>
      match bs, h with
      | [], h => simp [decodeA] at h
      | a :: r, h =>
        simp only [decodeA, Decoded.command.injEq] at h
        obtain ⟨rfl, rfl⟩ := h
        simp [Instr.beats, Instr.opcode, Opcode.operandBeats]
        omega
    case update =>
      match bs, h with
      | [], h => simp [decodeAB] at h
      | [_], h => simp [decodeAB] at h
      | a :: b :: r, h =>
        simp only [decodeAB, Decoded.command.injEq] at h
        obtain ⟨rfl, rfl⟩ := h
        simp [Instr.beats, Instr.opcode, Opcode.operandBeats]
        omega
    all_goals
      simp only [Decoded.command.injEq] at h
      obtain ⟨rfl, rfl⟩ := h
      simp [Instr.beats, Instr.opcode, Opcode.operandBeats, Nat.add_comm]

end Sys2Proof
end

