-- ==== Sys2Proof/Laws/Memory.lean ====
section
/-! SUPPORT. Laws/Memory.lean: what the buffer operations do: read after a block write, and the canonical
form kept. -/

namespace Sys2Proof.Machine

theorem Cells.risingFrom_mono {lo lo' : Nat} (h : lo' ≤ lo) :
    ∀ {m : Cells}, Cells.risingFrom lo m = true → Cells.risingFrom lo' m = true
  | [], _ => rfl
  | (i, _) :: _, hm => by
    simp only [Cells.risingFrom, Bool.and_eq_true, decide_eq_true_eq] at hm ⊢
    exact ⟨by omega, hm.2⟩

theorem Cells.risingFrom_filter (p : Nat × Word → Bool) :
    ∀ {m : Cells} {lo : Nat}, Cells.risingFrom lo m = true → Cells.risingFrom lo (m.filter p) = true
  | [], _, _ => rfl
  | (i, w) :: rest, lo, hm => by
    simp only [Cells.risingFrom, Bool.and_eq_true, decide_eq_true_eq] at hm
    have ih := Cells.risingFrom_filter p hm.2
    by_cases hp : p (i, w) = true
    · simp [hp, Cells.risingFrom, hm.1, ih]
    · simp only [List.filter_cons, hp]
      exact Cells.risingFrom_mono (by omega) ih

/-- In a rising buffer every index is at least the bound. -/
theorem Cells.le_of_mem_rising : ∀ {m : Cells} {lo : Nat}, Cells.risingFrom lo m = true →
    ∀ c ∈ m, lo ≤ c.1
  | [], _, _, _, h => by simp at h
  | (i, _) :: rest, lo, hm, c, hc => by
    simp only [Cells.risingFrom, Bool.and_eq_true, decide_eq_true_eq] at hm
    rcases List.mem_cons.mp hc with rfl | hc
    · exact hm.1
    · have := Cells.le_of_mem_rising hm.2 c hc
      omega

theorem Cells.find_eq_none_of_lt {m : Cells} {lo i : Nat} (hm : Cells.risingFrom lo m = true) (h : i < lo) :
    m.find i = none := by
  induction m generalizing lo with
  | nil => rfl
  | cons c rest ih =>
    obtain ⟨j, w⟩ := c
    simp only [Cells.risingFrom, Bool.and_eq_true, decide_eq_true_eq] at hm
    have hne : (i == j) = false := by simp; omega
    simpa [Cells.find, List.lookup_cons, hne] using ih hm.2 (by omega)

theorem blockCells_rising : ∀ (ws : List Word) (i : Nat), Cells.risingFrom i (blockCells i ws) = true
  | [], _ => rfl
  | _ :: ws, i => by simp [blockCells, Cells.risingFrom, blockCells_rising ws (i + 1)]

theorem mem_blockCells {c : Nat × Word} : ∀ {ws : List Word} {i : Nat}, c ∈ blockCells i ws →
    i ≤ c.1 ∧ c.1 < i + ws.length
  | [], _, h => by simp [blockCells] at h
  | w :: ws, i, h => by
    rcases List.mem_cons.mp h with rfl | h
    · simp
    · have := mem_blockCells h
      simp only [List.length_cons]
      omega

/-- Rising pieces, the second from the end of the first. -/
theorem Cells.risingFrom_append {a b : Cells} {lo mid : Nat} (ha : Cells.risingFrom lo a = true)
    (hlt : ∀ c ∈ a, c.1 < mid) (hle : lo ≤ mid) (hb : Cells.risingFrom mid b = true) :
    Cells.risingFrom lo (a ++ b) = true := by
  induction a generalizing lo with
  | nil => exact Cells.risingFrom_mono hle hb
  | cons c rest ih =>
    obtain ⟨i, w⟩ := c
    simp only [Cells.risingFrom, Bool.and_eq_true, decide_eq_true_eq, List.cons_append] at ha ⊢
    have hi : i < mid := hlt (i, w) (by simp)
    exact ⟨ha.1, ih ha.2 (fun c hc => hlt c (by simp [hc])) (by omega)⟩

theorem Cells.filter_ge_rising {m : Cells} (n : Nat) (hm : Cells.risingFrom 0 m = true) :
    Cells.risingFrom n (m.filter (fun c => decide (n ≤ c.1))) = true := by
  have gen : ∀ (m : Cells) (lo : Nat), Cells.risingFrom lo m = true →
      Cells.risingFrom (max n lo) (m.filter (fun c => decide (n ≤ c.1))) = true := by
    intro m
    induction m with
    | nil => intros; rfl
    | cons c rest ih =>
      intro lo h
      obtain ⟨i, w⟩ := c
      simp only [Cells.risingFrom, Bool.and_eq_true, decide_eq_true_eq] at h
      have := ih (i + 1) h.2
      by_cases hi : n ≤ i
      · simp only [List.filter_cons, hi, decide_true, if_true, Cells.risingFrom, Bool.and_eq_true,
          decide_eq_true_eq]
        exact ⟨by omega, Cells.risingFrom_mono (by omega) this⟩
      · simp only [List.filter_cons, hi, decide_false, Bool.false_eq_true, if_false]
        exact Cells.risingFrom_mono (by omega) this
  simpa using gen m 0 hm

/-- A block write keeps the indices rising. -/
theorem Cells.storeBlock_rising (ws : List Word) {m : Cells} (hm : Cells.risingFrom 0 m = true) :
    Cells.risingFrom 0 (Cells.storeBlock ws m) = true :=
  Cells.risingFrom_append (blockCells_rising ws 0)
    (fun c hc => by have := mem_blockCells hc; omega) (Nat.zero_le _) (Cells.filter_ge_rising _ hm)

theorem Cells.mem_storeBlock {c : Nat × Word} {ws : List Word} {m : Cells} (h : c ∈ Cells.storeBlock ws m) :
    c.1 < ws.length ∨ c ∈ m := by
  rcases List.mem_append.mp h with h | h
  · exact .inl (by have := mem_blockCells h; omega)
  · exact .inr (List.mem_filter.mp h).1

theorem find_blockCells : ∀ (ws : List Word) (i j : Nat),
    Cells.find (blockCells i ws) j = if i ≤ j then ws[j - i]? else none
  | [], i, j => by simp [blockCells, Cells.find]
  | w :: ws, i, j => by
    have ih := find_blockCells ws (i + 1) j
    simp only [Cells.find, blockCells, List.lookup_cons] at ih ⊢
    by_cases hj : j = i
    · subst hj; simp
    · have hne : (j == i) = false := by simpa using hj
      simp only [hne, ih]
      by_cases hle : i ≤ j
      · have h1 : i + 1 ≤ j := by omega
        have h2 : j - i = (j - (i + 1)) + 1 := by omega
        simp [hle, h1, h2]
      · have h1 : ¬ i + 1 ≤ j := by omega
        simp [hle, h1]

theorem Cells.find_append (a b : Cells) (i : Nat) : (a ++ b).find i = (a.find i).or (b.find i) := by
  induction a with
  | nil => simp [Cells.find]
  | cons c rest ih =>
    obtain ⟨j, w⟩ := c
    simp only [Cells.find, List.cons_append, List.lookup_cons] at ih ⊢
    cases h : (i == j) <;> simp [ih]

theorem Cells.find_filter_key (p : Nat → Bool) (m : Cells) (i : Nat) :
    Cells.find (m.filter (fun c => p c.1)) i = if p i then m.find i else none := by
  induction m with
  | nil => simp [Cells.find]
  | cons c rest ih =>
    obtain ⟨j, w⟩ := c
    simp only [Cells.find] at ih
    by_cases hij : i = j
    · subst hij
      by_cases hp : p i = true
      · simp [Cells.find, hp]
      · simp [Cells.find, hp, ih]
    · have hne : (i == j) = false := by simpa using hij
      by_cases hp : p j = true <;> simp [Cells.find, hp, List.lookup_cons, hne, ih]

/-- Read after a block write. -/
theorem Cells.find_storeBlock (ws : List Word) (m : Cells) (i : Nat) :
    (Cells.storeBlock ws m).find i = if i < ws.length then ws[i]? else m.find i := by
  rw [Cells.storeBlock, Cells.find_append, find_blockCells,
    Cells.find_filter_key (fun k => decide (ws.length ≤ k))]
  by_cases h : i < ws.length
  · simp [h]
  · have h' : ws.length ≤ i := by omega
    simp [h, h']

theorem Cells.getD_find_filter_ne {m : Cells} (z : Word) {lo : Nat} (hm : Cells.risingFrom lo m = true)
    (i : Nat) : (Cells.find (m.filter (fun c => decide (c.2 ≠ z))) i).getD z = (m.find i).getD z := by
  induction m generalizing lo with
  | nil => rfl
  | cons c rest ih =>
    obtain ⟨j, w⟩ := c
    simp only [Cells.risingFrom, Bool.and_eq_true, decide_eq_true_eq] at hm
    have ih := ih hm.2
    simp only [Cells.find] at ih
    by_cases hij : i = j
    · subst hij
      by_cases hw : w = z
      · subst hw
        have hn := Cells.find_eq_none_of_lt hm.2 (Nat.lt_succ_self i)
        simp only [Cells.find] at hn
        simp only [hn, Option.getD_none] at ih
        simpa [Cells.find] using ih
      · simp [Cells.find, hw]
    · have hne : (i == j) = false := by simpa using hij
      by_cases hw : w = z <;> simpa [Cells.find, hw, List.lookup_cons, hne] using ih

theorem Memory.wf_iff (m : Cells) :
    Memory.wf m = true ↔ Cells.risingFrom 0 m = true ∧ ∀ c ∈ m, c.2 ≠ F64.zero := by
  simp [Memory.wf]

/-- A block write to OUT keeps the canonical form. -/
theorem outStore_wf (ws : List Word) {m : Cells} (hm : Memory.wf m = true) : Memory.wf (outStore ws m) = true := by
  rw [Memory.wf_iff] at hm ⊢
  refine ⟨Cells.risingFrom_filter _ (Cells.storeBlock_rising ws hm.1), fun c hc => ?_⟩
  simpa using (List.mem_filter.mp hc).2

/-- OUT after a block write: the words written, and every other word as before. -/
theorem outCell_outStore (ws : List Word) {m : Cells} (hm : Memory.wf m = true) (i : Nat) :
    outCell (outStore ws m) i = if i < ws.length then ws.getD i F64.zero else outCell m i := by
  have hr := ((Memory.wf_iff m).mp hm).1
  rw [outCell, outStore, Cells.getD_find_filter_ne _ (Cells.storeBlock_rising ws hr), Cells.find_storeBlock]
  by_cases h : i < ws.length <;> simp [h, outCell]

theorem mem_outStore {c : Nat × Word} {ws : List Word} {m : Cells} (h : c ∈ outStore ws m) :
    c.1 < ws.length ∨ c ∈ m := Cells.mem_storeBlock (List.mem_filter.mp h).1

end Sys2Proof.Machine
end

