-- ==== Sys2Proof/Laws/State.lean ====
section
/-! SUPPORT. Laws/State.lean: each field after each update of the state, so that no proof unfolds a record. -/

namespace Sys2Proof.Machine

namespace State

variable (s : State)

@[simp] theorem setCfg_params (c : GlobalCfg) : (s.setCfg c).params = s.params := rfl
@[simp] theorem setCfg_cfg (c : GlobalCfg) : (s.setCfg c).cfg = c := rfl
@[simp] theorem setCfg_slots (c : GlobalCfg) : (s.setCfg c).slots = s.slots := rfl
@[simp] theorem setCfg_voices (c : GlobalCfg) : (s.setCfg c).voices = s.voices := rfl
@[simp] theorem setCfg_status (c : GlobalCfg) : (s.setCfg c).status = s.status := rfl
@[simp] theorem setCfg_out (c : GlobalCfg) : (s.setCfg c).out = s.out := rfl
@[simp] theorem setCfg_oscBuf (c : GlobalCfg) : (s.setCfg c).oscBuf = s.oscBuf := rfl
@[simp] theorem setCfg_noteBuf (c : GlobalCfg) : (s.setCfg c).noteBuf = s.noteBuf := rfl
@[simp] theorem setCfg_resets (c : GlobalCfg) : (s.setCfg c).resets = s.resets := rfl
@[simp] theorem setCfg_noiseDraws (c : GlobalCfg) : (s.setCfg c).noiseDraws = s.noiseDraws := rfl
@[simp] theorem setCfg_position (c : GlobalCfg) : (s.setCfg c).position = s.position := rfl
@[simp] theorem setCfg_inbox (c : GlobalCfg) : (s.setCfg c).inbox = s.inbox := rfl
@[simp] theorem setCfg_responses (c : GlobalCfg) : (s.setCfg c).responses = s.responses := rfl
@[simp] theorem setCfg_faultLog (c : GlobalCfg) : (s.setCfg c).faultLog = s.faultLog := rfl

@[simp] theorem setSlots_params (xs : List SlotCfg) : (s.setSlots xs).params = s.params := rfl
@[simp] theorem setSlots_cfg (xs : List SlotCfg) : (s.setSlots xs).cfg = s.cfg := rfl
@[simp] theorem setSlots_slots (xs : List SlotCfg) : (s.setSlots xs).slots = xs := rfl
@[simp] theorem setSlots_voices (xs : List SlotCfg) : (s.setSlots xs).voices = s.voices := rfl
@[simp] theorem setSlots_status (xs : List SlotCfg) : (s.setSlots xs).status = s.status := rfl
@[simp] theorem setSlots_out (xs : List SlotCfg) : (s.setSlots xs).out = s.out := rfl
@[simp] theorem setSlots_oscBuf (xs : List SlotCfg) : (s.setSlots xs).oscBuf = s.oscBuf := rfl
@[simp] theorem setSlots_noteBuf (xs : List SlotCfg) : (s.setSlots xs).noteBuf = s.noteBuf := rfl
@[simp] theorem setSlots_resets (xs : List SlotCfg) : (s.setSlots xs).resets = s.resets := rfl
@[simp] theorem setSlots_noiseDraws (xs : List SlotCfg) : (s.setSlots xs).noiseDraws = s.noiseDraws := rfl
@[simp] theorem setSlots_position (xs : List SlotCfg) : (s.setSlots xs).position = s.position := rfl
@[simp] theorem setSlots_inbox (xs : List SlotCfg) : (s.setSlots xs).inbox = s.inbox := rfl
@[simp] theorem setSlots_responses (xs : List SlotCfg) : (s.setSlots xs).responses = s.responses := rfl
@[simp] theorem setSlots_faultLog (xs : List SlotCfg) : (s.setSlots xs).faultLog = s.faultLog := rfl

@[simp] theorem setVoices_params (vs : List Voice) : (s.setVoices vs).params = s.params := rfl
@[simp] theorem setVoices_cfg (vs : List Voice) : (s.setVoices vs).cfg = s.cfg := rfl
@[simp] theorem setVoices_slots (vs : List Voice) : (s.setVoices vs).slots = s.slots := rfl
@[simp] theorem setVoices_voices (vs : List Voice) : (s.setVoices vs).voices = vs := rfl
@[simp] theorem setVoices_status (vs : List Voice) : (s.setVoices vs).status = s.status := rfl
@[simp] theorem setVoices_out (vs : List Voice) : (s.setVoices vs).out = s.out := rfl
@[simp] theorem setVoices_oscBuf (vs : List Voice) : (s.setVoices vs).oscBuf = s.oscBuf := rfl
@[simp] theorem setVoices_noteBuf (vs : List Voice) : (s.setVoices vs).noteBuf = s.noteBuf := rfl
@[simp] theorem setVoices_resets (vs : List Voice) : (s.setVoices vs).resets = s.resets := rfl
@[simp] theorem setVoices_noiseDraws (vs : List Voice) : (s.setVoices vs).noiseDraws = s.noiseDraws := rfl
@[simp] theorem setVoices_position (vs : List Voice) : (s.setVoices vs).position = s.position := rfl
@[simp] theorem setVoices_inbox (vs : List Voice) : (s.setVoices vs).inbox = s.inbox := rfl
@[simp] theorem setVoices_responses (vs : List Voice) : (s.setVoices vs).responses = s.responses := rfl
@[simp] theorem setVoices_faultLog (vs : List Voice) : (s.setVoices vs).faultLog = s.faultLog := rfl

@[simp] theorem setStatus_params (st : Status) : (s.setStatus st).params = s.params := rfl
@[simp] theorem setStatus_cfg (st : Status) : (s.setStatus st).cfg = s.cfg := rfl
@[simp] theorem setStatus_slots (st : Status) : (s.setStatus st).slots = s.slots := rfl
@[simp] theorem setStatus_voices (st : Status) : (s.setStatus st).voices = s.voices := rfl
@[simp] theorem setStatus_status (st : Status) : (s.setStatus st).status = st := rfl
@[simp] theorem setStatus_out (st : Status) : (s.setStatus st).out = s.out := rfl
@[simp] theorem setStatus_oscBuf (st : Status) : (s.setStatus st).oscBuf = s.oscBuf := rfl
@[simp] theorem setStatus_noteBuf (st : Status) : (s.setStatus st).noteBuf = s.noteBuf := rfl
@[simp] theorem setStatus_resets (st : Status) : (s.setStatus st).resets = s.resets := rfl
@[simp] theorem setStatus_noiseDraws (st : Status) : (s.setStatus st).noiseDraws = s.noiseDraws := rfl
@[simp] theorem setStatus_position (st : Status) : (s.setStatus st).position = s.position := rfl
@[simp] theorem setStatus_inbox (st : Status) : (s.setStatus st).inbox = s.inbox := rfl
@[simp] theorem setStatus_responses (st : Status) : (s.setStatus st).responses = s.responses := rfl
@[simp] theorem setStatus_faultLog (st : Status) : (s.setStatus st).faultLog = s.faultLog := rfl

@[simp] theorem setOut_params (m : Cells) : (s.setOut m).params = s.params := rfl
@[simp] theorem setOut_cfg (m : Cells) : (s.setOut m).cfg = s.cfg := rfl
@[simp] theorem setOut_slots (m : Cells) : (s.setOut m).slots = s.slots := rfl
@[simp] theorem setOut_voices (m : Cells) : (s.setOut m).voices = s.voices := rfl
@[simp] theorem setOut_status (m : Cells) : (s.setOut m).status = s.status := rfl
@[simp] theorem setOut_out (m : Cells) : (s.setOut m).out = m := rfl
@[simp] theorem setOut_oscBuf (m : Cells) : (s.setOut m).oscBuf = s.oscBuf := rfl
@[simp] theorem setOut_noteBuf (m : Cells) : (s.setOut m).noteBuf = s.noteBuf := rfl
@[simp] theorem setOut_resets (m : Cells) : (s.setOut m).resets = s.resets := rfl
@[simp] theorem setOut_noiseDraws (m : Cells) : (s.setOut m).noiseDraws = s.noiseDraws := rfl
@[simp] theorem setOut_position (m : Cells) : (s.setOut m).position = s.position := rfl
@[simp] theorem setOut_inbox (m : Cells) : (s.setOut m).inbox = s.inbox := rfl
@[simp] theorem setOut_responses (m : Cells) : (s.setOut m).responses = s.responses := rfl
@[simp] theorem setOut_faultLog (m : Cells) : (s.setOut m).faultLog = s.faultLog := rfl

@[simp] theorem setNoiseDraws_params (n : Nat) : (s.setNoiseDraws n).params = s.params := rfl
@[simp] theorem setNoiseDraws_cfg (n : Nat) : (s.setNoiseDraws n).cfg = s.cfg := rfl
@[simp] theorem setNoiseDraws_slots (n : Nat) : (s.setNoiseDraws n).slots = s.slots := rfl
@[simp] theorem setNoiseDraws_voices (n : Nat) : (s.setNoiseDraws n).voices = s.voices := rfl
@[simp] theorem setNoiseDraws_status (n : Nat) : (s.setNoiseDraws n).status = s.status := rfl
@[simp] theorem setNoiseDraws_out (n : Nat) : (s.setNoiseDraws n).out = s.out := rfl
@[simp] theorem setNoiseDraws_oscBuf (n : Nat) : (s.setNoiseDraws n).oscBuf = s.oscBuf := rfl
@[simp] theorem setNoiseDraws_noteBuf (n : Nat) : (s.setNoiseDraws n).noteBuf = s.noteBuf := rfl
@[simp] theorem setNoiseDraws_resets (n : Nat) : (s.setNoiseDraws n).resets = s.resets := rfl
@[simp] theorem setNoiseDraws_noiseDraws (n : Nat) : (s.setNoiseDraws n).noiseDraws = n := rfl
@[simp] theorem setNoiseDraws_position (n : Nat) : (s.setNoiseDraws n).position = s.position := rfl
@[simp] theorem setNoiseDraws_inbox (n : Nat) : (s.setNoiseDraws n).inbox = s.inbox := rfl
@[simp] theorem setNoiseDraws_responses (n : Nat) : (s.setNoiseDraws n).responses = s.responses := rfl
@[simp] theorem setNoiseDraws_faultLog (n : Nat) : (s.setNoiseDraws n).faultLog = s.faultLog := rfl

@[simp] theorem logFault_params (c : Cause) : (s.logFault c).params = s.params := rfl
@[simp] theorem logFault_cfg (c : Cause) : (s.logFault c).cfg = s.cfg := rfl
@[simp] theorem logFault_slots (c : Cause) : (s.logFault c).slots = s.slots := rfl
@[simp] theorem logFault_voices (c : Cause) : (s.logFault c).voices = s.voices := rfl
@[simp] theorem logFault_status (c : Cause) : (s.logFault c).status = s.status := rfl
@[simp] theorem logFault_out (c : Cause) : (s.logFault c).out = s.out := rfl
@[simp] theorem logFault_oscBuf (c : Cause) : (s.logFault c).oscBuf = s.oscBuf := rfl
@[simp] theorem logFault_noteBuf (c : Cause) : (s.logFault c).noteBuf = s.noteBuf := rfl
@[simp] theorem logFault_resets (c : Cause) : (s.logFault c).resets = s.resets := rfl
@[simp] theorem logFault_noiseDraws (c : Cause) : (s.logFault c).noiseDraws = s.noiseDraws := rfl
@[simp] theorem logFault_position (c : Cause) : (s.logFault c).position = s.position := rfl
@[simp] theorem logFault_inbox (c : Cause) : (s.logFault c).inbox = s.inbox := rfl
@[simp] theorem logFault_responses (c : Cause) : (s.logFault c).responses = s.responses := rfl
@[simp] theorem logFault_faultLog (c : Cause) : (s.logFault c).faultLog = s.faultLog ++ [c] := rfl

@[simp] theorem respond_params (w : Word) : (s.respond w).params = s.params := rfl
@[simp] theorem respond_cfg (w : Word) : (s.respond w).cfg = s.cfg := rfl
@[simp] theorem respond_slots (w : Word) : (s.respond w).slots = s.slots := rfl
@[simp] theorem respond_voices (w : Word) : (s.respond w).voices = s.voices := rfl
@[simp] theorem respond_status (w : Word) : (s.respond w).status = s.status := rfl
@[simp] theorem respond_out (w : Word) : (s.respond w).out = s.out := rfl
@[simp] theorem respond_oscBuf (w : Word) : (s.respond w).oscBuf = s.oscBuf := rfl
@[simp] theorem respond_noteBuf (w : Word) : (s.respond w).noteBuf = s.noteBuf := rfl
@[simp] theorem respond_resets (w : Word) : (s.respond w).resets = s.resets := rfl
@[simp] theorem respond_noiseDraws (w : Word) : (s.respond w).noiseDraws = s.noiseDraws := rfl
@[simp] theorem respond_position (w : Word) : (s.respond w).position = s.position := rfl
@[simp] theorem respond_inbox (w : Word) : (s.respond w).inbox = s.inbox := rfl
@[simp] theorem respond_responses (w : Word) : (s.respond w).responses = s.responses ++ [w] := rfl
@[simp] theorem respond_faultLog (w : Word) : (s.respond w).faultLog = s.faultLog := rfl

@[simp] theorem take_params (r : List PortInput) : (s.take r).params = s.params := rfl
@[simp] theorem take_cfg (r : List PortInput) : (s.take r).cfg = s.cfg := rfl
@[simp] theorem take_slots (r : List PortInput) : (s.take r).slots = s.slots := rfl
@[simp] theorem take_voices (r : List PortInput) : (s.take r).voices = s.voices := rfl
@[simp] theorem take_status (r : List PortInput) : (s.take r).status = s.status := rfl
@[simp] theorem take_out (r : List PortInput) : (s.take r).out = s.out := rfl
@[simp] theorem take_oscBuf (r : List PortInput) : (s.take r).oscBuf = s.oscBuf := rfl
@[simp] theorem take_noteBuf (r : List PortInput) : (s.take r).noteBuf = s.noteBuf := rfl
@[simp] theorem take_resets (r : List PortInput) : (s.take r).resets = s.resets := rfl
@[simp] theorem take_noiseDraws (r : List PortInput) : (s.take r).noiseDraws = s.noiseDraws := rfl
@[simp] theorem take_position (r : List PortInput) : (s.take r).position = s.position + 1 := rfl
@[simp] theorem take_inbox (r : List PortInput) : (s.take r).inbox = r := rfl
@[simp] theorem take_responses (r : List PortInput) : (s.take r).responses = s.responses := rfl
@[simp] theorem take_faultLog (r : List PortInput) : (s.take r).faultLog = s.faultLog := rfl

@[simp] theorem setScratch_params (a b : Cells) : (s.setScratch a b).params = s.params := rfl
@[simp] theorem setScratch_cfg (a b : Cells) : (s.setScratch a b).cfg = s.cfg := rfl
@[simp] theorem setScratch_slots (a b : Cells) : (s.setScratch a b).slots = s.slots := rfl
@[simp] theorem setScratch_voices (a b : Cells) : (s.setScratch a b).voices = s.voices := rfl
@[simp] theorem setScratch_status (a b : Cells) : (s.setScratch a b).status = s.status := rfl
@[simp] theorem setScratch_out (a b : Cells) : (s.setScratch a b).out = s.out := rfl
@[simp] theorem setScratch_oscBuf (a b : Cells) : (s.setScratch a b).oscBuf = a := rfl
@[simp] theorem setScratch_noteBuf (a b : Cells) : (s.setScratch a b).noteBuf = b := rfl
@[simp] theorem setScratch_resets (a b : Cells) : (s.setScratch a b).resets = s.resets := rfl
@[simp] theorem setScratch_noiseDraws (a b : Cells) : (s.setScratch a b).noiseDraws = s.noiseDraws := rfl
@[simp] theorem setScratch_position (a b : Cells) : (s.setScratch a b).position = s.position := rfl
@[simp] theorem setScratch_inbox (a b : Cells) : (s.setScratch a b).inbox = s.inbox := rfl
@[simp] theorem setScratch_responses (a b : Cells) : (s.setScratch a b).responses = s.responses := rfl
@[simp] theorem setScratch_faultLog (a b : Cells) : (s.setScratch a b).faultLog = s.faultLog := rfl

@[simp] theorem offer_params (bs : List Word) : (s.offer bs).params = s.params := rfl
@[simp] theorem offer_cfg (bs : List Word) : (s.offer bs).cfg = s.cfg := rfl
@[simp] theorem offer_slots (bs : List Word) : (s.offer bs).slots = s.slots := rfl
@[simp] theorem offer_voices (bs : List Word) : (s.offer bs).voices = s.voices := rfl
@[simp] theorem offer_status (bs : List Word) : (s.offer bs).status = s.status := rfl
@[simp] theorem offer_out (bs : List Word) : (s.offer bs).out = s.out := rfl
@[simp] theorem offer_oscBuf (bs : List Word) : (s.offer bs).oscBuf = s.oscBuf := rfl
@[simp] theorem offer_noteBuf (bs : List Word) : (s.offer bs).noteBuf = s.noteBuf := rfl
@[simp] theorem offer_resets (bs : List Word) : (s.offer bs).resets = s.resets := rfl
@[simp] theorem offer_noiseDraws (bs : List Word) : (s.offer bs).noiseDraws = s.noiseDraws := rfl
@[simp] theorem offer_position (bs : List Word) : (s.offer bs).position = s.position := rfl
@[simp] theorem offer_inbox (bs : List Word) : (s.offer bs).inbox = s.inbox ++ bs.map .beat := rfl
@[simp] theorem offer_responses (bs : List Word) : (s.offer bs).responses = s.responses := rfl
@[simp] theorem offer_faultLog (bs : List Word) : (s.offer bs).faultLog = s.faultLog := rfl

@[simp] theorem offerFirst_params (bs : List Word) : (s.offerFirst bs).params = s.params := rfl
@[simp] theorem offerFirst_cfg (bs : List Word) : (s.offerFirst bs).cfg = s.cfg := rfl
@[simp] theorem offerFirst_slots (bs : List Word) : (s.offerFirst bs).slots = s.slots := rfl
@[simp] theorem offerFirst_voices (bs : List Word) : (s.offerFirst bs).voices = s.voices := rfl
@[simp] theorem offerFirst_status (bs : List Word) : (s.offerFirst bs).status = s.status := rfl
@[simp] theorem offerFirst_out (bs : List Word) : (s.offerFirst bs).out = s.out := rfl
@[simp] theorem offerFirst_oscBuf (bs : List Word) : (s.offerFirst bs).oscBuf = s.oscBuf := rfl
@[simp] theorem offerFirst_noteBuf (bs : List Word) : (s.offerFirst bs).noteBuf = s.noteBuf := rfl
@[simp] theorem offerFirst_resets (bs : List Word) : (s.offerFirst bs).resets = s.resets := rfl
@[simp] theorem offerFirst_noiseDraws (bs : List Word) : (s.offerFirst bs).noiseDraws = s.noiseDraws := rfl
@[simp] theorem offerFirst_position (bs : List Word) : (s.offerFirst bs).position = s.position := rfl
@[simp] theorem offerFirst_inbox (bs : List Word) : (s.offerFirst bs).inbox =
    bs.map .beat ++ s.inbox.dropWhile (fun x => decide (x = .rstDuring)) := rfl
@[simp] theorem offerFirst_responses (bs : List Word) : (s.offerFirst bs).responses = s.responses := rfl
@[simp] theorem offerFirst_faultLog (bs : List Word) : (s.offerFirst bs).faultLog = s.faultLog := rfl

end State

section
variable (s : State)

@[simp] theorem resetEngine_params : (resetEngine s).params = s.params := rfl
@[simp] theorem resetEngine_cfg : (resetEngine s).cfg = GlobalCfg.reset s.params := rfl
@[simp] theorem resetEngine_slots : (resetEngine s).slots = List.replicate s.params.oscSlots (SlotCfg.reset s.params) := rfl
@[simp] theorem resetEngine_voices : (resetEngine s).voices = [] := rfl
@[simp] theorem resetEngine_status : (resetEngine s).status = Status.reset := rfl
@[simp] theorem resetEngine_out : (resetEngine s).out = [] := rfl
@[simp] theorem resetEngine_oscBuf : (resetEngine s).oscBuf = [] := rfl
@[simp] theorem resetEngine_noteBuf : (resetEngine s).noteBuf = [] := rfl
@[simp] theorem resetEngine_resets : (resetEngine s).resets = s.resets + 1 := rfl
@[simp] theorem resetEngine_noiseDraws : (resetEngine s).noiseDraws = noiseDrawsAfterReset s.params.noise s.noiseDraws := rfl
@[simp] theorem resetEngine_position : (resetEngine s).position = s.position := rfl
@[simp] theorem resetEngine_inbox : (resetEngine s).inbox = s.inbox := rfl
@[simp] theorem resetEngine_responses : (resetEngine s).responses = s.responses := rfl
@[simp] theorem resetEngine_faultLog : (resetEngine s).faultLog = s.faultLog := rfl

@[simp] theorem resetByPin_params (r : List PortInput) : (resetByPin r s).params = s.params := rfl
@[simp] theorem resetByPin_cfg (r : List PortInput) : (resetByPin r s).cfg = GlobalCfg.reset s.params := rfl
@[simp] theorem resetByPin_slots (r : List PortInput) : (resetByPin r s).slots = List.replicate s.params.oscSlots (SlotCfg.reset s.params) := rfl
@[simp] theorem resetByPin_voices (r : List PortInput) : (resetByPin r s).voices = [] := rfl
@[simp] theorem resetByPin_status (r : List PortInput) : (resetByPin r s).status = Status.reset := rfl
@[simp] theorem resetByPin_out (r : List PortInput) : (resetByPin r s).out = [] := rfl
@[simp] theorem resetByPin_oscBuf (r : List PortInput) : (resetByPin r s).oscBuf = [] := rfl
@[simp] theorem resetByPin_noteBuf (r : List PortInput) : (resetByPin r s).noteBuf = [] := rfl
@[simp] theorem resetByPin_resets (r : List PortInput) : (resetByPin r s).resets = s.resets + 1 := rfl
@[simp] theorem resetByPin_noiseDraws (r : List PortInput) : (resetByPin r s).noiseDraws = noiseDrawsAfterReset s.params.noise s.noiseDraws := rfl
@[simp] theorem resetByPin_position (r : List PortInput) : (resetByPin r s).position = s.position := rfl
@[simp] theorem resetByPin_inbox (r : List PortInput) : (resetByPin r s).inbox = r := rfl
@[simp] theorem resetByPin_responses (r : List PortInput) : (resetByPin r s).responses = s.responses := rfl
@[simp] theorem resetByPin_faultLog (r : List PortInput) : (resetByPin r s).faultLog = s.faultLog := rfl

@[simp] theorem storeBlock_params (m : MixAcc) : (storeBlock m s).params = s.params := rfl
@[simp] theorem storeBlock_cfg (m : MixAcc) : (storeBlock m s).cfg = s.cfg := rfl
@[simp] theorem storeBlock_slots (m : MixAcc) : (storeBlock m s).slots = s.slots := rfl
@[simp] theorem storeBlock_voices (m : MixAcc) : (storeBlock m s).voices = m.kept := rfl
@[simp] theorem storeBlock_status (m : MixAcc) : (storeBlock m s).status = s.status := rfl
@[simp] theorem storeBlock_out (m : MixAcc) : (storeBlock m s).out = outStore (m.out.map Fp.toWord) s.out := rfl
@[simp] theorem storeBlock_oscBuf (m : MixAcc) : (storeBlock m s).oscBuf = Cells.storeBlock (m.osc.map Fp.toWord) s.oscBuf := rfl
@[simp] theorem storeBlock_noteBuf (m : MixAcc) : (storeBlock m s).noteBuf = Cells.storeBlock (m.note.map Fp.toWord) s.noteBuf := rfl
@[simp] theorem storeBlock_resets (m : MixAcc) : (storeBlock m s).resets = s.resets := rfl
@[simp] theorem storeBlock_noiseDraws (m : MixAcc) : (storeBlock m s).noiseDraws = m.draws := rfl
@[simp] theorem storeBlock_position (m : MixAcc) : (storeBlock m s).position = s.position := rfl
@[simp] theorem storeBlock_inbox (m : MixAcc) : (storeBlock m s).inbox = s.inbox := rfl
@[simp] theorem storeBlock_responses (m : MixAcc) : (storeBlock m s).responses = s.responses := rfl
@[simp] theorem storeBlock_faultLog (m : MixAcc) : (storeBlock m s).faultLog = s.faultLog := rfl

end

end Sys2Proof.Machine
end

