-- ==== Sys2Proof/Laws/Ops.lean ====
section
/-! SUPPORT. Laws/Ops.lean: everything the shared operations can do: the voice list, STATUS, taking
ConfigError, and a register write. -/

namespace Sys2Proof.Machine

/-! ## Voices -/

theorem findVoice_eq_none {key : Key} {vs : List Voice} (h : ∀ v ∈ vs, v.key ≠ key) :
    findVoice key vs = none := by
  simpa [findVoice] using h

theorem key_of_findVoice {key : Key} {vs : List Voice} {v : Voice} (h : findVoice key vs = some v) :
    v ∈ vs ∧ v.key = key :=
  ⟨List.mem_of_find?_eq_some h, by simpa using List.find?_some h⟩

/-- A key in the list is found. -/
theorem exists_findVoice {key : Key} {vs : List Voice} (h : ∃ v ∈ vs, v.key = key) :
    ∃ v, findVoice key vs = some v := by
  have hs : (findVoice key vs).isSome = true := by
    obtain ⟨v, hv, hk⟩ := h
    exact List.find?_isSome.mpr ⟨v, hv, by simpa using hk⟩
  exact Option.isSome_iff_exists.mp hs

@[simp] theorem modifyVoice_length (key : Key) (f : Voice → Voice) (vs : List Voice) :
    (modifyVoice key f vs).length = vs.length := by simp [modifyVoice]

/-- A change in place that keeps keys keeps the list of keys. -/
theorem modifyVoice_keys (key : Key) {f : Voice → Voice} (hf : ∀ v, (f v).key = v.key) (vs : List Voice) :
    (modifyVoice key f vs).map Voice.key = vs.map Voice.key := by
  simp only [modifyVoice, List.map_map]
  refine List.map_congr_left fun v _ => ?_
  simp only [Function.comp]
  split
  · exact hf v
  · rfl

theorem modifyVoice_of_absent {key : Key} (f : Voice → Voice) {vs : List Voice} (h : ∀ v ∈ vs, v.key ≠ key) :
    modifyVoice key f vs = vs := by
  have := List.map_congr_left (f := fun v => if v.key = key then f v else v) (g := id) (l := vs)
    (fun v hv => by simp [h v hv])
  simpa [modifyVoice] using this

/-- With distinct keys, changing the voice of a key changes that entry alone and in place. -/
theorem modifyVoice_of_mem {key : Key} (f : Voice → Voice) {before after : List Voice} {v : Voice}
    (hd : ((before ++ v :: after).map Voice.key).Nodup) (hk : v.key = key) :
    modifyVoice key f (before ++ v :: after) = before ++ f v :: after := by
  simp only [List.map_append, List.map_cons, List.nodup_append, List.nodup_cons, List.mem_map] at hd
  obtain ⟨-, ⟨ha, -⟩, hb⟩ := hd
  have h1 := modifyVoice_of_absent f (key := key) (vs := before)
    (fun u hu he => hb u.key ⟨u, hu, rfl⟩ v.key (List.mem_cons_self ..) (he.trans hk.symm))
  have h2 := modifyVoice_of_absent f (key := key) (vs := after)
    (fun u hu he => ha ⟨u, hu, he.trans hk.symm⟩)
  simp only [modifyVoice, List.map_append, List.map_cons, hk, if_true] at h1 h2 ⊢
  rw [h1, h2]

theorem mem_modifyVoice {key : Key} {f : Voice → Voice} {vs : List Voice} {u : Voice}
    (h : u ∈ modifyVoice key f vs) : ∃ v ∈ vs, u = v ∨ u = f v := by
  obtain ⟨v, hv, rfl⟩ := List.mem_map.mp h
  refine ⟨v, hv, ?_⟩
  split
  · exact .inr rfl
  · exact .inl rfl

/-! ## STATUS and ConfigError -/

@[simp] theorem recordError_err (c : Cause) (k : BitVec 4) (st : Status) : (recordError c k st).err = true := by
  unfold recordError; split <;> simp_all

@[simp] theorem recordError_voiceOvf (c : Cause) (k : BitVec 4) (st : Status) :
    (recordError c k st).voiceOvf = st.voiceOvf := by
  unfold recordError; split <;> rfl

/-- The first cause since the last clear is kept. -/
theorem recordError_of_err (c : Cause) (k : BitVec 4) {st : Status} (h : st.err = true) :
    recordError c k st = st := by simp [recordError, h]

theorem recordError_of_clear (c : Cause) (k : BitVec 4) {st : Status} (h : st.err = false) :
    recordError c k st = { st with err := true, cause := c.code, errSlot := k } := by simp [recordError, h]

/-- Taking ConfigError: OUT's block, STATUS and the fault log, and nothing else. -/
theorem raiseConfigError_eq (c : Cause) (k : BitVec 4) (n : Nat) (s : State) :
    raiseConfigError c k n s =
      { s with out := if c = .badBlockLen then s.out else outStore (zeroBlock n) s.out
               status := recordError c k s.status
               faultLog := s.faultLog ++ [c] } := by
  unfold raiseConfigError
  split <;> rfl

theorem outCell_zeroBlock {m : Cells} (hm : Memory.wf m = true) (n i : Nat) :
    outCell (outStore (zeroBlock n) m) i = if i < n then F64.zero else outCell m i := by
  rw [outCell_outStore _ hm]
  by_cases h : i < n <;> simp [zeroBlock, h]

/-! ## Register writes -/

/-- A register write touches the configuration and the slots only. -/
theorem regWrite_eq (s : State) (a : BitVec 12) (w : Word) :
    regWrite s a w = { s with cfg := (regWrite s a w).cfg, slots := (regWrite s a w).slots } := by
  unfold regWrite
  split <;> rfl

@[simp] theorem regWrite_slots_length (s : State) (a : BitVec 12) (w : Word) :
    (regWrite s a w).slots.length = s.slots.length := by
  unfold regWrite
  split <;> simp

@[simp] theorem setGlobal_oscCount (f : GlobalField) (w : F64) (c : GlobalCfg) :
    (setGlobal f w c).oscCount = c.oscCount := by cases f <;> rfl

theorem writeOscCount_le {p : Params} {w : Word} {c : GlobalCfg} (h : c.oscCount.toNat ≤ p.oscSlots) :
    (writeOscCount p w c).oscCount.toNat ≤ p.oscSlots := by
  unfold writeOscCount; split
  · assumption
  · exact h

/-- A register write keeps OSC_COUNT ≤ OSC_SLOTS. -/
theorem regWrite_oscCount_le {s : State} (a : BitVec 12) (w : Word) (h : s.oscCount ≤ s.params.oscSlots) :
    (regWrite s a w).oscCount ≤ s.params.oscSlots := by
  unfold regWrite
  split <;> first
    | exact h
    | exact writeOscCount_le h
    | simpa [State.oscCount] using h

end Sys2Proof.Machine
end

