-- ==== Sys2Proof/Laws/Exec.lean ====
section
/-! SUPPORT. Laws/Exec.lean: everything the commands with more than one course can do. -/

namespace Sys2Proof.Machine

/-- NOTE_ON: retrigger, drop, or a new voice. -/
theorem exec_noteOn_cases (key : Key) (time : F64) (s : State) :
    ((∃ v, findVoice key s.voices = some v) ∧ exec (.noteOn key time) s =
      .next (s.setVoices (modifyVoice key (retrigger s.params.num s.cfg s.activeSlots time) s.voices))) ∨
    (findVoice key s.voices = none ∧ s.params.maxVoices ≤ s.voices.length ∧
      exec (.noteOn key time) s = .next (s.setStatus (recordOverflow s.status))) ∨
    (findVoice key s.voices = none ∧ s.voices.length < s.params.maxVoices ∧
      exec (.noteOn key time) s = .next (s.setVoices (s.voices ++ [freshVoice s.params key time]))) := by
  simp only [exec, execNoteOn]
  cases h : findVoice key s.voices with
  | some v => exact .inl ⟨⟨v, rfl⟩, rfl⟩
  | none =>
    by_cases hl : s.params.maxVoices ≤ s.voices.length
    · exact .inr (.inl ⟨rfl, hl, by simp [hl]⟩)
    · exact .inr (.inr ⟨rfl, by omega, by simp [hl]⟩)

/-- NOTE_OFF: release, or nothing. -/
theorem exec_noteOff_cases (key : Key) (time : F64) (s : State) :
    ((∃ v, findVoice key s.voices = some v) ∧ exec (.noteOff key time) s =
      .next (s.setVoices (modifyVoice key (release s.params.num s.cfg s.activeSlots time) s.voices))) ∨
    (findVoice key s.voices = none ∧ exec (.noteOff key time) s = .next s) := by
  simp only [exec, execNoteOff]
  cases h : findVoice key s.voices with
  | some v => exact .inl ⟨⟨v, rfl⟩, rfl⟩
  | none => exact .inr ⟨rfl, rfl⟩

/-- UPDATE: ConfigError, silence, or a rendered block. -/
theorem exec_update_cases (n : BitVec 16) (time sr : F64) (s : State) :
    (∃ c k, validate s n.toNat sr = some (c, k) ∧
      exec (.update n time sr) s = .next (raiseConfigError c k n.toNat s)) ∨
    (validate s n.toNat sr = none ∧ s.voices = [] ∧
      exec (.update n time sr) s = .next (s.setOut (outStore (zeroBlock n.toNat) s.out))) ∨
    (validate s n.toNat sr = none ∧ s.voices ≠ [] ∧
      exec (.update n time sr) s = .next (storeBlock (renderBlock s n.toNat time sr) s)) := by
  simp only [exec, execUpdate, updateOutcome]
  cases h : validate s n.toNat sr with
  | some ck => exact .inl ⟨ck.1, ck.2, rfl, rfl⟩
  | none =>
    cases hv : s.voices with
    | nil => exact .inr (.inl ⟨rfl, rfl, rfl⟩)
    | cons v vs => exact .inr (.inr ⟨rfl, by simp, rfl⟩)

/-- Checks that pass bound the block length. -/
theorem validate_none_length {s : State} {n : Nat} {sr : F64} (h : validate s n sr = none) :
    1 ≤ n ∧ n ≤ s.params.maxBlock := by
  unfold validate at h
  split at h
  · cases h
  · rename_i hn; exact not_not.mp hn

/-- A cause other than 1 comes with a legal block length. -/
theorem validate_some_length {s : State} {n : Nat} {sr : F64} {c : Cause} {k : BitVec 4}
    (h : validate s n sr = some (c, k)) (hc : c ≠ .badBlockLen) : 1 ≤ n ∧ n ≤ s.params.maxBlock := by
  unfold validate at h
  split at h
  · cases h; exact absurd rfl hc
  · rename_i hn; exact not_not.mp hn

/-- ERR_SLOT of a failing check is 0 but for cause 3, where it is the index of a slot in use. -/
theorem validate_some_slot {s : State} {n : Nat} {sr : F64} {c : Cause} {k : BitVec 4}
    (h : validate s n sr = some (c, k)) :
    k = 0#4 ∨ (c = .badWaveform ∧ ∃ j, k = BitVec.ofNat 4 j ∧ j < s.activeSlots.length) := by
  unfold validate at h
  repeat' split at h
  · cases h; exact .inl rfl
  · cases h; exact .inl rfl
  · cases h
  · unfold validateConfig at h
    split at h
    · rename_i j hj
      cases h
      refine .inr ⟨rfl, _, rfl, ?_⟩
      have := List.findIdx?_eq_some_iff_getElem.mp hj
      exact this.1
    · repeat' split at h
      all_goals cases h <;> exact .inl rfl

/-- Checks that pass with a voice active leave only legal waves in use. -/
theorem validate_none_waves {s : State} {n : Nat} {sr : F64} (h : validate s n sr = none)
    (hv : s.voices ≠ []) : ∀ p ∈ s.activeSlots, p.wave.toNat ≤ 4 := by
  have hv' : s.voices.isEmpty = false := by simpa using hv
  unfold validate at h
  rw [hv'] at h
  repeat' split at h
  · cases h
  · cases h
  · contradiction
  · unfold validateConfig at h
    split at h
    · cases h
    · rename_i hb
      simp only [badWaveSlot, List.findIdx?_eq_none_iff] at hb
      intro p hp
      have := hb p hp
      simp at this
      omega

end Sys2Proof.Machine
end

