-- ==== Sys2Proof/Laws/Fetch.lean ====
section
/-! SUPPORT. Laws/Fetch.lean: what stands at the head of the ports' queue. -/

namespace Sys2Proof.Machine

theorem leadingBeats_map_append (bs : List Word) (q : List PortInput) :
    leadingBeats (bs.map .beat ++ q) = bs ++ leadingBeats q := by
  induction bs with
  | nil => rfl
  | cons b bs ih => simp [leadingBeats, ih]

theorem leadingBeats_map (bs : List Word) : leadingBeats (bs.map .beat) = bs := by
  simpa [leadingBeats] using leadingBeats_map_append bs []

theorem afterRst_map_append (bs : List Word) (q : List PortInput) :
    afterRst (bs.map .beat ++ q) = afterRst q := by
  induction bs with
  | nil => rfl
  | cons b bs ih => simp [afterRst, ih]

theorem afterRst_map (bs : List Word) : afterRst (bs.map .beat) = none := by
  simpa [afterRst] using afterRst_map_append bs []

/-- A command is taken unless `rst` is asserted while it executes. -/
theorem commandOrRst_of_ne {i : Instr} {q : List PortInput} (h : q.head? ≠ some .rstDuring) :
    commandOrRst i q = .command i q := by
  match q, h with
  | [], _ => rfl
  | .beat _ :: _, _ => rfl
  | .rst :: _, _ => rfl
  | .rstDuring :: _, h => exact absurd rfl h

theorem head?_dropWhile_rstDuring (q : List PortInput) :
    (q.dropWhile (fun x => decide (x = .rstDuring))).head? ≠ some .rstDuring := by
  induction q with
  | nil => simp
  | cons x q ih =>
    by_cases h : x = .rstDuring
    · simpa [h] using ih
    · simp [h]

end Sys2Proof.Machine
end

