-- ==== Sys2Proof/Laws/Operands.lean ====
section
/-! SUPPORT. Laws/Operands.lean: the register space: what an address names, and reads after writes. -/

namespace Sys2Proof.Machine

/-! ## Addresses -/

@[simp] theorem decodeReg_globalAddr (p : Params) (f : GlobalField) : decodeReg p f.addr = .global f := by
  cases f <;> rfl

theorem toNat_slotAddr {k o : Nat} (hk : k < 16) (ho : o < 16) : (slotAddr k o).toNat = 0x100 + 0x10 * k + o := by
  simp only [slotAddr, BitVec.toNat_ofNat]
  omega

/-- The registers of a slot the hardware has. -/
theorem decodeReg_slotAddr {p : Params} {k o : Nat} (hp : p.oscSlots ≤ 16) (hk : k < p.oscSlots) (ho : o < 16) :
    decodeReg p (slotAddr k o) = slotReg k o := by
  have h := toNat_slotAddr (k := k) (by omega) ho
  have h1 : (0x100 + 0x10 * k + o) / 16 % 16 = k := by omega
  have h2 : (0x100 + 0x10 * k + o) % 16 = o := by omega
  simp only [decodeReg, h, h1, h2]
  rw [if_neg (by omega), if_pos (by omega), if_pos hk]

theorem SlotField.offset_lt (f : SlotField) : f.offset < 16 := by cases f <;> decide

@[simp] theorem slotReg_offset (k : Nat) (f : SlotField) : slotReg k f.offset = .slotNum k f := by
  cases f <;> rfl

/-- The offset a slot register stands at. -/
def Reg.slotOffset : Reg → Nat
  | .slotNum _ f => f.offset
  | .slotWave _ => 0x0
  | .slotSync _ => 0xB
  | _ => 0

theorem slotReg_inj {k k' o o' : Nat} (ho : o < 16) (ho' : o' < 16) (h : slotReg k o = slotReg k' o')
    (hr : slotReg k o ≠ .reserved) : k = k' ∧ o = o' := by
  have key : ∀ (k o : Nat), o < 16 → slotReg k o ≠ .reserved → (slotReg k o).slotOffset = o := by
    intro k o ho hr
    interval_cases o <;> first | rfl | exact absurd rfl hr
  refine ⟨?_, by rw [← key k o ho hr, h, key k' o' ho' (h ▸ hr)]⟩
  have e : o = o' := by rw [← key k o ho hr, h, key k' o' ho' (h ▸ hr)]
  subst e
  interval_cases o <;> simp [slotReg] at h hr <;> exact h

theorem lowReg_not_slot (a : Nat) (k o : Nat) (h : lowReg a = slotReg k o) : lowReg a = .reserved := by
  revert h
  unfold lowReg slotReg
  split <;> split <;> simp

theorem lowReg_inj {a b : Nat} (h : lowReg a = lowReg b) (hr : lowReg a ≠ .reserved) : a = b := by
  revert h hr
  unfold lowReg
  split <;> split <;> simp

/-- Two addresses name one register only if they are one address, or the register is reserved. -/
theorem decodeReg_inj {p : Params} {a b : BitVec 12} (h : decodeReg p a = decodeReg p b)
    (hr : decodeReg p a ≠ .reserved) : a = b := by
  have ha := a.isLt
  have hb := b.isLt
  apply BitVec.eq_of_toNat_eq
  have hr' := h ▸ hr
  simp only [decodeReg] at h hr hr'
  split at h <;> rename_i h1 <;> simp only [h1, if_true, if_false] at hr
  · split at h <;> rename_i h2
    · exact lowReg_inj h hr
    · repeat' split at h
      · exact absurd (lowReg_not_slot _ _ _ h) hr
      · exact absurd h hr
      · exact absurd h hr
  · split at h <;> rename_i h2 <;> simp only [h2, if_true, if_false, ne_eq, not_true_eq_false] at hr
    split at h <;> rename_i h3 <;> simp only [h3, if_true, if_false, not_true_eq_false] at hr
    split at h <;> rename_i h4 <;> simp only [h4, if_true, if_false] at hr'
    · exact absurd (h ▸ lowReg_not_slot _ _ _ h.symm) hr
    · split at h <;> rename_i h5 <;> simp only [h5, if_true, if_false, ne_eq, not_true_eq_false] at hr'
      split at h <;> rename_i h6 <;> simp only [h6, if_true, if_false, not_true_eq_false] at hr'
      have := slotReg_inj (Nat.mod_lt _ (by decide)) (Nat.mod_lt _ (by decide)) h hr
      omega

/-- The slot an address names is one the hardware has. -/
theorem decodeReg_slot_lt {p : Params} {a : BitVec 12} {k : Nat}
    (h : (∃ f, decodeReg p a = .slotNum k f) ∨ decodeReg p a = .slotWave k ∨ decodeReg p a = .slotSync k) :
    k < p.oscSlots := by
  have low : ∀ a, (∀ f, lowReg a ≠ .slotNum k f) ∧ lowReg a ≠ .slotWave k ∧ lowReg a ≠ .slotSync k := by
    intro a; unfold lowReg; split <;> simp
  have slot : ∀ j o, ((∃ f, slotReg j o = .slotNum k f) ∨ slotReg j o = .slotWave k ∨ slotReg j o = .slotSync k) →
      j = k := by
    intro j o; unfold slotReg; split <;> simp
  simp only [decodeReg] at h
  split at h
  · have := low a.toNat
    rcases h with ⟨f, h⟩ | h | h
    · exact absurd h (this.1 f)
    · exact absurd h this.2.1
    · exact absurd h this.2.2
  · split at h
    · split at h
      · rename_i h1; exact slot _ _ h ▸ h1
      · simp at h
    · simp at h

/-- The ranges of the parameters. -/
theorem Params.wellFormed_iff (p : Params) : p.wellFormed = true ↔ p.num.wellFormed = true ∧
    1 ≤ p.oscSlots ∧ p.oscSlots ≤ 16 ∧ 1 ≤ p.maxVoices ∧ p.maxVoices ≤ 128 ∧
      1 ≤ p.maxBlock ∧ p.maxBlock ≤ 65535 := by
  simp [Params.wellFormed, and_assoc]

/-- The fields of PARAMS do not overlap. -/
theorem toNat_paramsWord {p : Params} (hp : p.wellFormed = true) :
    (paramsWord p).toNat = p.oscSlots + 2 ^ 8 * p.maxVoices + 2 ^ 16 * p.maxBlock := by
  obtain ⟨-, -, h2, -, h4, -, h6⟩ := (Params.wellFormed_iff p).mp hp
  have f1 : ((BitVec.ofNat 8 p.oscSlots).setWidth 64).toNat = p.oscSlots := by
    rw [BitVec.toNat_setWidth, BitVec.toNat_ofNat]; omega
  have f2 : ((BitVec.ofNat 8 p.maxVoices).setWidth 64 <<< 8).toNat = 2 ^ 8 * p.maxVoices := by
    rw [BitVec.toNat_shiftLeft, BitVec.toNat_setWidth, BitVec.toNat_ofNat, Nat.shiftLeft_eq]; omega
  have f3 : ((BitVec.ofNat 16 p.maxBlock).setWidth 64 <<< 16).toNat = 2 ^ 16 * p.maxBlock := by
    rw [BitVec.toNat_shiftLeft, BitVec.toNat_setWidth, BitVec.toNat_ofNat, Nat.shiftLeft_eq]; omega
  rw [paramsWord, BitVec.toNat_or, BitVec.toNat_or, f1, f2, f3, Nat.or_comm p.oscSlots,
    ← Nat.two_pow_add_eq_or_of_lt (by omega), Nat.or_comm, ← Nat.two_pow_add_eq_or_of_lt (by omega)]
  omega

/-! ## Reads after writes -/

@[simp] theorem getGlobal_setGlobal (f : GlobalField) (w : F64) (c : GlobalCfg) :
    getGlobal f (setGlobal f w c) = w := by cases f <;> rfl

theorem getGlobal_setGlobal_ne {f g : GlobalField} (h : f ≠ g) (w : F64) (c : GlobalCfg) :
    getGlobal f (setGlobal g w c) = getGlobal f c := by
  cases f <;> cases g <;> first | rfl | exact absurd rfl h

@[simp] theorem getSlotNum_setSlotNum (f : SlotField) (w : F64) (c : SlotCfg) :
    getSlotNum f (setSlotNum f w c) = w := by cases f <;> rfl

theorem getSlotNum_setSlotNum_ne {f g : SlotField} (h : f ≠ g) (w : F64) (c : SlotCfg) :
    getSlotNum f (setSlotNum g w c) = getSlotNum f c := by
  cases f <;> cases g <;> first | rfl | exact absurd rfl h

@[simp] theorem setSlotNum_wave (f : SlotField) (w : F64) (c : SlotCfg) : (setSlotNum f w c).wave = c.wave := by
  cases f <;> rfl

@[simp] theorem setSlotNum_sync (f : SlotField) (w : F64) (c : SlotCfg) : (setSlotNum f w c).sync = c.sync := by
  cases f <;> rfl

/-- A slot after a change of one slot. -/
theorem slot_setSlots_modify (s : State) (k j : Nat) (f : SlotCfg → SlotCfg) :
    (s.setSlots (s.slots.modify k f)).slot j =
      if k = j ∧ j < s.slots.length then f (s.slot j) else s.slot j := by
  simp only [State.slot, State.setSlots_slots, State.setSlots_params, List.getD_eq_getElem?_getD,
    List.getElem?_modify]
  by_cases hk : k = j
  · subst hk
    by_cases hl : k < s.slots.length <;> simp [hl]
  · simp [hk]

end Sys2Proof.Machine
end

