-- ==== Sys2Proof/Laws/PerInstr.lean ====
section
/-! SUPPORT. Laws/PerInstr.lean: facts about every command as syntax, one lemma per constructor. -/

namespace Sys2Proof.Laws.FirstBeat

/-- The encoding of a command is its command beat, with its opcode, and its operand beats. -/
def Statement (i : Instr) : Prop :=
  ∃ (w : Word) (ops : List Word), encode i = w :: ops ∧ opcodeOf w = i.opcode ∧
    ops.length = i.opcode.operandBeats

theorem nop : Statement .nop :=
  ⟨_, _, rfl, opcodeOf_commandBeat _ _ (by decide), rfl⟩
theorem noteOn (key : Key) (time : F64) : Statement (.noteOn key time) :=
  ⟨_, _, rfl, opcodeOf_commandBeat _ _ (by decide), rfl⟩
theorem noteOff (key : Key) (time : F64) : Statement (.noteOff key time) :=
  ⟨_, _, rfl, opcodeOf_commandBeat _ _ (by decide), rfl⟩
theorem allNotesOff (time : F64) : Statement (.allNotesOff time) :=
  ⟨_, _, rfl, opcodeOf_commandBeat _ _ (by decide), rfl⟩
theorem update (blkLen : BitVec 16) (time sampleRate : F64) : Statement (.update blkLen time sampleRate) :=
  ⟨_, _, rfl, opcodeOf_commandBeat _ _ (by decide), rfl⟩
theorem cfgWrite (addr : BitVec 12) (value : Word) : Statement (.cfgWrite addr value) :=
  ⟨_, _, rfl, opcodeOf_commandBeat _ _ (by decide), rfl⟩
theorem cfgRead (addr : BitVec 12) : Statement (.cfgRead addr) :=
  ⟨_, _, rfl, opcodeOf_commandBeat _ _ (by decide), rfl⟩
theorem outRead (idx : BitVec 16) : Statement (.outRead idx) :=
  ⟨_, _, rfl, opcodeOf_commandBeat _ _ (by decide), rfl⟩
theorem statusClear (mask : BitVec 2) : Statement (.statusClear mask) :=
  ⟨_, _, rfl, opcodeOf_commandBeat _ _ (by decide), rfl⟩
theorem rsvd9 : Statement .rsvd9 :=
  ⟨_, _, rfl, opcodeOf_commandBeat _ _ (by decide), rfl⟩
theorem rsvdA : Statement .rsvdA :=
  ⟨_, _, rfl, opcodeOf_commandBeat _ _ (by decide), rfl⟩
theorem rsvdB : Statement .rsvdB :=
  ⟨_, _, rfl, opcodeOf_commandBeat _ _ (by decide), rfl⟩
theorem rsvdC : Statement .rsvdC :=
  ⟨_, _, rfl, opcodeOf_commandBeat _ _ (by decide), rfl⟩
theorem rsvdD : Statement .rsvdD :=
  ⟨_, _, rfl, opcodeOf_commandBeat _ _ (by decide), rfl⟩
theorem rsvdE : Statement .rsvdE :=
  ⟨_, _, rfl, opcodeOf_commandBeat _ _ (by decide), rfl⟩
theorem reset : Statement .reset :=
  ⟨_, _, rfl, opcodeOf_commandBeat _ _ (by decide), rfl⟩

end Sys2Proof.Laws.FirstBeat
end

