-- ==== Sys2Proof/Laws/Render.lean ====
section
/-! SUPPORT. Laws/Render.lean: what rendering a block does to lengths, draws, oscillator states and voices. -/

namespace Sys2Proof.Machine

/-! ## Slots in use -/

@[simp] theorem mapActive_length (f : SlotCfg → OscState → OscState) :
    ∀ (ps : List SlotCfg) (os : List OscState), ps.length ≤ os.length →
      (mapActive f ps os).length = os.length
  | [], _, _ => rfl
  | _ :: ps, _ :: os, h => by
    simp only [List.length_cons, Nat.add_le_add_iff_right] at h
    simp [mapActive, mapActive_length f ps os h]

/-- A slot in use is changed by `f`; one that is not in use stays. -/
theorem mapActive_getElem? (f : SlotCfg → OscState → OscState) :
    ∀ (ps : List SlotCfg) (os : List OscState) (k : Nat), ps.length ≤ os.length →
      (mapActive f ps os)[k]? =
        match ps[k]?, os[k]? with
        | some p, some o => some (f p o)
        | none, o => o
        | some _, none => none
  | [], os, k, _ => by simp [mapActive]
  | p :: ps, o :: os, 0, _ => by simp [mapActive]
  | p :: ps, o :: os, k + 1, h => by
    simp only [List.length_cons, Nat.add_le_add_iff_right] at h
    simpa [mapActive] using mapActive_getElem? f ps os k h

/-! ## Samples -/

@[simp] theorem genSamples_length (c : GenCtx) (n : Nat) (g : GenState) : (genSamples c n g).1.length = n := by
  induction n generalizing g with
  | zero => rfl
  | succ n ih => simp [genSamples, ih]

/-- The state after a block is the state after its last sample. -/
theorem genSamples_state (c : GenCtx) (n : Nat) (g : GenState) :
    (genSamples c n g).2 = (fun x => (genSample c x).2)^[n] g := by
  induction n generalizing g with
  | zero => rfl
  | succ n ih => simp [genSamples, ih]

/-- A sample takes a draw when the wave is noise, and none for codes 0 to 3. -/
theorem waveVal_draws (c : GenCtx) (g : GenState) :
    (waveVal c g).2 = g.draws + if 4 ≤ c.wave.toNat then 1 else 0 := by
  unfold waveVal
  generalize c.wave.toNat = w
  match w with
  | 0 => rfl
  | 1 => rfl
  | 2 => rfl
  | 3 => rfl
  | w + 4 => simp

theorem genSamples_draws (c : GenCtx) (n : Nat) (g : GenState) :
    (genSamples c n g).2.draws = g.draws + if 4 ≤ c.wave.toNat then n else 0 := by
  induction n generalizing g with
  | zero => simp [genSamples]
  | succ n ih =>
    simp only [genSamples, ih, genSample, waveVal_draws]
    split <;> omega

@[simp] theorem generate_length (ps : Params) (p : SlotCfg) (key : Key) (n : Nat) (sr : Fp) (o : OscState)
    (d : Nat) : (generate ps p key n sr o d).block.length = n := by simp [generate]

theorem generate_draws (ps : Params) (p : SlotCfg) (key : Key) (n : Nat) (sr : Fp) (o : OscState) (d : Nat) :
    (generate ps p key n sr o d).draws = d + if 4 ≤ p.wave.toNat then n else 0 :=
  genSamples_draws _ _ _

/-- GENERATE leaves the amplitude snapshots alone (42_oscillator.md R140). -/
@[simp] theorem generate_onAmp (ps : Params) (p : SlotCfg) (key : Key) (n : Nat) (sr : Fp) (o : OscState)
    (d : Nat) : (generate ps p key n sr o d).osc.onAmp = o.onAmp := rfl

@[simp] theorem generate_offAmp (ps : Params) (p : SlotCfg) (key : Key) (n : Nat) (sr : Fp) (o : OscState)
    (d : Nat) : (generate ps p key n sr o d).osc.offAmp = o.offAmp := rfl

@[simp] theorem rampBlock_length (nf : NumFormat) (n : Nat) (a0 a1 : Fp) (xs : List Fp) (i : Nat) :
    (rampBlock nf n a0 a1 i xs).length = xs.length := by
  induction xs generalizing i with
  | nil => rfl
  | cons x xs ih => simp [rampBlock, ih]

theorem rampBlock_getElem? (nf : NumFormat) (n : Nat) (a0 a1 : Fp) (xs : List Fp) (i j : Nat) :
    (rampBlock nf n a0 a1 i xs)[j]? = xs[j]?.map (fun x => Fp.mul nf x (gain nf (i + j) n a0 a1)) := by
  induction xs generalizing i j with
  | nil => rfl
  | cons x xs ih =>
    cases j with
    | zero => simp [rampBlock]
    | succ j => simp [rampBlock, ih, Nat.add_assoc, Nat.add_comm 1 j]

@[simp] theorem filterBlock_length (nf : NumFormat) (k : Coeffs) (xs : List Fp) (a b : Fp) :
    (filterBlock nf k xs a b).1.length = xs.length := by
  induction xs generalizing a b with
  | nil => rfl
  | cons x xs ih => simp [filterBlock, ih]

/-- The filter changes v0 and v1 of the voice alone, and keeps the block's length. -/
theorem filter_eq (ps : Params) (c : GlobalCfg) (v : Voice) (t : Fp) (xs : List Fp) :
    ∃ a b, (filter ps c v t xs).2 = { v with f0 := a, f1 := b } := ⟨_, _, rfl⟩

@[simp] theorem filter_length (ps : Params) (c : GlobalCfg) (v : Voice) (t : Fp) (xs : List Fp) :
    (filter ps c v t xs).1.length = xs.length := by simp [filter]

/-- The filter does not read the oscillator states. -/
theorem filter_osc (ps : Params) (c : GlobalCfg) (v : Voice) (os : List OscState) (t : Fp) (xs : List Fp) :
    filter ps c { v with osc := os } t xs =
      ((filter ps c v t xs).1, { (filter ps c v t xs).2 with osc := os }) := rfl

/-! ## A voice's slots -/

/-- The draws a voice takes in a block. -/
def drawsOf (b : BlockCtx) : List SlotCfg → Nat
  | [] => 0
  | p :: ps => (if 4 ≤ p.wave.toNat then b.n else 0) + drawsOf b ps

theorem renderSlots_osc_length (b : BlockCtx) (v : Voice) : ∀ (ps : List SlotCfg) (os : List OscState)
    (acc : SlotAcc), ps.length ≤ os.length → (renderSlots b v ps os acc).1.length = os.length
  | [], _, _, _ => rfl
  | p :: ps, o :: os, acc, h => by
    simp only [List.length_cons, Nat.add_le_add_iff_right] at h
    simp [renderSlots, renderSlots_osc_length b v ps os _ h]

/-- Oscillator states keep their snapshots; those of the slots not in use stay whole. -/
theorem renderSlots_osc (b : BlockCtx) (v : Voice) : ∀ (ps : List SlotCfg) (os : List OscState)
    (acc : SlotAcc), ps.length ≤ os.length →
    List.Forall₂ (fun o o' => o'.onAmp = o.onAmp ∧ o'.offAmp = o.offAmp) os (renderSlots b v ps os acc).1 ∧
    (renderSlots b v ps os acc).1.drop ps.length = os.drop ps.length
  | [], os, _, _ => by
    exact ⟨List.forall₂_same.mpr fun _ _ => ⟨rfl, rfl⟩, rfl⟩
  | p :: ps, o :: os, acc, h => by
    simp only [List.length_cons, Nat.add_le_add_iff_right] at h
    obtain ⟨h1, h2⟩ := renderSlots_osc b v ps os (renderSlot b v p o acc).2 h
    exact ⟨.cons ⟨rfl, rfl⟩ h1, by simpa [renderSlots] using h2⟩

theorem renderSlots_note_length (b : BlockCtx) (v : Voice) : ∀ (ps : List SlotCfg) (os : List OscState)
    (acc : SlotAcc), acc.note.length = b.n → (renderSlots b v ps os acc).2.note.length = b.n
  | [], _, _, h => h
  | p :: ps, o :: os, acc, h => by
    refine renderSlots_note_length b v ps os _ ?_
    simp [renderSlot, mixSlot, h]
  | _ :: _, [], _, h => h

theorem renderSlots_buf_length (b : BlockCtx) (v : Voice) : ∀ (ps : List SlotCfg) (os : List OscState)
    (acc : SlotAcc), acc.osc.length ≤ b.n → (renderSlots b v ps os acc).2.osc.length ≤ b.n
  | [], _, _, h => h
  | p :: ps, o :: os, acc, _ => by
    refine renderSlots_buf_length b v ps os _ ?_
    simp [renderSlot]
  | _ :: _, [], _, h => h

theorem renderSlots_draws (b : BlockCtx) (v : Voice) : ∀ (ps : List SlotCfg) (os : List OscState)
    (acc : SlotAcc), ps.length ≤ os.length → (renderSlots b v ps os acc).2.draws = acc.draws + drawsOf b ps
  | [], _, _, _ => rfl
  | p :: ps, o :: os, acc, h => by
    simp only [List.length_cons, Nat.add_le_add_iff_right] at h
    simp [renderSlots, renderSlots_draws b v ps os _ h, renderSlot, generate_draws, drawsOf, Nat.add_assoc]

theorem renderSlots_maxEnd (b : BlockCtx) (v : Voice) : ∀ (ps : List SlotCfg) (os : List OscState)
    (acc : SlotAcc), (renderSlots b v ps os acc).2.maxEnd =
      (ps.zip os).foldl (fun m po => maxAmp m (slotEnv b.params.num po.1 v po.2 (endTime b))) acc.maxEnd
  | [], _, _ => rfl
  | p :: ps, o :: os, acc => by
    simp [renderSlots, renderSlots_maxEnd b v ps os, renderSlot]
  | _ :: _, [], _ => rfl

/-- What a voice adds to NOTEBUF, to the draws and to maxEnd does not depend on what OSCBUF held before. -/
theorem renderSlots_congr_osc (b : BlockCtx) (v : Voice) : ∀ (ps : List SlotCfg) (os : List OscState)
    (acc : SlotAcc) (x : List Fp),
    (renderSlots b v ps os { acc with osc := x }).1 = (renderSlots b v ps os acc).1 ∧
    (renderSlots b v ps os { acc with osc := x }).2.note = (renderSlots b v ps os acc).2.note ∧
    (renderSlots b v ps os { acc with osc := x }).2.maxEnd = (renderSlots b v ps os acc).2.maxEnd ∧
    (renderSlots b v ps os { acc with osc := x }).2.draws = (renderSlots b v ps os acc).2.draws
  | [], _, _, _ => ⟨rfl, rfl, rfl, rfl⟩
  | _ :: _, [], _, _ => ⟨rfl, rfl, rfl, rfl⟩
  | _ :: _, _ :: _, _, _ => ⟨rfl, rfl, rfl, rfl⟩

/-- With legal waves a draw is taken for every sample of a noise slot and for no other. -/
theorem drawsOf_eq_countP (b : BlockCtx) : ∀ (ps : List SlotCfg), (∀ p ∈ ps, p.wave.toNat ≤ 4) →
    drawsOf b ps = ps.countP (fun p => decide (p.wave = 4#3)) * b.n
  | [], _ => by simp [drawsOf]
  | p :: ps, h => by
    have hp := h p (by simp)
    have ih := drawsOf_eq_countP b ps (fun q hq => h q (by simp [hq]))
    have hw : p.wave = 4#3 ↔ 4 ≤ p.wave.toNat := by
      constructor
      · intro e; rw [e]; decide
      · intro e; apply BitVec.eq_of_toNat_eq; simp; omega
    simp only [drawsOf, List.countP_cons, ih, hw, decide_eq_true_eq, Nat.add_mul]
    split <;> omega

/-- Each slot in use has the state GENERATE leaves at the draws taken before it; the others stay. -/
theorem renderSlots_osc_eq (b : BlockCtx) (v : Voice) : ∀ (ps : List SlotCfg) (os : List OscState)
    (acc : SlotAcc), ps.length ≤ os.length → (renderSlots b v ps os acc).1 =
      (ps.zip os).zipIdx.map (fun pk => (generate b.params pk.1.1 v.key b.n b.sr pk.1.2
        (acc.draws + drawsOf b (ps.take pk.2))).osc) ++ os.drop ps.length
  | [], _, _, _ => rfl
  | p :: ps, o :: os, acc, h => by
    simp only [List.length_cons, Nat.add_le_add_iff_right] at h
    rw [renderSlots, renderSlots_osc_eq b v ps os _ h, List.zip_cons_cons, List.zipIdx_cons, Nat.zero_add,
      List.zipIdx_succ, List.map_cons, List.map_map]
    have hd : (renderSlot b v p o acc).2.draws = acc.draws + if 4 ≤ p.wave.toNat then b.n else 0 := by
      simp [renderSlot, generate_draws]
    simp only [hd, Function.comp_def, List.take_succ_cons, List.take_zero, drawsOf, Nat.add_zero, Nat.add_assoc,
      List.length_cons, List.drop_succ_cons, List.cons_append]
    rfl

/-! ## The voices -/

/-- A voice after its block: the phases and the filter state may change, nothing else. -/
structure Rendered (k : Nat) (v v' : Voice) : Prop where
  key     : v'.key = v.key
  onTime  : v'.onTime = v.onTime
  offTime : v'.offTime = v.offTime
  fOnAmp  : v'.fOnAmp = v.fOnAmp
  fOffAmp : v'.fOffAmp = v.fOffAmp
  amps    : List.Forall₂ (fun o o' => o'.onAmp = o.onAmp ∧ o'.offAmp = o.offAmp) v.osc v'.osc
  unused  : v'.osc.drop k = v.osc.drop k

/-- Everything one voice does to the block: it is kept or dropped, and the lengths stay. -/
theorem renderVoice_kept (b : BlockCtx) (v : Voice) (acc : MixAcc) (h : b.slots.length ≤ v.osc.length) :
    ∃ v' : Voice, Rendered b.slots.length v v' ∧
      v'.osc = (renderSlots b v b.slots v.osc
        { note := List.replicate b.n .zero, osc := acc.osc, maxEnd := .zero, draws := acc.draws }).1 ∧
      (renderVoice b v acc).kept =
        if Fp.eq ((b.slots.zip v.osc).foldl
            (fun m po => maxAmp m (slotEnv b.params.num po.1 v po.2 (endTime b))) .zero) .zero then acc.kept
        else acc.kept ++ [v'] := by
  have ho := renderSlots_osc b v b.slots v.osc
    { note := List.replicate b.n .zero, osc := acc.osc, maxEnd := .zero, draws := acc.draws } h
  refine ⟨(filter b.params b.cfg { v with osc := (renderSlots b v b.slots v.osc
      { note := List.replicate b.n .zero, osc := acc.osc, maxEnd := .zero, draws := acc.draws }).1 }
      b.time (renderSlots b v b.slots v.osc
      { note := List.replicate b.n .zero, osc := acc.osc, maxEnd := .zero, draws := acc.draws }).2.note).2,
    ⟨rfl, rfl, rfl, rfl, rfl, ho.1, ho.2⟩, rfl, ?_⟩
  rw [← renderSlots_maxEnd b v b.slots v.osc
    { note := List.replicate b.n .zero, osc := acc.osc, maxEnd := .zero, draws := acc.draws }]
  rfl

theorem renderVoice_out_length (b : BlockCtx) (v : Voice) (acc : MixAcc) (h : acc.out.length = b.n) :
    (renderVoice b v acc).out.length = b.n := by
  have := renderSlots_note_length b v b.slots v.osc
    { note := List.replicate b.n .zero, osc := acc.osc, maxEnd := .zero, draws := acc.draws } (by simp)
  simp [renderVoice, h, this]

theorem renderVoice_note_length (b : BlockCtx) (v : Voice) (acc : MixAcc) :
    (renderVoice b v acc).note.length = b.n := by
  have := renderSlots_note_length b v b.slots v.osc
    { note := List.replicate b.n .zero, osc := acc.osc, maxEnd := .zero, draws := acc.draws } (by simp)
  simp [renderVoice, this]

theorem renderVoice_osc_length (b : BlockCtx) (v : Voice) (acc : MixAcc) (h : acc.osc.length ≤ b.n) :
    (renderVoice b v acc).osc.length ≤ b.n :=
  renderSlots_buf_length b v b.slots v.osc _ h

theorem renderVoice_draws (b : BlockCtx) (v : Voice) (acc : MixAcc) (h : b.slots.length ≤ v.osc.length) :
    (renderVoice b v acc).draws = acc.draws + drawsOf b b.slots :=
  renderSlots_draws b v b.slots v.osc _ h

/-- What a voice leaves in NOTEBUF depends on the draws taken before it, and on nothing else of what the
voices accumulate. -/
theorem renderVoice_note_congr (b : BlockCtx) (v : Voice) (acc acc' : MixAcc) (h : acc.draws = acc'.draws) :
    (renderVoice b v acc).note = (renderVoice b v acc').note := by
  have hc := renderSlots_congr_osc b v b.slots v.osc
    { note := List.replicate b.n .zero, osc := acc'.osc, maxEnd := .zero, draws := acc'.draws } acc.osc
  simp only [renderVoice, h]
  rw [hc.1, hc.2.1]

/-- Whether a voice is kept, and how, depends on the draws taken before it alone. -/
theorem renderVoice_kept_congr (b : BlockCtx) (v : Voice) (acc acc' : MixAcc) (h : acc.draws = acc'.draws)
    (hk : acc.kept = acc'.kept) : (renderVoice b v acc).kept = (renderVoice b v acc').kept := by
  have hc := renderSlots_congr_osc b v b.slots v.osc
    { note := List.replicate b.n .zero, osc := acc'.osc, maxEnd := .zero, draws := acc'.draws } acc.osc
  simp only [renderVoice, h, hk]
  rw [hc.1, hc.2.1, hc.2.2.1]

/-- A voice adds its filtered block to OUT. -/
theorem renderVoice_out (b : BlockCtx) (v : Voice) (acc : MixAcc) :
    (renderVoice b v acc).out = List.zipWith (Fp.add b.params.num) acc.out (renderVoice b v acc).note := rfl

theorem renderVoices_lengths (b : BlockCtx) : ∀ (vs : List Voice) (acc : MixAcc), acc.out.length = b.n →
    acc.osc.length ≤ b.n → acc.note.length ≤ b.n →
    (renderVoices b vs acc).out.length = b.n ∧ (renderVoices b vs acc).osc.length ≤ b.n ∧
      (renderVoices b vs acc).note.length ≤ b.n
  | [], _, h1, h2, h3 => ⟨h1, h2, h3⟩
  | v :: vs, acc, h1, h2, _ =>
    renderVoices_lengths b vs _ (renderVoice_out_length b v acc h1) (renderVoice_osc_length b v acc h2)
      (renderVoice_note_length b v acc).le

theorem renderVoices_draws (b : BlockCtx) : ∀ (vs : List Voice) (acc : MixAcc),
    (∀ v ∈ vs, b.slots.length ≤ v.osc.length) →
    (renderVoices b vs acc).draws = acc.draws + vs.length * drawsOf b b.slots
  | [], _, _ => by simp [renderVoices]
  | v :: vs, acc, h => by
    rw [renderVoices, renderVoices_draws b vs _ (fun u hu => h u (by simp [hu])),
      renderVoice_draws b v acc (h v (by simp)), List.length_cons, Nat.add_mul]
    omega

/-- The voices kept are the voices whose maximum end amplitude is not 0, in their order, each rendered. -/
theorem renderVoices_kept (b : BlockCtx) : ∀ (vs : List Voice) (acc : MixAcc),
    (∀ v ∈ vs, b.slots.length ≤ v.osc.length) →
    ∃ ks : List Voice, (renderVoices b vs acc).kept = acc.kept ++ ks ∧
      List.Forall₂ (Rendered b.slots.length)
        (vs.filter (fun v => !Fp.eq ((b.slots.zip v.osc).foldl
          (fun m po => maxAmp m (slotEnv b.params.num po.1 v po.2 (endTime b))) .zero) .zero)) ks
  | [], _, _ => ⟨[], by simp [renderVoices], .nil⟩
  | v :: vs, acc, h => by
    obtain ⟨v', hr, -, hk⟩ := renderVoice_kept b v acc (h v (by simp))
    obtain ⟨ks, h1, h2⟩ := renderVoices_kept b vs (renderVoice b v acc) (fun u hu => h u (by simp [hu]))
    rw [renderVoices, h1, hk]
    generalize hc : Fp.eq ((b.slots.zip v.osc).foldl
      (fun m po => maxAmp m (slotEnv b.params.num po.1 v po.2 (endTime b))) .zero) .zero = c
    cases c
    · exact ⟨v' :: ks, by simp, by simpa [List.filter_cons, hc] using ⟨hr, h2⟩⟩
    · exact ⟨ks, by simp, by simpa [List.filter_cons, hc] using h2⟩

theorem rendered_keys {k : Nat} {vs ks : List Voice} (h : List.Forall₂ (Rendered k) vs ks) :
    ks.map Voice.key = vs.map Voice.key := by
  induction h with
  | nil => rfl
  | cons h1 _ ih => simp [h1.key, ih]

theorem exists_of_mem_rendered {k : Nat} {vs ks : List Voice} (h : List.Forall₂ (Rendered k) vs ks) :
    ∀ v' ∈ ks, ∃ v ∈ vs, Rendered k v v' := by
  induction h with
  | nil => simp
  | cons h1 _ ih =>
    intro v' hv
    rcases List.mem_cons.mp hv with rfl | hv
    · exact ⟨_, List.mem_cons_self .., h1⟩
    · obtain ⟨v, h2, h3⟩ := ih v' hv
      exact ⟨v, List.mem_cons_of_mem _ h2, h3⟩

end Sys2Proof.Machine
end

