-- ==== Sys2Proof/Laws/Step.lean ====
section
/-! SUPPORT. Laws/Step.lean: what a step can do, and runs of steps. -/

namespace Sys2Proof.Machine

/-- A step runs the command at the head of the ports' queue, or takes `rst`, or waits. -/
theorem step_cases (s : State) :
    (∃ i rest, fetch s.inbox = .command i rest ∧ step s = exec i (s.take rest)) ∨
    (∃ rest, fetch s.inbox = .reset rest ∧ step s = .next (resetByPin rest s)) ∨
    (fetch s.inbox = .waiting ∧ step s = .next s) := by
  unfold step
  cases h : fetch s.inbox with
  | command i rest => exact .inl ⟨i, rest, rfl, rfl⟩
  | reset rest => exact .inr (.inl ⟨rest, rfl, rfl⟩)
  | waiting => exact .inr (.inr ⟨rfl, rfl⟩)

/-- The first step of a run. -/
theorem run_succ {s t : State} (h : step s = .next t) (k : Nat) :
    Sys2Proof.core.run (k + 1) s = Sys2Proof.core.run k t := by
  have h' : Sys2Proof.core.step s = .next t := h
  simp only [Host.Core.run, h']

/-- A run that ends in a next state begins with a step to a next state. -/
theorem run_succ_next {s t : State} {k : Nat} (h : Sys2Proof.core.run (k + 1) s = .next t) :
    ∃ s' : State, step s = .next s' ∧ Sys2Proof.core.run k s' = .next t := by
  cases hs : step s with
  | next s' => exact ⟨s', rfl, (run_succ hs k) ▸ h⟩
  | fault r =>
    have h' : Sys2Proof.core.step s = .fault r := hs
    simp only [Host.Core.run, h'] at h
    cases h
  | refused r =>
    have h' : Sys2Proof.core.step s = .refused r := hs
    simp only [Host.Core.run, h'] at h
    cases h

end Sys2Proof.Machine
end

