-- ==== Sys2Proof/Tests/Slice0.lean ====
section
/-! SUPPORT. Tests/Slice0.lean: what the checks of WellFormed.lean refuse; words written out from
30_encoding.md R82 and R83 and what they decode as; single steps with results the spec states; and for each
statement with hypotheses a state and operands that meet them. -/

namespace Sys2Proof.Tests

open Sys2Proof.Machine

/-! ## Helpers -/

/-- The next state of an outcome. -/
def nextOf (o : Host.Outcome State Fault Refusal) : Option State :=
  match o with
  | .next s => some s
  | .fault _ => none
  | .refused _ => none

/-- A small engine: two slots, two voices, four samples. -/
def tiny : Params := { Params.reference with oscSlots := 2, maxVoices := 2, maxBlock := 4 }

/-- The small engine after reset, with given voices and the wave of slot 0. -/
def small (wave : BitVec 3) (keys : List Key) : State :=
  { State.resetWith tiny with
    slots := [{ SlotCfg.reset tiny with wave := wave }, SlotCfg.reset tiny]
    voices := keys.map (fun k => freshVoice tiny k F64.zero) }

/-- 1760.0 -/
def rate : F64 := 0x409B800000000000#64
/-- +∞ -/
def plusInf : F64 := 0x7FF0000000000000#64
/-- a NaN -/
def aNan : F64 := 0x7FF8000000000001#64
/-- −0 -/
def minusZero : F64 := 0x8000000000000000#64
/-- −1.0 -/
def minusOne : F64 := 0xBFF0000000000000#64

/-- A narrower NUM, IEEE binary32: 24 significant bits, smallest subnormal 2^−149, below 2^128. -/
def binary32 : NumFormat := ⟨24, 1074 - 149, 1074 + 128⟩

/-! ## WellFormed: what the checks refuse -/

theorem test_wf_update_ok : (Instr.update 4096#16 F64.zero rate).wellFormed Params.reference = true := by decide
theorem test_wf_update_length_zero :
    (Instr.update 0#16 F64.zero rate).wellFormed Params.reference = false := by decide
theorem test_wf_update_length_over :
    (Instr.update 4097#16 F64.zero rate).wellFormed Params.reference = false := by decide
theorem test_wf_update_bad_rates :
    [F64.zero, minusZero, minusOne, plusInf, aNan].all
      (fun r => !(Instr.update 1#16 F64.zero r).wellFormed Params.reference) = true := by decide
theorem test_wf_beat_ok : [0x1000007F#64, 0x4000FFFF#64, 0x80000003#64].all commandBeatWellFormed = true := by decide
theorem test_wf_beat_high_bits : commandBeatWellFormed 0x110000045#64 = false := by decide
theorem test_wf_beat_ignored_bits :
    [0x10000080#64, 0x40010000#64, 0x50001000#64, 0x80000004#64, 0x00000001#64].any commandBeatWellFormed = false := by
  decide
theorem test_wf_params_ok : Params.reference.wellFormed = true ∧ tiny.wellFormed = true := by decide
theorem test_wf_format_ok : binary32.wellFormed = true ∧ NumFormat.binary64.wellFormed = true := by decide
theorem test_wf_format_bad :
    [{ binary32 with precision := 1 }, { binary32 with precision := 54 }, { binary32 with quantumExp := 1072 },
     { binary32 with limitExp := 1099 }, { binary32 with limitExp := 2099 }].any NumFormat.wellFormed = false := by
  decide
theorem test_wf_params_format : Params.wellFormed { tiny with num := { binary32 with precision := 54 } } = false := by
  decide
theorem test_wf_params_bad :
    [{ tiny with oscSlots := 0 }, { tiny with oscSlots := 17 }, { tiny with maxVoices := 0 },
     { tiny with maxVoices := 129 }, { tiny with maxBlock := 0 }, { tiny with maxBlock := 65536 }].any
      Params.wellFormed = false := by decide

/-! ## Decode: one word for every row of the opcode table -/

theorem test_decode_nop : decode [0x00000000#64] = .command .nop [] := by decide
theorem test_decode_noteOn : decode [0x10000045#64, 0#64] = .command (.noteOn 69#7 0#64) [] := by decide
theorem test_decode_noteOff : decode [0x2000007F#64, 5#64] = .command (.noteOff 127#7 5#64) [] := by decide
theorem test_decode_allNotesOff : decode [0x30000000#64, 5#64] = .command (.allNotesOff 5#64) [] := by decide
theorem test_decode_update :
    decode [0x40000004#64, 0#64, rate, 9#64] = .command (.update 4#16 0#64 rate) [9#64] := by decide
theorem test_decode_cfgWrite : decode [0x50000100#64, 2#64] = .command (.cfgWrite 0x100#12 2#64) [] := by decide
theorem test_decode_cfgRead : decode [0x60000012#64] = .command (.cfgRead 0x012#12) [] := by decide
theorem test_decode_outRead : decode [0x70008001#64] = .command (.outRead 0x8001#16) [] := by decide
theorem test_decode_statusClear : decode [0x80000002#64] = .command (.statusClear 2#2) [] := by decide
theorem test_decode_rsvd9 : decode [0x90000000#64] = .command .rsvd9 [] := by decide
theorem test_decode_rsvdA : decode [0xA0000000#64, 1#64] = .command .rsvdA [1#64] := by decide
theorem test_decode_rsvdB : decode [0xB0000000#64] = .command .rsvdB [] := by decide
theorem test_decode_rsvdC : decode [0xC0000000#64] = .command .rsvdC [] := by decide
theorem test_decode_rsvdD : decode [0xD0000000#64] = .command .rsvdD [] := by decide
theorem test_decode_rsvdE : decode [0xE0000000#64] = .command .rsvdE [] := by decide
theorem test_decode_reset : decode [0xF0000000#64] = .command .reset [] := by decide
theorem test_decode_ignored_bits : decode [0xDEADBEEF1FFFFFC5#64, 0#64] = .command (.noteOn 69#7 0#64) [] := by decide
theorem test_decode_missing : decode [0x40000004#64, 0#64] = .incomplete (.missingOperands .update 1) := by decide
theorem test_decode_table_word :
    decodeTableWord 96 (0x10000045 + 7 * 2 ^ 32) = some (.noteOn 69#7 7#64) ∧
    decodeTableWord 32 0x40000004 = some (.update 4#16 0#64 0#64) := by decide

/-- The examples of 30_encoding.md R93. -/
theorem test_encode_examples :
    encode (.noteOn 69#7 0#64) = [0x10000045#64, 0#64] ∧
    encode (.update 4#16 0#64 rate) = [0x40000004#64, 0#64, 0x409B800000000000#64] ∧
    encode (.cfgWrite 0x100#12 2#64) = [0x50000100#64, 2#64] := by decide

/-- 20_memory.md R65 -/
theorem test_word_bytes : wordBytes 0x0123456789ABCDEF#64 =
    [0xEF#8, 0xCD#8, 0xAB#8, 0x89#8, 0x67#8, 0x45#8, 0x23#8, 0x01#8] := by decide

/-- 30_encoding.md R94 -/
theorem test_pseudo_setenv : Pseudo.expand (.setEnv 1 1#64 2#64 3#64 4#64) =
    [.cfgWrite 0x113#12 1#64, .cfgWrite 0x114#12 2#64, .cfgWrite 0x115#12 3#64, .cfgWrite 0x116#12 4#64] := by decide

/-! ## Single steps with results the spec states -/

/-- 00_scope.md R9, in binary32: 1 + 2^−24 is a tie and rounds to the even 1, 2^128 is infinite, half the
smallest subnormal is 0, and a pattern between two values counts as the nearer. -/
theorem test_num_binary32 :
    Fp.add binary32 .one (.fin false (2 ^ 1050)) = .one ∧
    Fp.mul binary32 .two (.fin false (2 ^ 1201)) = .inf false ∧
    Fp.mul binary32 .half (.fin false (2 ^ 925)) = .fin false 0 ∧
    Fp.ofWord binary32 0x3FF0000000000001#64 = .one := by decide +kernel

/-- 60_exceptions.md R264: the UPDATE of a reserved wave ends in the fault outcome, with cause 3 in slot 0. -/
theorem test_fault_outcome :
    faultOutcome (.update 4#16 F64.zero rate) (small 5#3 [69#7]) = some (.configError .badWaveform 0#4) ∧
    faultOutcome (.update 4#16 F64.zero rate) (small 2#3 [69#7]) = none := by decide +kernel

/-- 44_events.md R186, R187: the word of a reserved opcode runs as a no-op from reset. -/
theorem test_step_reserved :
    (nextOf (step (State.reset.withFetchWord 32 0x90000000))).map (fun s => (s.responses, s.position, s.inbox)) =
      some ([], 1, []) := by decide

/-- 44_events.md R181's example: after reset, NOTE_ON 69, 0.0 gives ACTIVE_COUNT = 1 and a zeroed voice. -/
theorem test_note_on_fresh :
    (nextOf (exec (.noteOn 69#7 F64.zero) State.reset)).map
      (fun s => (activeCountWord s, s.voices.map (fun v => (v.key, v.onTime, v.offTime, v.osc.length)))) =
      some (1#64, [(69#7, 0#64, 0#64, 4)]) := by decide

/-- 44_events.md R181: a full set drops the note and sets VOICE_OVF (bit 12). -/
theorem test_note_on_full :
    (nextOf (exec (.noteOn 60#7 F64.zero) (small 0#3 [69#7, 81#7]))).map
      (fun s => (s.voices.length, statusWord s.status)) = some (2, 0x1000#64) := by decide

/-- 41_envelope.md R124's example: released at 0.3 from offAmp 0.5 and retriggered at 0.35, the snapshot is
0.28125 (p = (0.1, 0.1, 0.5, 0.2, 2, 2, 2)). -/
theorem test_env_retrigger :
    (env .binary64 ⟨0x3FB999999999999A#64, 0x3FB999999999999A#64, F64.half, 0x3FC999999999999A#64, F64.two, F64.two, F64.two⟩
      (Fp.ofWord .binary64 0x3FD6666666666666#64) .zero (Fp.ofWord .binary64 0x3FD3333333333333#64) .zero
      (Fp.ofWord .binary64 F64.half)).toWord = 0x3FD2000000000000#64 := by decide +kernel

/-- 44_events.md R183: a NOTE_OFF of a held voice past attack and decay snapshots the sustain level 1. -/
theorem test_note_off :
    (nextOf (exec (.noteOff 69#7 rate) (small 0#3 [69#7]))).map
      (fun s => s.voices.map (fun v => (v.offTime, v.fOffAmp, v.osc.map (fun o => o.offAmp)))) =
      some [(rate, F64.one, [F64.one, F64.zero])] := by decide +kernel

/-- 44_events.md R185 -/
theorem test_all_notes_off :
    (nextOf (exec (.allNotesOff rate) (small 0#3 [69#7, 81#7]))).map activeCountWord = some 0#64 := by decide

/-- 45_update_mixer.md R200's example (P1 of 95_test_vectors.md): −1, −0.5, 0.25, 0.625. -/
theorem test_update_saw :
    (nextOf (exec (.update 4#16 F64.zero rate) (small 2#3 [69#7]))).map (fun s => (List.range 4).map (outRead s)) =
      some [0xBFF0000000000000#64, 0xBFE0000000000000#64, 0x3FD0000000000000#64, 0x3FE4000000000000#64] := by
  decide +kernel

/-- 60_exceptions.md R252: a reserved wave raises cause 3 in slot 0 (STATUS = 0x31) and plays silence. -/
theorem test_update_bad_wave :
    (nextOf (exec (.update 4#16 F64.zero rate) { small 5#3 [69#7] with out := [(1, F64.one)] })).map
      (fun s => (statusWord s.status, s.errIrq, s.out, s.faultLog)) =
      some (0x31#64, true, [], [.badWaveform]) := by decide +kernel

/-- 46_host_access.md R230's example: CFG_WRITE CUTOFF, 0.5. -/
theorem test_cfg_write :
    (nextOf (exec (.cfgWrite 0x000#12 F64.half) State.reset)).map (fun s => s.cfg.cutoff) = some F64.half := by decide

/-- 10_state.md R27: OSC_COUNT = 5 is ignored with four slots. -/
theorem test_cfg_write_osc_count :
    (nextOf (exec (.cfgWrite 0x00A#12 5#64) State.reset)).map (fun s => s.cfg.oscCount) = some 1#5 := by decide

/-- 46_host_access.md R231's examples. -/
theorem test_cfg_read :
    (nextOf (exec (.cfgRead 0x012#12) State.reset)).map (fun s => s.responses) = some [0x4D454C4F00000007#64] ∧
    (nextOf (exec (.cfgRead 0x101#12) State.reset)).map (fun s => s.responses) = some [0x3FE0000000000000#64] := by
  decide

/-- 10_state.md R34 at the reference parameters. -/
theorem test_params_word : paramsWord Params.reference = 0x10001004#64 := by decide

/-- 20_memory.md R64: at MAX_BLOCK and beyond the output space reads 0. -/
theorem test_out_read :
    (nextOf (exec (.outRead 3#16) { small 0#3 [] with out := [(3, F64.one)] })).map (fun s => s.responses) =
      some [F64.one] ∧
    (nextOf (exec (.outRead 4#16) { small 0#3 [] with out := [(3, F64.one)] })).map (fun s => s.responses) =
      some [0#64] := by decide

/-- 46_host_access.md R236's example: STATUS = 0x1041 and mask 3. -/
theorem test_status_clear :
    statusWord ⟨true, 4#4, 0#4, true⟩ = 0x1041#64 ∧
    (nextOf (exec (.statusClear 3#2) { small 0#3 [] with status := ⟨true, 4#4, 0#4, true⟩ })).map
      (fun s => statusWord s.status) = some 0#64 := by decide

/-- 46_host_access.md R235's example. -/
theorem test_reset :
    (nextOf (exec .reset { small 5#3 [69#7] with status := ⟨true, 4#4, 0#4, true⟩ })).map
      (fun s => (activeCountWord s, s.cfg.cutoff, statusWord s.status)) = some (0#64, F64.one, 0#64) := by decide

/-- 70_reset_and_hazards.md R281: `rst` during a command takes it back, and its response is not sent. -/
theorem test_rst_during :
    (nextOf (step { small 0#3 [69#7] with inbox := [.beat 0x60000012#64, .rstDuring, .beat 0x00000000#64] })).map
      (fun s => (s.responses, s.voices.length, s.inbox)) = some ([], 0, [.beat 0x00000000#64]) := by decide

/-! ## Witnesses: states and operands that meet the hypotheses of the statements -/

/-- ResetMeetsInvariant, CfgReadResponds -/
theorem witness_params : Params.reference.wellFormed = true := by decide

/-- The formats of NUM the statements speak of: the reference and a narrower one. -/
theorem witness_formats : NumFormat.binary64.wellFormed = true ∧ binary32.wellFormed = true := by decide

/-- The invariant holds of small states with any of these waves and voices: the premise `s.Inv` of the
statements. -/
theorem small_inv (wave : BitVec 3) (keys : List Key) (hn : keys.Nodup) (hl : keys.length ≤ 2) :
    (small wave keys).Inv where
  params_wf := by show tiny.wellFormed = true; decide
  slots_length := rfl
  osc_count := by show 1 ≤ 2; decide
  voices_length := by simpa [small, State.resetWith, tiny] using hl
  keys_distinct := by
    have : ((small wave keys).voices.map Voice.key) = keys := by
      simp [small, freshVoice, Function.comp_def]
    rw [this]; exact hn
  osc_length := by
    intro v hv
    simp only [small, List.mem_map] at hv
    obtain ⟨k, -, rfl⟩ := hv
    rfl
  no_error := fun _ => ⟨rfl, rfl⟩
  error_cause := fun h => by cases h
  error_slot := .inl rfl
  out_wf := rfl
  out_below := rfl
  osc_buf := ⟨rfl, rfl⟩
  note_buf := ⟨rfl, rfl⟩
  error_logged := fun h => by cases h

theorem witness_inv_voices : (small 2#3 [69#7, 81#7]).Inv := small_inv _ _ (by decide) (by decide)

/-- RstPinDiscardsPartialCommand: no beat, one beat of three, and a whole command with `rst` during it. -/
theorem witness_rst :
    decode [] = .incomplete .noCommandWord ∧
    decode [0x40000004#64] = .incomplete (.missingOperands .update 0) ∧
    decode [0x60000012#64] = .command (.cfgRead 0x012#12) [] := by decide

/-- DecodeByOpcode: a word of each opcode, and a command with too few operand beats. -/
theorem witness_opcodes :
    ((List.range 16).all (fun k => decide
      ((BitVec.ofNat 64 (k * 2 ^ 28 + 5)).extractLsb' 28 4 = BitVec.ofNat 4 k))) = true ∧
    ([] : List Word).length < (opcodeOf 0x10000045#64).operandBeats ∧
    [0#64].length < (opcodeOf 0x40000004#64).operandBeats := by decide

/-- IgnoredBitsAreIgnored -/
theorem witness_ignored :
    (0x10000045#64 : Word).extractLsb' 28 4 = (0xFF1FFFFFC5#64 : Word).extractLsb' 28 4 ∧
    (0x10000045#64 : Word).toNat % 2 ^ fieldBits 1#4 = (0xFF1FFFFFC5#64 : Word).toNat % 2 ^ fieldBits 1#4 ∧
    (0x3000007F#64 : Word).extractLsb' 28 4 = (0x30000000#64 : Word).extractLsb' 28 4 := by decide

/-- EncodeInvertsDecode, also at ALL_NOTES_OFF with a KEY -/
theorem witness_encode_inverts :
    decode [0x4000FFFF#64, 1#64, 2#64, 3#64] = .command (.update 0xFFFF#16 1#64 2#64) [3#64] ∧
    commandBeatWellFormed 0x4000FFFF#64 = true ∧
    decode [0x3000007F#64, 1#64] = .command (.allNotesOff 1#64) [] ∧ commandBeatWellFormed 0x3000007F#64 = true := by
  decide

/-- StepRunsDecodedCommand, StepRunsOfferedCommand -/
theorem witness_step :
    decode (leadingBeats [.beat 0x00000000#64, .rst]) = .command .nop [] ∧
    (([.beat 0x00000000#64, .rst] : List PortInput).drop Instr.nop.beats).head? ≠ some .rstDuring ∧
    ([] : List PortInput).head? ≠ some .rstDuring := by decide

/-- StepWaitsForMissingBeats -/
theorem witness_waits : ([0#64] : List Word).length < (opcodeOf 0x40000004#64).operandBeats ∧
    ([] : List Word).length < (opcodeOf 0x50000100#64).operandBeats := by decide

/-- NoteOnFreshNote (room, and a full set), NoteOffReleases (absent key) -/
theorem witness_fresh :
    (small 0#3 [69#7]).Inv ∧ (small 0#3 [69#7, 81#7]).Inv ∧
    (∀ v ∈ (small 0#3 [69#7]).voices, v.key ≠ 60#7) ∧ (small 0#3 [69#7]).voices.length < tiny.maxVoices ∧
    (∀ v ∈ (small 0#3 [69#7, 81#7]).voices, v.key ≠ 60#7) ∧
    (small 0#3 [69#7, 81#7]).voices.length = tiny.maxVoices := by
  refine ⟨small_inv _ _ (by decide) (by decide), small_inv _ _ (by decide) (by decide), ?_⟩
  decide

/-- NoteOnRetriggers, NoteOffReleases: the second of two voices; slot 0 is in use and slot 1 is not. -/
theorem witness_present :
    (small 0#3 [69#7, 81#7]).Inv ∧
    (small 0#3 [69#7, 81#7]).voices =
      [freshVoice tiny 69#7 F64.zero] ++ freshVoice tiny 81#7 F64.zero :: [] ∧
    (freshVoice tiny 81#7 F64.zero).key = 81#7 ∧
    ((small 0#3 [69#7, 81#7]).slots[1]?).isSome = true ∧ ((freshVoice tiny 81#7 F64.zero).osc[1]?).isSome = true := by
  refine ⟨small_inv _ _ (by decide) (by decide), ?_⟩
  decide

/-- NoteOffAtZeroOrNaN -/
theorem witness_zero_nan :
    Fp.eq (Fp.ofWord .binary64 minusZero) .zero = true ∧ Fp.eq (Fp.ofWord .binary64 F64.zero) .zero = true ∧
    Fp.eq (Fp.ofWord .binary64 aNan) (Fp.ofWord .binary64 aNan) = false := by decide +kernel

/-- SameKeyEventsKeepOneEntry -/
theorem witness_same_key :
    (small 0#3 [69#7]).Inv ∧
    ((∃ v ∈ (small 0#3 [69#7]).voices, v.key = 69#7) ∨ (small 0#3 [69#7]).voices.length < tiny.maxVoices) ∧
    (∀ i ∈ [Instr.noteOff 69#7 rate, .noteOn 69#7 rate],
      i = .noteOn 69#7 rate ∨ i = .noteOff 69#7 rate) := by
  refine ⟨small_inv _ _ (by decide) (by decide), ?_⟩
  decide

/-- EnvSegments: attack (t = 0 and t just below a), decay (t = a), sustain (t = a + d), release (t = 0),
after release (t = r), with a = d = r = 1 and every time an integer. -/
theorem witness_env :
    Fp.lt (elapsed .binary64 .zero .zero) .one = true ∧ Fp.lt (elapsed .binary64 .half .zero) .one = true ∧
    Fp.lt (elapsed .binary64 .one .zero) .one = false ∧ Fp.lt (elapsed .binary64 .one .zero) (Fp.add .binary64 .one .one) = true ∧
    Fp.lt (elapsed .binary64 .two .zero) .one = false ∧ Fp.lt (elapsed .binary64 .two .zero) (Fp.add .binary64 .one .one) = false ∧
    Fp.eq .one .zero = false ∧ Fp.lt (elapsed .binary64 .one .one) .one = true ∧
    Fp.lt (elapsed .binary64 .two .one) .one = false := by decide +kernel

/-- ElapsedTimeNeverNegative -/
theorem witness_elapsed : Fp.lt (Fp.ofWord .binary64 F64.zero) (Fp.ofWord .binary64 F64.one) = true := by decide +kernel

/-- ZeroLengthSegmentsJump -/
theorem witness_zero_length :
    Fp.eq (Fp.ofWord .binary64 (EnvParams.reset tiny).attack) .zero = true ∧
    Fp.eq (Fp.ofWord .binary64 (EnvParams.reset tiny).decay) .zero = true ∧
    Fp.eq (Fp.ofWord .binary64 (EnvParams.reset tiny).release) .zero = true ∧
    Fp.eq (Fp.ofWord .binary64 F64.one) .zero = false ∧
    Fp.lt (elapsed .binary64 (Fp.ofWord .binary64 F64.one) .zero) (Fp.ofWord .binary64 F64.one) = false := by decide +kernel

/-- InfiniteReleaseHoldsOffAmp -/
theorem witness_infinite_release :
    Fp.lt .zero (Fp.ofWord .binary64 F64.two) = true ∧ Fp.eq (Fp.ofWord .binary64 F64.one) .zero = false ∧
    Fp.lt (elapsed .binary64 (Fp.ofWord .binary64 rate) (Fp.ofWord .binary64 F64.one)) (.inf false) = true ∧
    Fp.lt (.inf true) (Fp.ofWord .binary64 F64.half) = true ∧ Fp.lt (Fp.ofWord .binary64 F64.half) (.inf false) = true := by
  decide +kernel

/-- RetriggerIsContinuous: a slot with attack 1 and a given sustain level. -/
def attackSlot (sustain : F64) : SlotCfg :=
  { SlotCfg.reset tiny with env := { EnvParams.reset tiny with attack := F64.one, sustain := sustain } }

/-- The amplitude of `attackSlot` in a fresh voice. -/
def attackAmp (sustain time : F64) : Fp :=
  slotEnv .binary64 (attackSlot sustain) (freshVoice tiny 69#7 F64.zero) freshOsc (Fp.ofWord .binary64 time)

/-- RetriggerIsContinuous: in the attack the amplitude is below 1; at the reset sustain level it is 1, and at
sustain level 2 it is above 1. -/
theorem witness_retrigger :
    (freshVoice tiny 69#7 F64.zero).osc[0]? = some freshOsc ∧
    Fp.lt (attackAmp F64.one F64.half) .one = true ∧ Fp.lt (.inf true) (attackAmp F64.one F64.half) = true ∧
    Fp.eq (attackAmp F64.one rate) .one = true ∧ Fp.lt (.inf true) (attackAmp F64.one rate) = true ∧
    Fp.lt .one (attackAmp F64.two rate) = true ∧
    Fp.lt (Fp.ofWord .binary64 F64.half) (.inf false) = true ∧
    Fp.lt (.inf true) (Fp.ofWord .binary64 F64.half) = true ∧
    Fp.lt (Fp.ofWord .binary64 rate) (.inf false) = true ∧ Fp.lt (.inf true) (Fp.ofWord .binary64 rate) = true ∧
    Fp.lt .zero (Fp.ofWord .binary64 F64.one) = true ∧ Fp.lt .zero (Fp.ofWord .binary64 F64.two) = true := by
  decide +kernel

/-- PowNamedProperties, SineNamedProperties: y > 0, and p at 0 and at the largest value below 1. -/
theorem witness_functions :
    Fp.lt .zero (Fp.ofWord .binary64 1#64) = true ∧
    Fp.le .zero (Fp.ofWord .binary64 F64.zero) = true ∧ Fp.lt (Fp.ofWord .binary64 F64.zero) .one = true ∧
    Fp.le .zero (Fp.ofWord .binary64 0x3FEFFFFFFFFFFFFF#64) = true ∧
    Fp.lt (Fp.ofWord .binary64 0x3FEFFFFFFFFFFFFF#64) .one = true := by decide +kernel

/-- PhaseAdvanceStaysInUnit: the extreme phases, and increments 0 and the largest finite value. -/
theorem witness_phase :
    unitPhase .binary64 F64.zero = true ∧ unitPhase .binary64 0x3FEFFFFFFFFFFFFF#64 = true ∧ unitPhase .binary64 F64.one = false ∧
    finiteIncrement (Fp.ofWord .binary64 F64.zero) = true ∧ finiteIncrement (Fp.ofWord .binary64 0x7FEFFFFFFFFFFFFF#64) = true ∧
    finiteIncrement (Fp.ofWord .binary64 plusInf) = false := by decide +kernel

/-- HardSyncResetsPhase, GenerateFollowsLoop: sync at and below 1, and no sync. -/
theorem witness_sync :
    Fp.le .one (Fp.add .binary64 .half .half) = true ∧ Fp.le .one (Fp.add .binary64 .quarter .half) = false ∧
    (genCtx tiny { SlotCfg.reset tiny with sync := true } 69#7 (Fp.ofWord .binary64 rate)).sinc.isSome = true ∧
    (genCtx tiny (SlotCfg.reset tiny) 69#7 (Fp.ofWord .binary64 rate)).sinc = none ∧
    (0#3 : BitVec 3).toNat ≤ 4 ∧ (4#3 : BitVec 3).toNat ≤ 4 := by decide +kernel

/-- PulseCorners -/
theorem witness_pulse :
    Fp.lt (Fp.ofWord .binary64 F64.zero) (Fp.ofWord .binary64 F64.half) = true ∧ Fp.lt (Fp.ofWord .binary64 F64.half) (Fp.ofWord .binary64 F64.half) = false ∧
    Fp.le (Fp.ofWord .binary64 F64.zero) .zero = true ∧ Fp.le .zero (Fp.ofWord .binary64 F64.half) = true ∧
    Fp.lt .one (Fp.ofWord .binary64 F64.two) = true ∧ Fp.lt (Fp.ofWord .binary64 F64.half) .one = true ∧
    Fp.eq (Fp.ofWord .binary64 aNan) (Fp.ofWord .binary64 aNan) = false := by decide +kernel

/-- PhaseReturnsAfterPeriod: k = 0, and k = 52 at the last phase. -/
theorem witness_period :
    (0 ≤ 52 ∧ 0 < 2 ^ 0) ∧ (52 < 53 ∧ 0 + 52 ≤ 1074 ∧ 2 ^ 52 - 1 < 2 ^ 52) ∧
    ({ num := .binary64, noise := .unseeded, wave := 2#3, duty := .half, inc := .fin false (2 ^ (1074 - 52)), sinc := none }
      : GenCtx).sinc = none := by decide

/-- FilterCoefficientMap, FilterFollowsLoop -/
theorem witness_filter :
    Params.reference.filtBase = 0x3FE0000000000000#64 ∧ Params.reference.filtStep = 0x3FC0000000000000#64 ∧
    [Fp.one][0]? = some Fp.one := ⟨rfl, rfl, rfl⟩

/-- UpdateChecksInOrder, ConfigErrorIsAtomic: each cause, at the edges of the ranges, and no cause. -/
theorem witness_checks :
    validate (small 0#3 [69#7]) 0 rate = some (.badBlockLen, 0#4) ∧
    validate (small 0#3 [69#7]) 5 rate = some (.badBlockLen, 0#4) ∧
    validate (small 0#3 [69#7]) 1 minusZero = some (.badSampleRate, 0#4) ∧
    validate (small 0#3 [69#7]) 4 plusInf = some (.badSampleRate, 0#4) ∧
    validate (small 5#3 [69#7]) 4 rate = some (.badWaveform, 0#4) ∧
    validate { small 0#3 [69#7] with cfg := { GlobalCfg.reset tiny with cutoff := minusOne } } 4 rate =
      some (.cutoffRange, 0#4) ∧
    validate { small 0#3 [69#7] with cfg := { GlobalCfg.reset tiny with resonance := aNan } } 4 rate =
      some (.resonanceRange, 0#4) ∧
    validate (small 4#3 [69#7]) 4 rate = none := by decide +kernel

/-- SilentUpdateWritesZeros: no voice, and a configuration that no check looks at. -/
theorem witness_silent :
    (small 5#3 []).Inv ∧
    (small 5#3 []).voices = [] ∧ 1 ≤ (1#16 : BitVec 16).toNat ∧ (4#16 : BitVec 16).toNat ≤ tiny.maxBlock ∧
    validRate .binary64 rate = true := by
  refine ⟨small_inv _ _ (by decide) (by decide), ?_⟩
  decide +kernel

/-- UpdateMixesVoicesInOrder, UpdateRemovesDecayedVoices, UpdateFrame: two voices, checks passing, one of
the voices released long before. -/
theorem witness_update :
    (small 2#3 [69#7, 81#7]).Inv ∧
    (small 2#3 [69#7, 81#7]).voices ≠ [] ∧
    validate (small 2#3 [69#7, 81#7]) (4#16 : BitVec 16).toNat rate = none := by
  refine ⟨small_inv _ _ (by decide) (by decide), ?_⟩
  decide +kernel

/-- SlotsAccumulateInOrder -/
theorem witness_slots :
    (blockCtx (small 2#3 [69#7]) 4 F64.zero rate).slots.length ≤ (freshVoice tiny 69#7 F64.zero).osc.length ∧
    3 < (blockCtx (small 2#3 [69#7]) 4 F64.zero rate).n ∧
    (∀ p ∈ (blockCtx (small 2#3 [69#7]) 4 F64.zero rate).slots, p.wave.toNat ≤ 4) := by decide

/-- GainRampEndpoints: the edges of the amplitudes and of the lengths. -/
theorem witness_gain :
    Fp.le .zero (Fp.ofWord .binary64 F64.zero) = true ∧ Fp.le (Fp.ofWord .binary64 F64.zero) .one = true ∧
    Fp.le .zero (Fp.ofWord .binary64 F64.one) = true ∧ Fp.le (Fp.ofWord .binary64 F64.one) .one = true ∧
    2 ≤ 2 ∧ 65535 ≤ 65535 := by decide +kernel

/-- FieldsReadBackAsWritten, OscCountStoresLegalValues: the last slot; 2 is legal with two slots, 3 is not. -/
theorem witness_fields :
    (small 0#3 []).Inv ∧
    1 < tiny.oscSlots ∧ ((0xFF02#64 : Word) &&& 31#64).toNat ≤ (small 0#3 []).params.oscSlots ∧
    (small 0#3 []).params.oscSlots < ((3#64 : Word) &&& 31#64).toNat := by
  refine ⟨small_inv _ _ (by decide) (by decide), ?_⟩
  decide

/-- ReservedAndReadOnlyAddresses, CfgReadResponds: addresses a write cannot change, at the edges of the map
of 20_memory.md R62 with two slots; beside them addresses it can (0x11C is the last register of slot 1). -/
theorem witness_addresses :
    (∀ a ∈ [0x00B, 0x00F, 0x010, 0x013, 0x014, 0x0FF, 0x10D, 0x11F, 0x120, 0x1FF, 0x200, 0xFFF],
      ¬ writableAddr tiny (BitVec.ofNat 12 a)) ∧
    (∀ a ∈ [0x000, 0x00A, 0x100, 0x11C], writableAddr tiny (BitVec.ofNat 12 a)) := by
  unfold writableAddr
  decide

/-- RegisterWriteIdempotent -/
theorem witness_write :
    (small 0#3 []).Inv ∧
    (nextOf (exec (.cfgWrite 0x11C#12 F64.half) (small 0#3 []))).isSome = true := by
  refine ⟨small_inv _ _ (by decide) (by decide), ?_⟩
  decide

/-- OutReadResponds -/
theorem witness_out_read : (4095#16 : BitVec 16).toNat < Params.reference.maxBlock ∧
    Params.reference.maxBlock ≤ (4096#16 : BitVec 16).toNat := by decide

/-- StatusClearByMask -/
theorem witness_masks : (1#2 : BitVec 2).getLsbD 0 = true ∧ (1#2 : BitVec 2).getLsbD 1 = false ∧
    (2#2 : BitVec 2).getLsbD 0 = false ∧ (2#2 : BitVec 2).getLsbD 1 = true := by decide

/-- OnlyUpdateRaisesConfigError: a run of one UPDATE that raises nothing, and a run of one NOTE_ON that drops
nothing. -/
theorem witness_runs :
    (nextOf (Sys2Proof.core.run 1 ((small 2#3 [69#7]).offer [0x40000004#64, 0#64, rate]))).map
      (fun t => t.faultLog) = some [] ∧
    fetch ((small 2#3 [69#7]).offer [0x40000004#64, 0#64, rate]).inbox = .command (.update 4#16 0#64 rate) [] ∧
    fetch ((small 2#3 [69#7]).offer [0x10000051#64, 0#64]).inbox = .command (.noteOn 81#7 0#64) [] ∧
    (small 2#3 [69#7]).status.voiceOvf = false ∧
    (nextOf (Sys2Proof.core.run 1 ((small 2#3 [69#7]).offer [0x10000051#64, 0#64]))).map
      (fun t => t.status.voiceOvf) = some false := by decide +kernel

/-- OnlyUpdateRaisesConfigError, WhoChangesWhat: an UPDATE that raises, from ERR = 0 to ERR = 1. -/
theorem witness_error :
    (small 5#3 [69#7]).status.err = false ∧
    (nextOf (exec (.update 1#16 F64.zero rate) (small 5#3 [69#7]))).map (fun s => s.status.err) = some true := by
  decide +kernel

/-- ScratchBuffersNeverObserved: a run of one step. -/
theorem witness_run : (nextOf (Sys2Proof.core.run 1 (State.reset.offer [0x10000045#64, 0#64]))).map
    (fun s => s.voices.length) = some 1 := by decide

/-- NoiseFreeUpdateIgnoresSource -/
theorem witness_noise_free : ∀ p ∈ (small 3#3 [69#7]).activeSlots, p.wave.toNat < 4 := by decide

/-- StepKeepsInvariant, StepKeepsPhasesInUnit: a state whose next command is an UPDATE with finite
increments (440 ÷ 1760 for key 69). -/
theorem witness_phases :
    let s := (small 2#3 [69#7]).offer [0x40000004#64, 0#64, rate]
    s.Inv ∧ s.phasesInUnit ∧
    (∀ n time sr rest, fetch s.inbox = .command (.update n time sr) rest → s.incrementsFinite sr) ∧
    ∃ t : State, step s = .next t := by
  refine ⟨{ small_inv 2#3 [69#7] (by decide) (by decide) with }, ?_, fun n time sr rest h => ?_, ?_⟩
  · unfold State.phasesInUnit
    decide +kernel
  · have e : fetch ((small 2#3 [69#7]).offer [0x40000004#64, 0#64, rate]).inbox =
        .command (.update 4#16 0#64 rate) [] := by decide
    rw [e] at h
    cases h
    unfold State.incrementsFinite
    decide +kernel
  · have e : (nextOf (step ((small 2#3 [69#7]).offer [0x40000004#64, 0#64, rate]))).isSome = true := by
      decide +kernel
    cases h : step ((small 2#3 [69#7]).offer [0x40000004#64, 0#64, rate]) with
    | next t => exact ⟨t, rfl⟩
    | fault r => rw [h] at e; cases e
    | refused r => rw [h] at e; cases e

end Sys2Proof.Tests
end

/-! The function parameters of 00_scope.md §4: what SIN2PI, POW and NOISE are required to be. -/

namespace Sys2Proof.Machine

/-! ## The values the properties name are distinct -/

/-- With this and `unitMag_pos`, `omega` tells the multiples of 0.25 apart. -/
theorem four_dvd_unitMag : 4 ∣ unitMag := by
  have h : 2 ^ 2 ∣ unitMag := by rw [unitMag_eq]; exact pow_dvd_pow 2 (by norm_num)
  exact h

theorem Fp.fin_ne_fin {s : Bool} {a b : Nat} (h : a ≠ b) : Fp.fin s a ≠ .fin s b := fun e => h (Fp.fin.inj e).2

theorem Fp.one_ne_zero : Fp.one ≠ .zero := Fp.fin_ne_fin unitMag_pos.ne'

theorem Fp.two_ne_zero : Fp.two ≠ .zero := Fp.fin_ne_fin (by have := unitMag_pos; omega)

theorem Fp.two_ne_one : Fp.two ≠ .one := Fp.fin_ne_fin (by have := unitMag_pos; omega)

theorem Fp.half_ne_zero : Fp.half ≠ .zero := by
  have hu := unitMag_pos
  have hd := four_dvd_unitMag
  exact Fp.fin_ne_fin (by omega)

theorem Fp.half_ne_one : Fp.half ≠ .one := Fp.fin_ne_fin (by have := unitMag_pos; omega)

theorem Fp.two_ne_half : Fp.two ≠ .half := Fp.fin_ne_fin (by have := unitMag_pos; omega)

/-! ## Values confined to a bound -/

/-- A confined value has a magnitude of at most the bound. -/
theorem Fp.value_within (c : Nat) (y : Fp) :
    ∃ v : Int, (Fp.within (.fin false c) y).value = some v ∧ -(c : Int) ≤ v ∧ v ≤ c := by
  unfold Fp.within
  split
  · next b v hb hv =>
    obtain rfl : (c : Int) = b := Option.some.inj hb
    split
    · next h => exact ⟨v, hv, h⟩
    · exact ⟨0, rfl, by omega, by omega⟩
  · exact ⟨0, rfl, by omega, by omega⟩

/-- A confined value lies between the bound's negative and the bound, and so within any wider bound. -/
theorem Fp.within_bounds {c b : Nat} (h : c ≤ b) (y : Fp) :
    Fp.le (Fp.within (.fin false c) y) (.fin false b) = true ∧
      Fp.le (.fin true b) (Fp.within (.fin false c) y) = true := by
  obtain ⟨v, hv, hlo, hhi⟩ := Fp.value_within c y
  exact ⟨(Fp.le_iff _ _).mpr ⟨v, b, hv, rfl, by omega⟩, (Fp.le_iff _ _).mpr ⟨-b, v, rfl, hv, by omega⟩⟩

/-! ## NOISE -/

/-- Settles O28: whatever word the source gives, the draw is confined to the bound 1. -/
theorem noiseDrawsInRange : Obligations.NoiseDrawsInRange := fun _ _ _ =>
  (Fp.within_bounds le_rfl _).symm

/-! ## SIN2PI -/

@[simp] theorem sin2pi_zero (nf : NumFormat) : sin2pi nf .zero = .zero := by rw [sin2pi, if_pos rfl]

@[simp] theorem sin2pi_quarter (nf : NumFormat) : sin2pi nf .quarter = .one := by
  have hu := unitMag_pos
  have hd := four_dvd_unitMag
  have h0 : Fp.quarter ≠ .zero := Fp.fin_ne_fin (by omega)
  rw [sin2pi, if_neg h0, if_pos rfl]

@[simp] theorem sin2pi_threeQuarters (nf : NumFormat) : sin2pi nf .threeQuarters = .negOne := by
  have hu := unitMag_pos
  have hd := four_dvd_unitMag
  have h0 : Fp.threeQuarters ≠ .zero := Fp.fin_ne_fin (by omega)
  have h1 : Fp.threeQuarters ≠ .quarter := Fp.fin_ne_fin (by omega)
  rw [sin2pi, if_neg h0, if_neg h1, if_pos rfl]

/-- At 0.5 SIN2PI is confined to 2^−50. -/
theorem sin2pi_half (nf : NumFormat) : ∃ y, sin2pi nf .half = Fp.within (.fin false (unitMag / 2 ^ 50)) y := by
  have hu := unitMag_pos
  have hd := four_dvd_unitMag
  have h1 : Fp.half ≠ .quarter := Fp.fin_ne_fin (by omega)
  have h2 : Fp.half ≠ .threeQuarters := Fp.fin_ne_fin (by omega)
  exact ⟨_, by rw [sin2pi, if_neg Fp.half_ne_zero, if_neg h1, if_neg h2, if_pos rfl]⟩

/-- On [0, 1) SIN2PI is one of the stated values or confined to a bound of at most 1. -/
theorem sin2pi_bounds {nf : NumFormat} {p : Fp} (h0 : Fp.le .zero p = true) (h1 : Fp.lt p .one = true) :
    Fp.le (sin2pi nf p) .one = true ∧ Fp.le .negOne (sin2pi nf p) = true := by
  unfold sin2pi
  simp only [h0, h1, Bool.and_self, if_true]
  split_ifs
  · simp [Fp.le, signedMag]
  · simp [Fp.le, signedMag]
  · simp [Fp.le, signedMag]
  · exact Fp.within_bounds (Nat.div_le_self _ _) _
  · exact Fp.within_bounds le_rfl _

/-- Settles O27, from the four stated values and the bound on [0, 1). -/
theorem sineNamedProperties : Obligations.SineNamedProperties := by
  intro nf
  obtain ⟨y, hy⟩ := sin2pi_half nf
  have hb : unitMag / 2 ^ 50 ≤ 2 ^ 1024 :=
    Nat.div_le_of_le_mul (by rw [unitMag_eq, ← pow_add])
  rw [hy]
  exact ⟨sin2pi_zero nf, sin2pi_quarter nf, sin2pi_threeQuarters nf, (Fp.within_bounds hb y).1,
    (Fp.within_bounds hb y).2, fun p => sin2pi_bounds⟩

/-! ## Powers of two among the values of NUM -/

theorem representable_two_pow {nf : NumFormat} (hf : nf.wellFormed = true) {k : Nat} (hq : nf.quantumExp ≤ k)
    (hk : k < nf.limitExp) : Representable nf (2 ^ k) := by
  obtain ⟨h2, -⟩ := format_bounds hf
  refine ⟨pow_dvd_pow 2 ?_, Nat.pow_lt_pow_right one_lt_two hk⟩
  rw [Nat.log2_two_pow]
  omega

/-- 2^(a − 1074) × 2^(b − 1074) = 2^(c − 1074), exactly, where NUM has the product. -/
theorem Fp.mul_two_pow {nf : NumFormat} (hf : nf.wellFormed = true) {a b c : Nat} (hc : a + b = c + 1074)
    (hq : nf.quantumExp ≤ c) (hk : c < nf.limitExp) :
    Fp.mul nf (.fin false (2 ^ a)) (.fin false (2 ^ b)) = .fin false (2 ^ c) :=
  Fp.ofRatio_exact _ unitMag_pos (by rw [unitMag_eq, ← pow_add, ← pow_add, hc])
    (representable_two_pow hf hq hk)

theorem Fp.half_eq : Fp.half = .fin false (2 ^ 1073) := by
  rw [Fp.half, unitMag_eq, pow_succ, Nat.mul_div_cancel _ two_pos]

theorem Fp.one_eq : Fp.one = .fin false (2 ^ 1074) := by rw [Fp.one, unitMag_eq]

theorem Fp.two_eq : Fp.two = .fin false (2 ^ 1075) := by rw [Fp.two, unitMag_eq, ← pow_succ']

/-! ## Natural numbers as values -/

theorem Fp.ofNat_inj {m n : Nat} : Fp.ofNat m = Fp.ofNat n ↔ m = n := by
  simp [Fp.ofNat, Nat.mul_left_inj unitMag_pos.ne']

theorem Fp.ofNat_zero : Fp.ofNat 0 = .zero := by rw [Fp.ofNat, Nat.zero_mul]

theorem Fp.ofNat_one : Fp.ofNat 1 = .one := by rw [Fp.ofNat, Nat.one_mul]

theorem Fp.ofNat_two : Fp.ofNat 2 = .two := rfl

theorem asNatUpTo_ofNat {bound n : Nat} (h : n ≤ bound) : asNatUpTo bound (Fp.ofNat n) = some n := by
  simp [asNatUpTo, Fp.ofNat, Nat.mul_div_cancel _ unitMag_pos, h]

/-! ## POW -/

theorem Fp.zero_lt_one : Fp.lt .zero .one = true := by simp [Fp.lt, signedMag, unitMag_pos]

theorem Fp.zero_lt_two : Fp.lt .zero .two = true := by simp [Fp.lt, signedMag, unitMag_pos]

@[simp] theorem pow_exponent_zero (nf : NumFormat) (x : Fp) : pow nf x .zero = .one := if_pos rfl

@[simp] theorem pow_base_one (nf : NumFormat) (y : Fp) : pow nf .one y = .one := by
  rw [pow, if_pos (rfl : Fp.one = .one), ite_self]

theorem pow_base_zero (nf : NumFormat) {y : Fp} (h : Fp.lt .zero y = true) : pow nf .zero y = .zero := by
  have hy : y ≠ .zero := by rintro rfl; simp [Fp.lt] at h
  rw [pow, if_neg hy, if_neg Fp.one_ne_zero.symm, if_pos (by simp [h])]

/-- x to the 1 is x, also at x = 1 and x = 0, where an earlier property gives it. -/
@[simp] theorem pow_exponent_one (nf : NumFormat) (x : Fp) : pow nf x .one = x := by
  by_cases h1 : x = .one
  · rw [h1, pow_base_one]
  by_cases h0 : x = .zero
  · rw [h0, pow_base_zero nf Fp.zero_lt_one]
  simp only [pow, Fp.one_ne_zero, h1, h0, decide_false, Bool.false_and, Bool.false_eq_true, if_false, if_true]

/-- x to the 2 is x × x, also at x = 1 and x = 0, where an earlier property gives it. -/
theorem pow_exponent_two {nf : NumFormat} (hf : nf.wellFormed = true) (x : Fp) :
    pow nf x .two = Fp.mul nf x x := by
  by_cases h1 : x = .one
  · rw [h1, pow_base_one, Fp.one_mul_fin false (representable_unit hf)]
  by_cases h0 : x = .zero
  · rw [h0, pow_base_zero nf Fp.zero_lt_two, Fp.zero_mul_fin, Bool.xor_self]
  simp only [pow, Fp.two_ne_zero, Fp.two_ne_one, h1, h0, decide_false, Bool.false_and, Bool.false_eq_true, if_false,
    if_true]

/-- From 3 on no property but the powers of two speaks of a natural exponent. -/
theorem ofNat_ne_of_three_le {n : Nat} (h : 3 ≤ n) :
    Fp.ofNat n ≠ .zero ∧ Fp.ofNat n ≠ .one ∧ Fp.ofNat n ≠ .two := by
  simp only [← Fp.ofNat_zero, ← Fp.ofNat_one, ← Fp.ofNat_two, ne_eq, Fp.ofNat_inj]
  omega

theorem pow_half_of_three_le {nf : NumFormat} {n : Nat} (h3 : 3 ≤ n) (hn : n ≤ 1074)
    (hq : nf.quantumExp ≤ 1074 - n) : pow nf .half (Fp.ofNat n) = .fin false (2 ^ (1074 - n)) := by
  obtain ⟨n0, n1, n2⟩ := ofNat_ne_of_three_le h3
  simp only [pow, n0, n1, n2, Fp.half_ne_one, Fp.half_ne_zero, decide_false, Bool.false_and, Bool.false_eq_true,
    if_false, if_true, asNatUpTo_ofNat hn, if_pos hq]

theorem pow_two_of_three_le {nf : NumFormat} {n : Nat} (h3 : 3 ≤ n) (hn : n ≤ 1023)
    (hk : 1074 + n < nf.limitExp) : pow nf .two (Fp.ofNat n) = .fin false (2 ^ (1074 + n)) := by
  obtain ⟨n0, n1, n2⟩ := ofNat_ne_of_three_le h3
  simp only [pow, n0, n1, n2, Fp.two_ne_one, Fp.two_ne_zero, Fp.two_ne_half, decide_false, Bool.false_and,
    Bool.false_eq_true, if_false, if_true, asNatUpTo_ofNat hn, if_pos hk]

/-- POW(0.5, n) = 2^−n where NUM has it: for n up to 2 the general properties give it. -/
theorem pow_half_ofNat {nf : NumFormat} (hf : nf.wellFormed = true) {n : Nat} (hn : n ≤ 1074)
    (hq : nf.quantumExp ≤ 1074 - n) : pow nf .half (Fp.ofNat n) = .fin false (2 ^ (1074 - n)) := by
  obtain ⟨-, -, -, hl, -⟩ := format_bounds hf
  match n with
  | 0 => rw [Fp.ofNat_zero, pow_exponent_zero, Fp.one_eq]
  | 1 => rw [Fp.ofNat_one, pow_exponent_one, Fp.half_eq]
  | 2 => rw [Fp.ofNat_two, pow_exponent_two hf, Fp.half_eq, Fp.mul_two_pow hf (by norm_num) hq (by omega)]
  | n + 3 => exact pow_half_of_three_le (by omega) hn hq

/-- POW(2, n) = 2^n where NUM has it: for n up to 2 the general properties give it. -/
theorem pow_two_ofNat {nf : NumFormat} (hf : nf.wellFormed = true) {n : Nat} (hn : n ≤ 1023)
    (hk : 1074 + n < nf.limitExp) : pow nf .two (Fp.ofNat n) = .fin false (2 ^ (1074 + n)) := by
  obtain ⟨-, -, hq, -⟩ := format_bounds hf
  match n with
  | 0 => rw [Fp.ofNat_zero, pow_exponent_zero, Fp.one_eq]
  | 1 => rw [Fp.ofNat_one, pow_exponent_one, Fp.two_eq]
  | 2 => rw [Fp.ofNat_two, pow_exponent_two hf, Fp.two_eq, Fp.mul_two_pow hf (by norm_num) (by omega) hk]
  | n + 3 => exact pow_two_of_three_le (by omega) hn hk

/-- Settles O26: the named properties one by one; binary64 has every power of two the rule lists. -/
theorem powNamedProperties : Obligations.PowNamedProperties := by
  intro nf hf
  refine ⟨fun _ => pow_exponent_zero nf _, fun _ => pow_base_one nf _, fun _ => pow_base_zero nf,
    fun _ => pow_exponent_one nf _, fun _ => pow_exponent_two hf _, fun n hn h => ?_, fun n hn h => ?_⟩
  · refine pow_half_ofNat hf hn ?_
    rcases h with rfl | h
    · exact Nat.zero_le _
    · exact h
  · refine pow_two_ofNat hf hn ?_
    rcases h with rfl | h
    · exact (by omega : 1074 + n < 2098)
    · exact h

end Sys2Proof.Machine

/-! What the scratch buffers held is never read: an outcome depends on no word of them. -/

namespace Sys2Proof.Machine

/-! ## A state with other scratch buffers -/

/-- The state with other scratch buffers, in the words written and in those a reset left. -/
def State.withScratch (s : State) (osc note : Cells) (resets : Nat) : State :=
  { s with oscBuf := osc, noteBuf := note, resets := resets }

section
variable (s : State) (a b : Cells) (r : Nat)

@[simp] theorem State.withScratch_params : (s.withScratch a b r).params = s.params := rfl
@[simp] theorem State.withScratch_voices : (s.withScratch a b r).voices = s.voices := rfl
@[simp] theorem State.withScratch_inbox : (s.withScratch a b r).inbox = s.inbox := rfl

@[simp] theorem State.withScratch_take (rest : List PortInput) :
    (s.withScratch a b r).take rest = (s.take rest).withScratch a b r := rfl

/-- A register write neither reads nor writes a scratch buffer. -/
@[simp] theorem regWrite_withScratch (addr : BitVec 12) (w : Word) :
    regWrite (s.withScratch a b r) addr w = (regWrite s addr w).withScratch a b r := by
  simp only [regWrite, State.withScratch_params]
  split <;> rfl

/-- Neither does taking ConfigError. -/
@[simp] theorem raiseConfigError_withScratch (c : Cause) (k : BitVec 4) (n : Nat) :
    raiseConfigError c k n (s.withScratch a b r) = (raiseConfigError c k n s).withScratch a b r := by
  simp only [raiseConfigError_eq]
  rfl

@[simp] theorem validate_withScratch (n : Nat) (sr : F64) :
    validate (s.withScratch a b r) n sr = validate s n sr := rfl

@[simp] theorem renderBlock_withScratch (n : Nat) (time sr : F64) :
    renderBlock (s.withScratch a b r) n time sr = renderBlock s n time sr := rfl

end

/-! ## Commands, steps and runs -/

/-- If `o` ends in a next state, so does `o'`, and in one that differs only in the scratch buffers. -/
def SameButScratch (o o' : Host.Outcome State Fault Refusal) : Prop :=
  ∀ t, o = .next t → ∃ a b r, o' = .next (t.withScratch a b r)

theorem sameButScratch_next (t : State) (a b : Cells) (r : Nat) :
    SameButScratch (.next t) (.next (t.withScratch a b r)) := by
  rintro _ ⟨⟩
  exact ⟨a, b, r, rfl⟩

section
variable (s : State) (a b : Cells) (r : Nat)

theorem exec_noteOn_withScratch (key : Key) (time : F64) :
    SameButScratch (exec (.noteOn key time) s) (exec (.noteOn key time) (s.withScratch a b r)) := by
  simp only [exec, execNoteOn, State.withScratch_voices]
  cases findVoice key s.voices with
  | some v => exact sameButScratch_next _ a b r
  | none =>
    by_cases h : s.params.maxVoices ≤ s.voices.length
    · simp only [State.withScratch_params, h, if_true]
      exact sameButScratch_next _ a b r
    · simp only [State.withScratch_params, h, if_false]
      exact sameButScratch_next _ a b r

theorem exec_noteOff_withScratch (key : Key) (time : F64) :
    SameButScratch (exec (.noteOff key time) s) (exec (.noteOff key time) (s.withScratch a b r)) := by
  simp only [exec, execNoteOff, State.withScratch_voices]
  cases findVoice key s.voices <;> exact sameButScratch_next _ a b r

/-- The checks and the rendered block read no scratch buffer; storing the block writes them. -/
theorem exec_update_withScratch (n : BitVec 16) (time sr : F64) :
    SameButScratch (exec (.update n time sr) s) (exec (.update n time sr) (s.withScratch a b r)) := by
  simp only [exec, execUpdate, updateOutcome, validate_withScratch, renderBlock_withScratch,
    raiseConfigError_withScratch, State.withScratch_voices]
  cases validate s n.toNat sr with
  | some ck => exact sameButScratch_next _ a b r
  | none =>
    by_cases h : s.voices.isEmpty = true
    · simp only [h, if_true]
      exact sameButScratch_next _ a b r
    · simp only [h]
      exact sameButScratch_next (storeBlock (renderBlock s n.toNat time sr) s) _ _ r

theorem exec_withScratch (i : Instr) : SameButScratch (exec i s) (exec i (s.withScratch a b r)) := by
  cases i with
  | noteOn key time => exact exec_noteOn_withScratch s a b r key time
  | noteOff key time => exact exec_noteOff_withScratch s a b r key time
  | update n time sr => exact exec_update_withScratch s a b r n time sr
  | cfgWrite addr w =>
    simp only [exec, execCfgWrite, regWrite_withScratch]
    exact sameButScratch_next _ a b r
  | reset => exact sameButScratch_next (resetEngine s) [] [] (r + 1)
  | allNotesOff | cfgRead | outRead | statusClear | nop | rsvd9 | rsvdA | rsvdB | rsvdC | rsvdD | rsvdE =>
    exact sameButScratch_next _ a b r

theorem step_withScratch : SameButScratch (step s) (step (s.withScratch a b r)) := by
  simp only [step, State.withScratch_inbox, State.withScratch_take]
  cases fetch s.inbox with
  | command i rest => exact exec_withScratch (s.take rest) a b r i
  | reset rest => exact sameButScratch_next (resetByPin rest s) [] [] (r + 1)
  | waiting => exact sameButScratch_next s a b r

end

theorem run_withScratch (k : Nat) (s : State) (a b : Cells) (r : Nat) :
    SameButScratch (Sys2Proof.core.run k s) (Sys2Proof.core.run k (s.withScratch a b r)) := by
  induction k generalizing s a b r with
  | zero => exact sameButScratch_next s a b r
  | succ k ih =>
    intro t ht
    obtain ⟨s', hs, hk⟩ := run_succ_next ht
    obtain ⟨a', b', r', hs'⟩ := step_withScratch s a b r s' hs
    rw [run_succ hs']
    exact ih s' a' b' r' t hk

/-- Settles O56: by induction over the run, since no step reads a scratch buffer. -/
theorem scratchBuffersNeverObserved : Obligations.ScratchBuffersNeverObserved := by
  intro k s t a b r ht
  obtain ⟨a', b', r', h⟩ := run_withScratch k s a b r t ht
  exact ⟨t.withScratch a' b' r', a', b', r', h, rfl, rfl⟩

end Sys2Proof.Machine

/-! Every phase stays in [0, 1): the wrap takes a finite sum of a phase and an increment back into it. -/

namespace Sys2Proof.Machine

section
variable {nf : NumFormat}

/-! ## Phases and increments as values -/

/-- A value of NUM in [0, 1). -/
def Fp.IsPhase (nf : NumFormat) (x : Fp) : Prop :=
  x.Proper nf ∧ Fp.le .zero x = true ∧ Fp.lt x .one = true

/-- A finite value of NUM that is not negative. -/
def Fp.IsIncrement (nf : NumFormat) (x : Fp) : Prop :=
  x.Proper nf ∧ finiteIncrement x = true

theorem unitPhase_iff (hf : nf.wellFormed = true) (w : F64) :
    unitPhase nf w = true ↔ (Fp.ofWord nf w).IsPhase nf := by
  simp [unitPhase, Fp.IsPhase, Fp.ofWord_proper hf]

theorem Fp.IsPhase.unitPhase_toWord (hf : nf.wellFormed = true) {x : Fp} (h : x.IsPhase nf) :
    unitPhase nf x.toWord = true := by
  rw [unitPhase_iff hf, Fp.ofWord_toWord hf h.1]
  exact h

theorem Fp.isPhase_zero : Fp.IsPhase nf .zero :=
  ⟨representable_zero nf, by simp [Fp.le], by simp [Fp.lt, signedMag, unitMag_pos]⟩

theorem Fp.isPhase_iff (hf : nf.wellFormed = true) (x : Fp) : x.IsPhase nf ↔
    ∃ s m, x = .fin s m ∧ Representable nf m ∧ 0 ≤ signedMag s m ∧ signedMag s m < unitMag := by
  constructor
  · rintro ⟨hx, h0, h1⟩
    cases x with
    | fin s m => exact ⟨s, m, rfl, hx, by simpa [Fp.le] using h0, by simpa [Fp.lt, signedMag] using h1⟩
    | nan p => simp [Fp.le] at h0
    | inf s =>
      have hu := (representable_unit hf).lt_infMag hf
      cases s <;> simp [Fp.le, Fp.lt, signedMag] at h0 h1 <;> omega
  · rintro ⟨s, m, rfl, hm, h0, h1⟩
    exact ⟨hm, by simpa [Fp.le] using h0, by simpa [Fp.lt, signedMag] using h1⟩

theorem Fp.isIncrement_iff (hf : nf.wellFormed = true) (x : Fp) :
    x.IsIncrement nf ↔ ∃ s m, x = .fin s m ∧ Representable nf m ∧ 0 ≤ signedMag s m := by
  constructor
  · rintro ⟨hx, hi⟩
    simp only [finiteIncrement, Bool.and_eq_true] at hi
    obtain ⟨h0, h1⟩ := hi
    cases x with
    | fin s m => exact ⟨s, m, rfl, hx, by simpa [Fp.le] using h0⟩
    | nan p => simp [Fp.le] at h0
    | inf s =>
      have hp := infMag_pos
      cases s <;> simp [Fp.le, Fp.lt, signedMag] at h0 h1
      omega
  · rintro ⟨s, m, rfl, hm, h0⟩
    have hi := hm.lt_infMag hf
    have h1 : signedMag s m < signedMag false infMag := by cases s <;> simp [signedMag] <;> omega
    exact ⟨hm, by simp [finiteIncrement, Fp.le, Fp.lt, h0, h1]⟩

/-! ## The advance of a phase -/

/-- A sum that is not negative and does not overflow is a finite value that is not negative. -/
theorem Fp.ofInt_isIncrement (hf : nf.wellFormed = true) {z : Int} (h0 : 0 ≤ z)
    (h : roundMag nf z.natAbs 1 < 2 ^ nf.limitExp) (b : Bool) : (Fp.ofInt nf z b).IsIncrement nf := by
  rw [Fp.isIncrement_iff hf]
  unfold Fp.ofInt
  split
  · exact ⟨b, 0, rfl, representable_zero nf, by simp⟩
  · have hs : decide (z < 0) = false := decide_eq_false (by omega)
    refine ⟨false, _, ?_, roundMag_representable hf h, by simp [signedMag]⟩
    rw [hs, Fp.ofRatio, if_pos h]

/-- A phase is below 1, so that adding it to a finite increment does not overflow. -/
theorem Fp.IsPhase.add_isIncrement (hf : nf.wellFormed = true) {x y : Fp} (hx : x.IsPhase nf)
    (hy : y.IsIncrement nf) : (Fp.add nf x y).IsIncrement nf := by
  obtain ⟨s, a, rfl, -, ha0, ha1⟩ := (Fp.isPhase_iff hf x).mp hx
  obtain ⟨t, b, rfl, hb, hb0⟩ := (Fp.isIncrement_iff hf y).mp hy
  have ha : a ≤ unitMag := by cases s <;> simp [signedMag] at ha0 ha1 <;> omega
  have hab : (signedMag s a + signedMag t b).natAbs = b + a := by
    rw [Int.natAbs_add_of_nonneg ha0 hb0, natAbs_signedMag, natAbs_signedMag, Nat.add_comm]
  refine Fp.ofInt_isIncrement hf (by omega) ?_ _
  rw [hab]
  exact hb.add_unit hf ha

/-- The wrap of a finite value that is not negative is its fractional part, exactly. -/
theorem Fp.IsIncrement.wrap_isPhase (hf : nf.wellFormed = true) {x : Fp} (hx : x.IsIncrement nf) :
    (wrap nf x).IsPhase nf := by
  obtain ⟨s, m, rfl, hm, h0⟩ := (Fp.isIncrement_iff hf x).mp hx
  unfold wrap
  split
  · next h1 =>
    obtain rfl : s = false := by
      cases s
      · rfl
      · have hu := unitMag_pos
        simp [Fp.le, signedMag] at h1
        omega
    have hv := Fp.value_sub_floor hf hm
    have hlt := Nat.mod_lt m unitMag_pos
    exact ⟨Fp.sub_proper hf _ _, (Fp.le_iff _ _).mpr ⟨0, _, rfl, hv, by omega⟩,
      (Fp.lt_iff _ _).mpr ⟨_, unitMag, hv, rfl, by omega⟩⟩
  · next h1 =>
    exact (Fp.isPhase_iff hf _).mpr ⟨s, m, rfl, hm, h0, by simpa [Fp.le, signedMag] using h1⟩

/-- A sync accumulator below 1 needs no wrap, so both its courses leave the wrapped sum. -/
theorem advancePhases_sync {c : GenCtx} {sinc : Fp} (h : c.sinc = some sinc) (ph sp : Fp) :
    advancePhases c ph sp =
      (if Fp.le .one (Fp.add c.num sp sinc) then .zero else wrap c.num (Fp.add c.num ph c.inc),
        wrap c.num (Fp.add c.num sp sinc)) := by
  simp only [advancePhases, h]
  split
  · rfl
  · next hs => simp only [wrap, hs]; rfl

end

/-! ## A block of samples -/

/-- The increments of a block are finite and not negative. -/
def GenCtx.IncrementsFinite (c : GenCtx) : Prop :=
  c.inc.IsIncrement c.num ∧ ∀ sinc, c.sinc = some sinc → sinc.IsIncrement c.num

/-- Both phases of a slot under way are in [0, 1). -/
def GenState.PhasesInUnit (nf : NumFormat) (g : GenState) : Prop :=
  g.phase.IsPhase nf ∧ g.sync.IsPhase nf

theorem genSample_phasesInUnit {c : GenCtx} (hf : c.num.wellFormed = true) (hc : c.IncrementsFinite)
    {g : GenState} (hg : g.PhasesInUnit c.num) : (genSample c g).2.PhasesInUnit c.num := by
  obtain ⟨hinc, hsinc⟩ := hc
  obtain ⟨hph, hsp⟩ := hg
  have hph' := (hph.add_isIncrement hf hinc).wrap_isPhase hf
  show Fp.IsPhase c.num (advancePhases c g.phase g.sync).1 ∧
    Fp.IsPhase c.num (advancePhases c g.phase g.sync).2
  cases hs : c.sinc with
  | none =>
    simp only [advancePhases, hs]
    exact ⟨hph', hsp⟩
  | some sinc =>
    rw [advancePhases_sync hs]
    refine ⟨?_, (hsp.add_isIncrement hf (hsinc sinc hs)).wrap_isPhase hf⟩
    dsimp only
    split
    · exact Fp.isPhase_zero
    · exact hph'

theorem genSamples_phasesInUnit {c : GenCtx} (hf : c.num.wellFormed = true) (hc : c.IncrementsFinite)
    (n : Nat) {g : GenState} (hg : g.PhasesInUnit c.num) : (genSamples c n g).2.PhasesInUnit c.num := by
  induction n generalizing g with
  | zero => exact hg
  | succ n ih => exact ih (genSample_phasesInUnit hf hc hg)

/-! ## Slots and voices -/

/-- Both phases of an oscillator state are in [0, 1). -/
def OscState.PhasesInUnit (nf : NumFormat) (o : OscState) : Prop :=
  unitPhase nf o.phase = true ∧ unitPhase nf o.syncPhase = true

/-- Every phase of a voice is in [0, 1). -/
def Voice.PhasesInUnit (nf : NumFormat) (v : Voice) : Prop := ∀ o ∈ v.osc, o.PhasesInUnit nf

/-- The increments of a slot for a key at a sample rate are finite and not negative (10_state.md R32). -/
def SlotCfg.IncrementsFinite (ps : Params) (key : Key) (sr : Fp) (p : SlotCfg) : Prop :=
  finiteIncrement (Fp.div ps.num (noteFreq ps key p.detune) sr) = true ∧
    (p.sync = true → finiteIncrement (Fp.div ps.num (noteFreq ps key p.syncDetune) sr) = true)

section
variable {ps : Params} (hf : ps.num.wellFormed = true)
include hf

theorem SlotCfg.IncrementsFinite.genCtx {p : SlotCfg} {key : Key} {sr : Fp}
    (h : p.IncrementsFinite ps key sr) : (genCtx ps p key sr).IncrementsFinite := by
  refine ⟨⟨Fp.div_proper hf _ _, h.1⟩, fun sinc hs => ?_⟩
  cases hp : p.sync with
  | false => simp [Machine.genCtx, hp] at hs
  | true =>
    obtain rfl : Fp.div ps.num (noteFreq ps key p.syncDetune) sr = sinc := by
      simpa [Machine.genCtx, hp] using hs
    exact ⟨Fp.div_proper hf _ _, h.2 hp⟩

theorem generate_phasesInUnit {p : SlotCfg} {key : Key} {sr : Fp} (h : p.IncrementsFinite ps key sr) (n : Nat)
    {o : OscState} (ho : o.PhasesInUnit ps.num) (d : Nat) :
    (generate ps p key n sr o d).osc.PhasesInUnit ps.num := by
  obtain ⟨hph, hsp⟩ := ho
  rw [unitPhase_iff hf] at hph hsp
  obtain ⟨h1, h2⟩ := genSamples_phasesInUnit (c := genCtx ps p key sr) hf (h.genCtx hf) n
    (g := { phase := Fp.ofWord ps.num o.phase, sync := Fp.ofWord ps.num o.syncPhase, draws := d }) ⟨hph, hsp⟩
  exact ⟨h1.unitPhase_toWord hf, h2.unitPhase_toWord hf⟩

end

section
variable {b : BlockCtx} (hf : b.params.num.wellFormed = true)
include hf

theorem renderSlots_phasesInUnit (v : Voice) : ∀ (ps : List SlotCfg) (os : List OscState) (acc : SlotAcc),
    (∀ p ∈ ps, p.IncrementsFinite b.params v.key b.sr) → (∀ o ∈ os, o.PhasesInUnit b.params.num) →
    ∀ o ∈ (renderSlots b v ps os acc).1, o.PhasesInUnit b.params.num
  | [], _, _, _, ho => ho
  | _ :: _, [], _, _, ho => ho
  | p :: ps, o :: os, acc, hp, ho => by
    rw [List.forall_mem_cons] at hp ho
    exact List.forall_mem_cons.mpr ⟨generate_phasesInUnit hf hp.1 b.n ho.1 acc.draws,
      renderSlots_phasesInUnit v ps os (renderSlot b v p o acc).2 hp.2 ho.2⟩

theorem renderVoice_phasesInUnit {v : Voice} (hp : ∀ p ∈ b.slots, p.IncrementsFinite b.params v.key b.sr)
    (hv : v.PhasesInUnit b.params.num) {acc : MixAcc} (hk : ∀ u ∈ acc.kept, u.PhasesInUnit b.params.num) :
    ∀ u ∈ (renderVoice b v acc).kept, u.PhasesInUnit b.params.num := by
  simp only [renderVoice]
  split
  · exact hk
  · rw [List.forall_mem_append, List.forall_mem_singleton]
    exact ⟨hk, renderSlots_phasesInUnit hf v b.slots v.osc _ hp hv⟩

theorem renderVoices_phasesInUnit : ∀ (vs : List Voice) (acc : MixAcc),
    (∀ v ∈ vs, ∀ p ∈ b.slots, p.IncrementsFinite b.params v.key b.sr) →
    (∀ v ∈ vs, v.PhasesInUnit b.params.num) → (∀ u ∈ acc.kept, u.PhasesInUnit b.params.num) →
    ∀ u ∈ (renderVoices b vs acc).kept, u.PhasesInUnit b.params.num
  | [], _, _, _, hk => hk
  | v :: vs, acc, hp, hv, hk => by
    rw [List.forall_mem_cons] at hp hv
    exact renderVoices_phasesInUnit vs _ hp.2 hv.2 (renderVoice_phasesInUnit hf hp.1 hv.1 hk)

end

/-! ## Note events -/

section
variable {nf : NumFormat}

/-- A change of the slots in use that leaves their phases leaves them in [0, 1). -/
theorem mapActive_phasesInUnit {f : SlotCfg → OscState → OscState}
    (hf : ∀ p o, (f p o).phase = o.phase ∧ (f p o).syncPhase = o.syncPhase) :
    ∀ (ps : List SlotCfg) (os : List OscState), (∀ o ∈ os, o.PhasesInUnit nf) →
      ∀ o ∈ mapActive f ps os, o.PhasesInUnit nf
  | [], _, ho => ho
  | _ :: _, [], ho => ho
  | p :: ps, o :: os, ho => by
    rw [List.forall_mem_cons] at ho
    refine List.forall_mem_cons.mpr ⟨?_, mapActive_phasesInUnit hf ps os ho.2⟩
    rw [OscState.PhasesInUnit, (hf p o).1, (hf p o).2]
    exact ho.1

theorem retrigger_phasesInUnit (c : GlobalCfg) (slots : List SlotCfg) (time : F64) {v : Voice}
    (hv : v.PhasesInUnit nf) : (retrigger nf c slots time v).PhasesInUnit nf := by
  refine mapActive_phasesInUnit ?_ slots v.osc hv
  exact fun _ _ => ⟨rfl, rfl⟩

theorem release_phasesInUnit (c : GlobalCfg) (slots : List SlotCfg) (time : F64) {v : Voice}
    (hv : v.PhasesInUnit nf) : (release nf c slots time v).PhasesInUnit nf := by
  refine mapActive_phasesInUnit ?_ slots v.osc hv
  exact fun _ _ => ⟨rfl, rfl⟩

theorem freshVoice_phasesInUnit (ps : Params) (key : Key) (time : F64) :
    (freshVoice ps key time).PhasesInUnit nf := by
  intro o ho
  obtain rfl := List.eq_of_mem_replicate ho
  have h0 : unitPhase nf F64.zero = true := by simp [unitPhase, Fp.le, Fp.lt, signedMag, unitMag_pos]
  exact ⟨h0, h0⟩

theorem modifyVoice_phasesInUnit (key : Key) {f : Voice → Voice}
    (hf : ∀ v, v.PhasesInUnit nf → (f v).PhasesInUnit nf) {vs : List Voice}
    (hv : ∀ v ∈ vs, v.PhasesInUnit nf) : ∀ v ∈ modifyVoice key f vs, v.PhasesInUnit nf := by
  intro u hu
  obtain ⟨v, hm, rfl | rfl⟩ := mem_modifyVoice hu
  · exact hv u hm
  · exact hf v (hv v hm)

end

/-! ## Commands and steps -/

theorem State.phasesInUnit_of_no_voices {s : State} (h : s.voices = []) : s.phasesInUnit := by
  simp [State.phasesInUnit, h]

theorem exec_noteOn_phasesInUnit {s t : State} (hs : s.phasesInUnit) {key : Key} {time : F64}
    (h : exec (.noteOn key time) s = .next t) : t.phasesInUnit := by
  rcases exec_noteOn_cases key time s with ⟨-, e⟩ | ⟨-, -, e⟩ | ⟨-, -, e⟩ <;> rw [e] at h <;> cases h
  · exact modifyVoice_phasesInUnit key (fun _ => retrigger_phasesInUnit _ _ time) hs
  · exact hs
  · exact List.forall_mem_append.mpr
      ⟨hs, List.forall_mem_singleton.mpr (freshVoice_phasesInUnit s.params key time)⟩

theorem exec_noteOff_phasesInUnit {s t : State} (hs : s.phasesInUnit) {key : Key} {time : F64}
    (h : exec (.noteOff key time) s = .next t) : t.phasesInUnit := by
  rcases exec_noteOff_cases key time s with ⟨-, e⟩ | ⟨-, e⟩ <;> rw [e] at h <;> cases h
  · exact modifyVoice_phasesInUnit key (fun _ => release_phasesInUnit _ _ time) hs
  · exact hs

theorem exec_update_phasesInUnit {s t : State} (hw : s.params.num.wellFormed = true) (hs : s.phasesInUnit)
    {n : BitVec 16} {time sr : F64} (hi : s.incrementsFinite sr)
    (h : exec (.update n time sr) s = .next t) : t.phasesInUnit := by
  rcases exec_update_cases n time sr s with ⟨c, k, -, e⟩ | ⟨-, -, e⟩ | ⟨-, -, e⟩ <;> rw [e] at h <;> cases h
  · rw [raiseConfigError_eq]
    exact hs
  · exact hs
  · exact renderVoices_phasesInUnit (b := blockCtx s n.toNat time sr) hw s.voices _ hi hs
      (List.forall_mem_nil _)

/-- The other commands leave the phases, or no voice. -/
theorem exec_phasesInUnit {i : Instr} {s t : State} (hw : s.params.num.wellFormed = true) (hs : s.phasesInUnit)
    (hi : ∀ n time sr, i = .update n time sr → s.incrementsFinite sr) (h : exec i s = .next t) :
    t.phasesInUnit := by
  cases i with
  | noteOn key time => exact exec_noteOn_phasesInUnit hs h
  | noteOff key time => exact exec_noteOff_phasesInUnit hs h
  | update n time sr => exact exec_update_phasesInUnit hw hs (hi n time sr rfl) h
  | allNotesOff | reset => cases h; exact State.phasesInUnit_of_no_voices rfl
  | cfgWrite addr w => cases h; rw [regWrite_eq]; exact hs
  | cfgRead | outRead | statusClear => cases h; exact hs
  | nop | rsvd9 | rsvdA | rsvdB | rsvdC | rsvdD | rsvdE => cases h; exact hs

/-- Settles O59: a command keeps the phases in range, and after `rst` there is no voice. -/
theorem stepKeepsPhasesInUnit : Obligations.StepKeepsPhasesInUnit := by
  intro s t hinv hs hi h
  have hw := ((Params.wellFormed_iff s.params).mp hinv.params_wf).1
  rcases step_cases s with ⟨i, rest, hfetch, e⟩ | ⟨rest, -, e⟩ | ⟨-, e⟩ <;> rw [e] at h
  · refine exec_phasesInUnit (s := s.take rest) hw hs (fun n time sr hu => ?_) h
    exact hi n time sr rest (hu ▸ hfetch)
  · cases h
    exact State.phasesInUnit_of_no_voices rfl
  · cases h
    exact hs

end Sys2Proof.Machine

/-! The state right after reset, the registers and STATUS as words, and what each command leaves alone. -/

namespace Sys2Proof.Machine

/-! ## Reset -/

theorem statusWord_reset : statusWord Status.reset = 0#64 := by decide

/-- Settles O1: the tables of R23 and R24 are what `State.resetWith` holds; an unlisted word of OUT is +0. -/
theorem resetStateValues : Obligations.ResetStateValues :=
  ⟨fun _ => ⟨rfl, rfl, rfl, rfl, statusWord_reset, rfl, fun _ => ite_self _, fun _ => rfl, fun _ => rfl⟩,
    rfl, rfl, rfl, rfl, rfl, rfl, rfl, rfl⟩

theorem resetWith_inv {p : Params} (hp : p.wellFormed = true) : (State.resetWith p).Inv where
  params_wf := hp
  slots_length := List.length_replicate
  osc_count := ((Params.wellFormed_iff p).mp hp).2.1
  voices_length := Nat.zero_le _
  keys_distinct := List.nodup_nil
  osc_length := List.forall_mem_nil _
  no_error := fun _ => ⟨rfl, rfl⟩
  error_cause := nofun
  error_slot := .inl rfl
  out_wf := rfl
  out_below := rfl
  osc_buf := ⟨rfl, rfl⟩
  note_buf := ⟨rfl, rfl⟩
  error_logged := nofun

/-- Settles O2: right after reset there is no voice, no error and nothing in a buffer. -/
theorem resetMeetsInvariant : Obligations.ResetMeetsInvariant :=
  ⟨fun _ hp => ⟨resetWith_inv hp, List.forall_mem_nil _⟩, resetWith_inv (by decide)⟩

/-! ## Register fields -/

/-- The low bits of a word read back with the other bits 0. -/
theorem setWidth_extractLow (w : Word) {n : Nat} (hn : n ≤ 64) :
    (w.extractLsb' 0 n).setWidth 64 = w &&& BitVec.ofNat 64 (2 ^ n - 1) := by
  have hp : 2 ^ n ≤ 2 ^ 64 := Nat.pow_le_pow_right two_pos hn
  have h1 := Nat.two_pow_pos n
  have h2 := Nat.mod_lt w.toNat h1
  apply BitVec.eq_of_toNat_eq
  rw [BitVec.toNat_and, BitVec.toNat_ofNat, Nat.mod_eq_of_lt (by omega : 2 ^ n - 1 < 2 ^ 64),
    Nat.and_two_pow_sub_one_eq_mod, BitVec.toNat_setWidth, BitVec.extractLsb'_toNat, Nat.shiftRight_zero,
    Nat.mod_eq_of_lt (by omega)]

theorem setWidth_getLsbD_zero (w : Word) : (BitVec.ofBool (w.getLsbD 0)).setWidth 64 = w &&& 1#64 := by
  have h : BitVec.ofBool (w.getLsbD 0) = w.extractLsb' 0 1 := by
    ext i hi
    obtain rfl : i = 0 := by omega
    simp
  rw [h]
  exact setWidth_extractLow w (by norm_num)

section
variable {s : State} {a : BitVec 12}

/-- A slot the hardware has after a change of it. -/
theorem slot_modify_self {k : Nat} (hk : k < s.slots.length) (f : SlotCfg → SlotCfg) :
    (s.setSlots (s.slots.modify k f)).slot k = f (s.slot k) := by
  rw [slot_setSlots_modify, if_pos ⟨rfl, hk⟩]

theorem regRead_regWrite_global {f : GlobalField} (h : decodeReg s.params a = .global f) (w : Word) :
    regRead (regWrite s a w) a = w := by
  simp [regRead, regWrite, h]

theorem regRead_regWrite_slotNum {k : Nat} {f : SlotField} (h : decodeReg s.params a = .slotNum k f)
    (hk : k < s.slots.length) (w : Word) : regRead (regWrite s a w) a = w := by
  simp [regRead, regWrite, h, slot_modify_self hk]

theorem regRead_regWrite_slotWave {k : Nat} (h : decodeReg s.params a = .slotWave k)
    (hk : k < s.slots.length) (w : Word) : regRead (regWrite s a w) a = w &&& 7#64 := by
  have e : regRead (regWrite s a w) a = (w.extractLsb' 0 3).setWidth 64 := by
    simp only [regRead, regWrite, h, State.setSlots_params, slot_modify_self hk]
  rw [e]
  exact setWidth_extractLow w (by norm_num)

theorem regRead_regWrite_slotSync {k : Nat} (h : decodeReg s.params a = .slotSync k)
    (hk : k < s.slots.length) (w : Word) : regRead (regWrite s a w) a = w &&& 1#64 := by
  rw [← setWidth_getLsbD_zero]
  simp only [regRead, regWrite, h, State.setSlots_params, slot_modify_self hk]

end

/-- Settles O45: each address names its field, and the field holds what a write left. -/
theorem fieldsReadBackAsWritten : Obligations.FieldsReadBackAsWritten := by
  intro s w hinv
  obtain ⟨-, -, h16, -⟩ := (Params.wellFormed_iff s.params).mp hinv.params_wf
  have slot : ∀ {k o : Nat}, k < s.params.oscSlots → o < 16 →
      decodeReg s.params (slotAddr k o) = slotReg k o := decodeReg_slotAddr h16
  refine ⟨fun f => ⟨_, rfl, regRead_regWrite_global (decodeReg_globalAddr _ f) w⟩, fun k f hk => ?_, fun k hk => ?_⟩
  · have hd := (slot hk f.offset_lt).trans (slotReg_offset k f)
    exact ⟨_, rfl, regRead_regWrite_slotNum hd (hinv.slots_length ▸ hk) w⟩
  · have hl : k < s.slots.length := hinv.slots_length ▸ hk
    exact ⟨⟨_, rfl, regRead_regWrite_slotWave (slot hk (by norm_num)) hl w⟩,
      ⟨_, rfl, regRead_regWrite_slotSync (slot hk (by norm_num)) hl w⟩⟩

theorem exec_cfgWrite_oscCount (s : State) (w : Word) :
    exec (.cfgWrite 0x00A#12 w) s = .next (s.setCfg (writeOscCount s.params w s.cfg)) := rfl

/-- Settles O46: OSC_COUNT's field is bits [4:0] of the word. -/
theorem oscCountStoresLegalValues : Obligations.OscCountStoresLegalValues := by
  intro s w
  have hb : (w.extractLsb' 0 5).setWidth 64 = w &&& 31#64 := setWidth_extractLow w (by norm_num)
  have hn : (w.extractLsb' 0 5).toNat = (w &&& 31#64).toNat := by
    rw [← hb, BitVec.toNat_setWidth_of_le (by norm_num)]
  rw [exec_cfgWrite_oscCount, writeOscCount, hn]
  refine ⟨fun h => ⟨_, rfl, ?_, rfl⟩, fun h => ?_⟩
  · rw [if_pos h]
    exact hb
  · rw [if_neg (by omega)]
    rfl

/-! ## STATUS -/

/-- A field of a word at bit `lo`. -/
theorem getLsbD_field {n : Nat} (x : BitVec n) {lo : Nat} (h : lo + n ≤ 64) (i : Nat) :
    (x.setWidth 64 <<< lo).getLsbD i = if lo ≤ i ∧ i < lo + n then x.getLsbD (i - lo) else false := by
  by_cases hi : lo ≤ i ∧ i < lo + n
  · have h1 : i < 64 := by omega
    simp [hi, h1]
  · by_cases h1 : i < lo
    · simp [h1, hi]
    · simp [hi, BitVec.getLsbD_of_ge x (i - lo) (by omega)]

theorem getLsbD_setWidth_ofBool (b : Bool) (i : Nat) :
    ((BitVec.ofBool b).setWidth 64).getLsbD i = if i = 0 then b else false := by
  have h := getLsbD_field (BitVec.ofBool b) (lo := 0) (by norm_num) i
  rw [BitVec.shiftLeft_zero] at h
  rw [h]
  by_cases hi : i = 0
  · simp [hi]
  · simp [hi]

/-- Settles O53: the four fields lie at separate bits, and err_irq is the lowest. -/
theorem statusWordLayout : Obligations.StatusWordLayout := by
  have bits : ∀ (st : Status) (i : Nat), (statusWord st).getLsbD i =
      (if i = 0 then st.err
       else if 4 ≤ i ∧ i ≤ 7 then st.cause.getLsbD (i - 4)
       else if 8 ≤ i ∧ i ≤ 11 then st.errSlot.getLsbD (i - 8)
       else if i = 12 then st.voiceOvf
       else false) := by
    intro st i
    rw [statusWord, BitVec.getLsbD_or, BitVec.getLsbD_or, BitVec.getLsbD_or, getLsbD_setWidth_ofBool,
      getLsbD_field _ (by norm_num), getLsbD_field _ (by norm_num), getLsbD_field _ (by norm_num)]
    grind
  exact fun s i => ⟨bits s.status i, (bits s.status 0).symm⟩

/-! ## The frame of UPDATE -/

/-- A scratch word beyond a block write keeps its value. -/
theorem scratchWord_storeBlock (free : Nat → Word) {ws : List Word} (m : Cells) {i : Nat} (h : ws.length ≤ i) :
    scratchWord free (Cells.storeBlock ws m) i = scratchWord free m i := by
  rw [scratchWord, Cells.find_storeBlock, if_neg (by omega), scratchWord]

/-- A rendered block has at most N words for each scratch buffer. -/
theorem renderBlock_scratch_length (s : State) (n : Nat) (time sr : F64) :
    (renderBlock s n time sr).osc.length ≤ n ∧ (renderBlock s n time sr).note.length ≤ n :=
  (renderVoices_lengths (blockCtx s n time sr) s.voices (mixStart s n) List.length_replicate
    (Nat.zero_le _) (Nat.zero_le _)).2

/-- Settles O43: the silence path writes OUT alone, and a rendered block is stored in words below N. -/
theorem updateFrame : Obligations.UpdateFrame := by
  intro s n time sr hv
  rcases exec_update_cases n time sr s with ⟨c, k, hc, -⟩ | ⟨-, -, e⟩ | ⟨-, hne, e⟩
  · rw [hv] at hc
    cases hc
  · exact ⟨_, e, rfl, fun _ => ⟨rfl, rfl⟩, fun _ _ => ⟨rfl, rfl⟩⟩
  · obtain ⟨ho, hn⟩ := renderBlock_scratch_length s n.toNat time sr
    refine ⟨_, e, rfl, fun h0 => absurd h0 hne, fun i hi => ⟨?_, ?_⟩⟩
    · exact scratchWord_storeBlock _ _ (by rw [List.length_map]; omega)
    · exact scratchWord_storeBlock _ _ (by rw [List.length_map]; omega)

/-! ## What each command may change -/

/-- Settles O55: NOTE_ON and UPDATE by their courses, a release keeps the number of voices, a register write
touches the configuration alone. -/
theorem whoChangesWhat : Obligations.WhoChangesWhat := by
  intro i s t h
  cases i with
  | noteOn key time =>
    rcases exec_noteOn_cases key time s with ⟨-, e⟩ | ⟨-, -, e⟩ | ⟨-, -, e⟩ <;> rw [e] at h <;> cases h
    · simp
    · simp
    · simp
  | noteOff key time =>
    rcases exec_noteOff_cases key time s with ⟨-, e⟩ | ⟨-, e⟩ <;> rw [e] at h <;> cases h
    · simp
    · simp
  | update n time sr =>
    rcases exec_update_cases n time sr s with ⟨c, k, -, e⟩ | ⟨-, -, e⟩ | ⟨-, -, e⟩ <;> rw [e] at h <;> cases h
    · simp [raiseConfigError_eq]
    · simp
    · simp
  | cfgWrite addr w => cases h; rw [regWrite_eq]; simp
  | allNotesOff | reset | statusClear | cfgRead | outRead => cases h; simp
  | nop | rsvd9 | rsvdA | rsvdB | rsvdC | rsvdD | rsvdE => cases h; simp

end Sys2Proof.Machine

/-! The register space: what an address outside the read-write ranges names, and a write made twice. -/

namespace Sys2Proof.Machine

/-! ## Addresses outside the read-write ranges -/

/-- The registers that 20_memory.md R62 lists as read-only. -/
def Reg.ReadOnly (r : Reg) : Prop :=
  r = .status ∨ r = .activeCount ∨ r = .ident ∨ r = .params

theorem slotReg_of_gt {k o : Nat} (ho : 0xC < o) : slotReg k o = .reserved := by
  unfold slotReg
  split <;> simp at ho ⊢

theorem lowReg_of_gt {a : Nat} (ha : 0x00A < a) :
    lowReg a = .reserved ∨ ((lowReg a).ReadOnly ∧ 0x010 ≤ a ∧ a ≤ 0x013) := by
  unfold lowReg
  split <;> simp [Reg.ReadOnly] at ha ⊢

/-- An address outside the read-write ranges is reserved, or one of the four read-only registers. -/
theorem decodeReg_of_not_writableAddr {p : Params} {a : BitVec 12} (h : ¬ writableAddr p a) :
    decodeReg p a = .reserved ∨
      ((decodeReg p a).ReadOnly ∧ 0x010 ≤ a.toNat ∧ a.toNat ≤ 0x013) := by
  obtain ⟨hlow, hslot⟩ := not_or.mp h
  unfold decodeReg
  by_cases h1 : a.toNat < 0x100
  · simpa only [h1, if_true] using lowReg_of_gt (by omega)
  · left
    simp only [h1, if_false]
    split_ifs with h2 h3
    · exact slotReg_of_gt (by omega)
    · rfl
    · rfl

/-! ## Register writes -/

section
variable {s : State} {a : BitVec 12}

theorem regWrite_of_reserved (h : decodeReg s.params a = .reserved) (w : Word) : regWrite s a w = s := by
  simp only [regWrite, h]

theorem regWrite_of_readOnly (h : (decodeReg s.params a).ReadOnly) (w : Word) : regWrite s a w = s := by
  rcases h with h | h | h | h <;> simp only [regWrite, h]

theorem regRead_of_reserved (h : decodeReg s.params a = .reserved) : regRead s a = 0#64 := by
  simp only [regRead, h]

end

theorem exec_cfgWrite (s : State) (a : BitVec 12) (w : Word) :
    exec (.cfgWrite a w) s = .next (regWrite s a w) := rfl

/-- Settles O48: such an address is reserved or read-only, and neither kind of register takes a write. -/
theorem reservedAndReadOnlyAddresses : Obligations.ReservedAndReadOnlyAddresses := by
  intro s a w h
  rw [exec_cfgWrite]
  rcases decodeReg_of_not_writableAddr h with hr | ⟨hro, hrange⟩
  · rw [regWrite_of_reserved hr]
    exact ⟨rfl, fun _ => regRead_of_reserved hr⟩
  · rw [regWrite_of_readOnly hro]
    exact ⟨rfl, fun hne => absurd hrange hne⟩

/-! ## A write made twice -/

@[simp] theorem setCfg_setCfg (s : State) (c d : GlobalCfg) : (s.setCfg c).setCfg d = s.setCfg d := rfl

@[simp] theorem setSlots_setSlots (s : State) (xs ys : List SlotCfg) :
    (s.setSlots xs).setSlots ys = s.setSlots ys := rfl

@[simp] theorem setGlobal_setGlobal (f : GlobalField) (w v : F64) (c : GlobalCfg) :
    setGlobal f w (setGlobal f v c) = setGlobal f w c := by cases f <;> rfl

@[simp] theorem setSlotNum_setSlotNum (f : SlotField) (w v : F64) (c : SlotCfg) :
    setSlotNum f w (setSlotNum f v c) = setSlotNum f w c := by cases f <;> rfl

@[simp] theorem writeOscCount_writeOscCount (p : Params) (w : Word) (c : GlobalCfg) :
    writeOscCount p w (writeOscCount p w c) = writeOscCount p w c := by
  unfold writeOscCount
  split <;> rfl

/-- Making an idempotent change of one slot again changes nothing more. -/
theorem setSlots_modify_modify (s : State) (k : Nat) {f : SlotCfg → SlotCfg} (hf : ∀ c, f (f c) = f c) :
    let t := s.setSlots (s.slots.modify k f)
    t.setSlots (t.slots.modify k f) = t := by
  have hff : f ∘ f = f := funext hf
  simp only [State.setSlots_slots, setSlots_setSlots, List.modify_modify_eq, hff]

/-- The second write finds the same register, whose field already holds the word. -/
theorem regWrite_regWrite (s : State) (a : BitVec 12) (w : Word) :
    regWrite (regWrite s a w) a w = regWrite s a w := by
  cases h : decodeReg s.params a with
  | global f => simp [regWrite, h]
  | oscCount => simp [regWrite, h]
  | slotNum k f =>
    simp only [regWrite, h, State.setSlots_params]
    exact setSlots_modify_modify s k (setSlotNum_setSlotNum f w w)
  | slotWave k | slotSync k =>
    simp only [regWrite, h, State.setSlots_params]
    exact setSlots_modify_modify s k fun _ => rfl
  | reserved => rw [regWrite_of_reserved h, regWrite_of_reserved h]
  | status | activeCount | ident | params =>
    have hro : (decodeReg s.params a).ReadOnly := by simp [h, Reg.ReadOnly]
    rw [regWrite_of_readOnly hro, regWrite_of_readOnly hro]

/-- Settles O49: CFG_WRITE is a register write, and a register write is idempotent. -/
theorem registerWriteIdempotent : Obligations.RegisterWriteIdempotent := by
  intro s t a w _ h
  rw [exec_cfgWrite] at h ⊢
  cases h
  rw [regWrite_regWrite]

end Sys2Proof.Machine

/-! The encoding (30_encoding.md R80 to R94): a command is its opcode, its field and its operand beats, and
both `decode` and `encode` are read in these terms. -/

namespace Sys2Proof

/-! ## Commands by opcode, field and operand beats -/

theorem fieldBits_le (b : BitVec 4) : fieldBits b ≤ 28 := by
  revert b; decide

/-- The bits of a command beat that an opcode reads as its field (30_encoding.md R82). -/
def Opcode.field (op : Opcode) (w : Word) : BitVec (fieldBits op.bits) := w.extractLsb' 0 _

/-- The command of an opcode with a field and operand beats (30_encoding.md R83, R87). -/
def Opcode.command : (op : Opcode) → BitVec (fieldBits op.bits) → List Word → Instr
  | .nop, _, _ => .nop
  | .noteOn, key, ops => .noteOn key (ops.getD 0 0#64)
  | .noteOff, key, ops => .noteOff key (ops.getD 0 0#64)
  | .allNotesOff, _, ops => .allNotesOff (ops.getD 0 0#64)
  | .update, n, ops => .update n (ops.getD 0 0#64) (ops.getD 1 0#64)
  | .cfgWrite, addr, ops => .cfgWrite addr (ops.getD 0 0#64)
  | .cfgRead, addr, _ => .cfgRead addr
  | .outRead, idx, _ => .outRead idx
  | .statusClear, mask, _ => .statusClear mask
  | .rsvd9, _, _ => .rsvd9
  | .rsvdA, _, _ => .rsvdA
  | .rsvdB, _, _ => .rsvdB
  | .rsvdC, _, _ => .rsvdC
  | .rsvdD, _, _ => .rsvdD
  | .rsvdE, _, _ => .rsvdE
  | .reset, _, _ => .reset

@[simp] theorem Opcode.opcode_command (op : Opcode) (f : BitVec (fieldBits op.bits)) (ops : List Word) :
    (op.command f ops).opcode = op := by cases op <;> rfl

/-- The field of a command, 0 for ALL_NOTES_OFF, which keeps no KEY. -/
def Instr.field : (i : Instr) → BitVec (fieldBits i.opcode.bits)
  | .noteOn key _ => key
  | .noteOff key _ => key
  | .update n _ _ => n
  | .cfgWrite addr _ => addr
  | .cfgRead addr => addr
  | .outRead idx => idx
  | .statusClear mask => mask
  | .allNotesOff _ => 0#7
  | .nop | .rsvd9 | .rsvdA | .rsvdB | .rsvdC | .rsvdD | .rsvdE | .reset => 0#0

/-- The operand beats of a command. -/
def Instr.operands : Instr → List Word
  | .noteOn _ time => [time]
  | .noteOff _ time => [time]
  | .allNotesOff time => [time]
  | .update _ time sr => [time, sr]
  | .cfgWrite _ value => [value]
  | .nop | .cfgRead _ | .outRead _ | .statusClear _ | .rsvd9 | .rsvdA | .rsvdB | .rsvdC | .rsvdD | .rsvdE
  | .reset => []

theorem Instr.length_operands (i : Instr) : i.operands.length = i.opcode.operandBeats := by
  cases i <;> rfl

theorem Instr.command_field_operands (i : Instr) : i.opcode.command i.field i.operands = i := by
  cases i <;> rfl

theorem encode_eq (i : Instr) : encode i = commandBeat i.opcode i.field :: i.operands := by
  cases i <;> rfl

theorem length_encode (i : Instr) : (encode i).length = i.beats := by
  rw [encode_eq, List.length_cons, i.length_operands, Instr.beats, Nat.add_comm]

/-! ## Decoding -/

/-- With its operand beats there, a command beat decodes to its opcode's command. -/
theorem decode_append {w : Word} {op : Opcode} {ops : List Word} (hop : opcodeOf w = op)
    (hl : ops.length = op.operandBeats) (rest : List Word) :
    decode (w :: (ops ++ rest)) = .command (op.command (op.field w) ops) rest := by
  simp only [decode, hop]
  cases op with
  | noteOn | noteOff | allNotesOff | cfgWrite =>
    obtain ⟨a, rfl⟩ := List.length_eq_one_iff.mp hl
    rfl
  | update =>
    obtain ⟨a, b, rfl⟩ := List.length_eq_two.mp hl
    rfl
  | nop | cfgRead | outRead | statusClear | rsvd9 | rsvdA | rsvdB | rsvdC | rsvdD | rsvdE | reset =>
    obtain rfl := List.eq_nil_of_length_eq_zero hl
    rfl

/-- With operand beats missing, only the opcode and their number count. -/
theorem decode_of_length_lt {w : Word} {op : Opcode} {ops : List Word} (hop : opcodeOf w = op)
    (hl : ops.length < op.operandBeats) :
    decode (w :: ops) = .incomplete (.missingOperands op ops.length) := by
  simp only [decode, hop]
  cases op with
  | noteOn | noteOff | allNotesOff | cfgWrite =>
    obtain rfl := List.eq_nil_of_length_eq_zero (Nat.lt_one_iff.mp hl)
    rfl
  | update =>
    match ops, hl with
    | [], _ => rfl
    | [_], _ => rfl
  | nop | cfgRead | outRead | statusClear | rsvd9 | rsvdA | rsvdB | rsvdC | rsvdD | rsvdE | reset =>
    exact absurd hl (Nat.not_lt_zero _)

/-- Beats are too few for an opcode, or they are its operand beats and the rest. -/
theorem Opcode.split_operands (op : Opcode) (bs : List Word) :
    bs.length < op.operandBeats ∨ ∃ ops rest, bs = ops ++ rest ∧ ops.length = op.operandBeats := by
  rcases Nat.lt_or_ge bs.length op.operandBeats with h | h
  · exact .inl h
  · exact .inr ⟨_, _, (List.take_append_drop op.operandBeats bs).symm, List.length_take_of_le h⟩

theorem decode_eq_command {w : Word} {bs rest : List Word} {i : Instr} (h : decode (w :: bs) = .command i rest) :
    ∃ ops, bs = ops ++ rest ∧ ops.length = (opcodeOf w).operandBeats ∧
      i = (opcodeOf w).command ((opcodeOf w).field w) ops := by
  rcases (opcodeOf w).split_operands bs with hl | ⟨ops, rest', rfl, hl⟩
  · rw [decode_of_length_lt rfl hl] at h
    cases h
  · rw [decode_append rfl hl] at h
    cases h
    exact ⟨ops, rfl, hl, rfl⟩

/-! ## Decoding an encoding -/

@[simp] theorem Opcode.field_commandBeat (op : Opcode) (f : BitVec (fieldBits op.bits)) :
    op.field (commandBeat op f) = f :=
  Sys2Proof.field_commandBeat op f (fieldBits_le _)

theorem decode_encode_append (i : Instr) (rest : List Word) : decode (encode i ++ rest) = .command i rest := by
  rw [encode_eq, List.cons_append,
    decode_append (opcodeOf_commandBeat _ _ (fieldBits_le _)) i.length_operands, Opcode.field_commandBeat,
    i.command_field_operands]

/-- Settles O6: an encoding is the command beat of the opcode and the field, then the operand beats, and the
decoder reads the three back. -/
theorem decodeInvertsEncode : Obligations.DecodeInvertsEncode := by
  intro i rest
  refine ⟨decode_encode_append i rest, length_encode i, fun w hw => ?_⟩
  rw [encode_eq] at hw
  obtain rfl := Option.some.inj hw
  exact commandBeatWellFormed_commandBeat i.opcode i.field (fieldBits_le _) i.field.isLt

/-! ## Encoding what was decoded -/

theorem bits_opcodeOf (w : Word) : (opcodeOf w).bits = w.extractLsb' 28 4 := Opcode.bits_ofBits _

/-- A word with every ignored bit 0 is the command beat of its own opcode and field. -/
theorem commandBeat_field {w : Word} (hw : commandBeatWellFormed w = true) :
    commandBeat (opcodeOf w) ((opcodeOf w).field w) = w := by
  simp only [commandBeatWellFormed, ← bits_opcodeOf, Bool.and_eq_true, decide_eq_true_eq] at hw
  obtain ⟨h32, hfield⟩ := hw
  have hlow : w.toNat % 2 ^ fieldBits (opcodeOf w).bits = w.toNat % 2 ^ 28 := by
    rw [← Nat.mod_mod_of_dvd _ (Nat.pow_dvd_pow 2 (fieldBits_le _)), Nat.mod_eq_of_lt hfield]
  have hhigh : (opcodeOf w).bits.toNat = w.toNat / 2 ^ 28 := by
    rw [bits_opcodeOf, BitVec.extractLsb'_toNat, Nat.shiftRight_eq_div_pow]
    omega
  apply BitVec.eq_of_toNat_eq
  rw [toNat_commandBeat _ _ (fieldBits_le _), Opcode.field, BitVec.extractLsb'_toNat, Nat.shiftRight_zero, hlow,
    hhigh]
  omega

/-- Encoding gives the field and the operand beats back, but for the KEY of ALL_NOTES_OFF. -/
theorem encode_command {op : Opcode} (f : BitVec (fieldBits op.bits)) {ops : List Word}
    (hl : ops.length = op.operandBeats) :
    encode (op.command f ops) = (if op = .allNotesOff then 0x30000000#64 else commandBeat op f) :: ops := by
  cases op with
  | noteOn | noteOff | allNotesOff | cfgWrite =>
    obtain ⟨a, rfl⟩ := List.length_eq_one_iff.mp hl
    rfl
  | update =>
    obtain ⟨a, b, rfl⟩ := List.length_eq_two.mp hl
    rfl
  | cfgRead | outRead | statusClear =>
    obtain rfl := List.eq_nil_of_length_eq_zero hl
    rfl
  | nop | rsvd9 | rsvdA | rsvdB | rsvdC | rsvdD | rsvdE | reset =>
    obtain rfl := List.eq_nil_of_length_eq_zero hl
    obtain rfl : f = 0#0 := BitVec.of_length_zero
    rfl

/-- Settles O9: the command is its opcode's with the beat's field, and these make up the beat again. -/
theorem encodeInvertsDecode : Obligations.EncodeInvertsDecode := by
  intro w rest rest' i h hw
  obtain ⟨ops, rfl, hl, rfl⟩ := decode_eq_command h
  rw [encode_command _ hl, commandBeat_field hw, Opcode.opcode_command, List.cons_append]

/-! ## The opcode alone selects the command -/

theorem opcodeOf_of_bits {w : Word} {op : Opcode} (h : w.extractLsb' 28 4 = op.bits) : opcodeOf w = op := by
  rw [opcodeOf, h, Opcode.ofBits_bits]

theorem Opcode.encodedAs_command (op : Opcode) :
    encodedAs op.bits op.operandBeats fun w => op.command (op.field w) :=
  fun _ _ rest hw hl => decode_append (opcodeOf_of_bits hw) hl rest

/-- 30_encoding.md R92. -/
theorem Opcode.one_add_operandBeats (op : Opcode) : 1 + op.operandBeats =
    if op.bits.toNat = 1 ∨ op.bits.toNat = 2 ∨ op.bits.toNat = 3 ∨ op.bits.toNat = 5 then 2
    else if op.bits.toNat = 4 then 3 else 1 := by
  cases op <;> rfl

/-- Settles O7: each of the sixteen is the opcode's own command, and a command is as long as its opcode says. -/
theorem decodeByOpcode : Obligations.DecodeByOpcode :=
  ⟨Opcode.nop.encodedAs_command, Opcode.noteOn.encodedAs_command, Opcode.noteOff.encodedAs_command,
    Opcode.allNotesOff.encodedAs_command, Opcode.update.encodedAs_command, Opcode.cfgWrite.encodedAs_command,
    Opcode.cfgRead.encodedAs_command, Opcode.outRead.encodedAs_command, Opcode.statusClear.encodedAs_command,
    Opcode.rsvd9.encodedAs_command, Opcode.rsvdA.encodedAs_command, Opcode.rsvdB.encodedAs_command,
    Opcode.rsvdC.encodedAs_command, Opcode.rsvdD.encodedAs_command, Opcode.rsvdE.encodedAs_command,
    Opcode.reset.encodedAs_command,
    fun i => i.opcode.one_add_operandBeats,
    fun _ _ hl => ⟨_, decode_of_length_lt rfl hl⟩⟩

/-! ## Ignored bits -/

/-- Two beats of one opcode whose fields give the same commands decode alike. -/
theorem decode_congr {w w' : Word} {op : Opcode} (hw : opcodeOf w = op) (hw' : opcodeOf w' = op)
    (hf : op.command (op.field w) = op.command (op.field w')) (bs : List Word) :
    decode (w :: bs) = decode (w' :: bs) := by
  rcases op.split_operands bs with hl | ⟨ops, rest, rfl, hl⟩
  · rw [decode_of_length_lt hw hl, decode_of_length_lt hw' hl]
  · rw [decode_append hw hl, decode_append hw' hl, hf]

theorem Opcode.eq_allNotesOff {op : Opcode} (h : op.bits.toNat = 3) : op = .allNotesOff := by
  have hb : op.bits = Opcode.allNotesOff.bits := BitVec.eq_of_toNat_eq h
  rw [← Opcode.ofBits_bits op, hb, Opcode.ofBits_bits]

/-- Settles O8: agreeing bits are the same field, ALL_NOTES_OFF makes no use of its field, and its effect none
of its operand. -/
theorem ignoredBitsAreIgnored : Obligations.IgnoredBitsAreIgnored := by
  refine ⟨fun w w' rest hop hfield => ?_, fun _ _ _ => rfl⟩
  have hw' : opcodeOf w' = opcodeOf w := by rw [opcodeOf, opcodeOf, hop]
  refine decode_congr rfl hw' ?_ rest
  rw [← bits_opcodeOf] at hfield
  by_cases hano : opcodeOf w = .allNotesOff
  · rw [hano]
    rfl
  · have hne : (opcodeOf w).bits.toNat ≠ 3 := fun h => hano (Opcode.eq_allNotesOff h)
    rw [Opcode.field, Opcode.field, extractLow_eq le_rfl (hfield hne)]

/-- Settles O5: the decoder runs on the seventeen words. -/
theorem tableWordsDecode : Obligations.TableWordsDecode := by
  unfold Obligations.TableWordsDecode
  decide

end Sys2Proof

/-! Commands on the port: which one a step runs, and what the pseudo-commands stand for. -/

namespace Sys2Proof.Machine

/-! ## Steps -/

theorem fetch_of_decode {q : List PortInput} {i : Instr} {rest : List Word}
    (h : decode (leadingBeats q) = .command i rest) (hq : (q.drop i.beats).head? ≠ some .rstDuring) :
    fetch q = .command i (q.drop i.beats) := by
  simp only [fetch, h, commandOrRst_of_ne hq]

theorem step_of_fetch_command {s : State} {i : Instr} {rest : List PortInput}
    (h : fetch s.inbox = .command i rest) : step s = exec i (s.take rest) := by
  simp only [step, h]

/-- Settles O10: the command is what the engine fetches. -/
theorem stepRunsDecodedCommand : Obligations.StepRunsDecodedCommand :=
  fun _ _ _ h hq => step_of_fetch_command (fetch_of_decode h hq)

theorem fetch_encode_append (i : Instr) {q : List PortInput} (hq : q.head? ≠ some .rstDuring) :
    fetch ((encode i).map .beat ++ q) = .command i q := by
  have hdrop : ((encode i).map PortInput.beat ++ q).drop i.beats = q :=
    List.drop_left' (by rw [List.length_map, length_encode])
  have hdec : decode (leadingBeats ((encode i).map .beat ++ q)) = .command i (leadingBeats q) := by
    rw [leadingBeats_map_append, decode_encode_append]
  simpa only [hdrop] using fetch_of_decode hdec (hdrop.symm ▸ hq)

/-- Settles O11: an encoding in front of the queue is fetched as the command it encodes. -/
theorem stepRunsOfferedCommand : Obligations.StepRunsOfferedCommand :=
  fun _ i _ hq => step_of_fetch_command (fetch_encode_append i hq)

/-! ## Pseudo-commands -/

/-- A slot's register by its address in slot 0. -/
theorem slotAddr_eq (k o : Nat) : slotAddr k o = BitVec.ofNat 12 (0x100 + o + 0x10 * k) := by
  rw [slotAddr, Nat.add_right_comm]

/-- Settles O60: the lists by definition, the slots' addresses by `slotAddr_eq`, the block by its indices. -/
theorem pseudoCommandsExpand : Obligations.PseudoCommandsExpand := by
  refine ⟨fun k w => ?_, fun k a d s r => ?_, fun _ _ => rfl, rfl, fun _ => rfl, fun n => ⟨?_, fun i hi => ?_⟩⟩
  · simp [Pseudo.expand, slotAddr_eq]
  · simp [Pseudo.expand, slotAddr_eq]
  · simp [Pseudo.expand]
  · simp [Pseudo.expand, hi]

end Sys2Proof.Machine

/-! The Envelope Generator (41_envelope.md): its segments, elapsed time, INTERP at the start of a segment, and
what a retrigger leaves of it. -/

namespace Sys2Proof.Machine

section
variable {nf : NumFormat}

/-! ## The segments -/

section
variable {p : EnvParams} {cur on off onAmp offAmp t : Fp}

theorem env_of_held (h : Fp.eq off .zero = true) :
    env nf p cur on off onAmp offAmp = envHeld nf p (elapsed nf cur on) onAmp := if_pos h

theorem env_of_released (h : Fp.eq off .zero = false) :
    env nf p cur on off onAmp offAmp = envReleased nf p (elapsed nf cur off) offAmp :=
  if_neg (Bool.not_eq_true _ ▸ h)

theorem envHeld_of_attack (h : Fp.lt t (Fp.ofWord nf p.attack) = true) :
    envHeld nf p t onAmp =
      interp nf (Fp.div nf t (Fp.ofWord nf p.attack)) onAmp .one (Fp.ofWord nf p.attackExp) := if_pos h

/-- Past the attack the decay test decides. -/
theorem envHeld_of_not_attack (h : Fp.lt t (Fp.ofWord nf p.attack) = false) :
    envHeld nf p t onAmp =
      if Fp.lt t (Fp.add nf (Fp.ofWord nf p.attack) (Fp.ofWord nf p.decay)) then
        interp nf (Fp.div nf (Fp.sub nf t (Fp.ofWord nf p.attack)) (Fp.ofWord nf p.decay)) .one
          (Fp.ofWord nf p.sustain) (Fp.ofWord nf p.decayExp)
      else Fp.ofWord nf p.sustain := if_neg (Bool.not_eq_true _ ▸ h)

theorem envHeld_of_sustain (ha : Fp.lt t (Fp.ofWord nf p.attack) = false)
    (hd : Fp.lt t (Fp.add nf (Fp.ofWord nf p.attack) (Fp.ofWord nf p.decay)) = false) :
    envHeld nf p t onAmp = Fp.ofWord nf p.sustain :=
  (envHeld_of_not_attack ha).trans (if_neg (Bool.not_eq_true _ ▸ hd))

theorem envReleased_of_release (h : Fp.lt t (Fp.ofWord nf p.release) = true) :
    envReleased nf p t offAmp =
      interp nf (Fp.div nf t (Fp.ofWord nf p.release)) offAmp .zero (Fp.ofWord nf p.releaseExp) := if_pos h

theorem envReleased_of_over (h : Fp.lt t (Fp.ofWord nf p.release) = false) :
    envReleased nf p t offAmp = .zero := if_neg (Bool.not_eq_true _ ▸ h)

end

/-! ## ENV gives values of NUM -/

theorem interp_proper (hf : nf.wellFormed = true) (x yL yR e : Fp) : (interp nf x yL yR e).Proper nf := by
  unfold interp
  split
  · exact Fp.add_proper hf _ _
  · exact Fp.add_proper hf _ _

theorem env_proper (hf : nf.wellFormed = true) (p : EnvParams) (cur on off onAmp offAmp : Fp) :
    (env nf p cur on off onAmp offAmp).Proper nf := by
  simp only [env, envHeld, envReleased]
  split_ifs
  · exact interp_proper hf _ _ _ _
  · exact interp_proper hf _ _ _ _
  · exact Fp.ofWord_proper hf _
  · exact interp_proper hf _ _ _ _
  · exact representable_zero nf

/-! ## Zeros, and the sign of a difference -/

/-- What equals 0 is one of the two zeros. -/
theorem Fp.eq_zero_iff (x : Fp) : Fp.eq x .zero = true ↔ ∃ s, x = .fin s 0 := by
  have hi := infMag_pos
  cases x with
  | nan w => simp [Fp.eq]
  | inf s => cases s <;> simp [Fp.eq, signedMag] <;> omega
  | fin s a => simp [Fp.eq, signedMag_eq_zero]

theorem Fp.lt_asymm {x y : Fp} (h : Fp.lt x y = true) : Fp.lt y x = false := by
  obtain ⟨a, b, ha, hb, hab⟩ := (Fp.lt_iff _ _).mp h
  simpa [Fp.lt, ha, hb] using hab.le

theorem Fp.lt_congr_right {x y z : Fp} (h : y.value = z.value) : Fp.lt x y = Fp.lt x z := by
  rw [Fp.lt, Fp.lt, h]

/-- x + 0 has the value of x, infinities and NaN included. -/
theorem Fp.value_add_of_eq_zero {x y : Fp} (hx : x.Proper nf) (hy : Fp.eq y .zero = true) :
    (Fp.add nf x y).value = x.value := by
  obtain ⟨t, rfl⟩ := (Fp.eq_zero_iff y).mp hy
  cases x with
  | nan w => rfl
  | inf s => rfl
  | fin s a => exact Fp.value_add_zero hx

/-- 0 + x has the value of x, infinities and NaN included. -/
theorem Fp.value_zero_add_of_proper {x : Fp} (hx : x.Proper nf) : (Fp.add nf .zero x).value = x.value := by
  cases x with
  | nan w => rfl
  | inf s => rfl
  | fin s a => exact Fp.value_zero_add hx

@[simp] theorem Fp.sub_self_fin (s : Bool) (a : Nat) : Fp.sub nf (.fin s a) (.fin s a) = .zero := by
  simp [Fp.sub]

/-- A difference of values of NUM is a multiple of the smallest subnormal. -/
theorem quantum_dvd_sub {s t : Bool} {a b : Nat} (ha : Representable nf a) (hb : Representable nf b) :
    2 ^ nf.quantumExp ∣ (signedMag s a - signedMag t b).natAbs :=
  Int.natCast_dvd.mp (Int.dvd_sub (Int.natCast_dvd.mpr (by simpa using ha.quantum_dvd))
    (Int.natCast_dvd.mpr (by simpa using hb.quantum_dvd)))

/-- A negative multiple of the smallest subnormal is not rounded to 0. -/
theorem Fp.ofInt_lt_zero (hf : nf.wellFormed = true) {z : Int} (hz : z < 0)
    (hq : 2 ^ nf.quantumExp ∣ z.natAbs) (b : Bool) : Fp.lt (Fp.ofInt nf z b) .zero = true := by
  have hpos : 0 < roundMag nf z.natAbs 1 := roundMag_pos hf (by omega) hq
  have hi := infMag_pos
  rw [Fp.ofInt, if_neg hz.ne, decide_eq_true hz, Fp.ofRatio]
  split
  · simpa [Fp.lt, signedMag] using hpos
  · simpa [Fp.lt, signedMag] using hi

/-- The value of what is no NaN lies between the infinities. -/
theorem Fp.Proper.value_bounds (hf : nf.wellFormed = true) {x : Fp} (hx : x.Proper nf) {z : Int}
    (hz : x.value = some z) : -(infMag : Int) ≤ z ∧ z ≤ infMag := by
  cases x with
  | nan w => cases hz
  | inf s =>
    obtain rfl := Option.some.inj hz
    cases s <;> simp [signedMag]
  | fin s a =>
    have ha := Representable.lt_infMag hf hx
    obtain rfl := Option.some.inj hz
    cases s <;> simp [signedMag] <;> omega

theorem Fp.Proper.not_inf_lt (hf : nf.wellFormed = true) {x : Fp} (hx : x.Proper nf) :
    ¬ Fp.lt (.inf false) x = true := by
  intro h
  obtain ⟨a, b, ha, hb, hab⟩ := (Fp.lt_iff _ _).mp h
  obtain rfl : (infMag : Int) = a := Option.some.inj ha
  exact absurd (hx.value_bounds hf hb).2 hab.not_ge

theorem Fp.Proper.not_lt_negInf (hf : nf.wellFormed = true) {x : Fp} (hx : x.Proper nf) :
    ¬ Fp.lt x (.inf true) = true := by
  intro h
  obtain ⟨a, b, ha, hb, hab⟩ := (Fp.lt_iff _ _).mp h
  obtain rfl : -(infMag : Int) = b := Option.some.inj hb
  exact absurd (hx.value_bounds hf ha).1 hab.not_ge

/-- The rounded difference to a greater value is below 0. -/
theorem Fp.sub_lt_zero (hf : nf.wellFormed = true) {x y : Fp} (hx : x.Proper nf) (hy : y.Proper nf)
    (h : Fp.lt x y = true) : Fp.lt (Fp.sub nf x y) .zero = true := by
  have hneg : Fp.lt (.inf true) .zero = true := by simpa [Fp.lt, signedMag] using infMag_pos
  match x, y with
  | .nan _, _ => simp [Fp.lt] at h
  | .inf _, .nan _ => simp [Fp.lt] at h
  | .fin _ _, .nan _ => simp [Fp.lt] at h
  | .inf false, _ => exact absurd h (hy.not_inf_lt hf)
  | _, .inf true => exact absurd h (hx.not_lt_negInf hf)
  | .inf true, .inf false => exact hneg
  | .inf true, .fin _ _ => exact hneg
  | .fin _ _, .inf false => exact hneg
  | .fin s a, .fin t b =>
    have hz : signedMag s a < signedMag t b := by simpa [Fp.lt] using h
    exact Fp.ofInt_lt_zero hf (by omega) (quantum_dvd_sub hx hy) _

/-- A value that is not below 0 and below +∞ is finite. -/
theorem Fp.finite_of_not_neg {x : Fp} (h0 : Fp.lt x .zero = false) (h1 : Fp.lt x (.inf false) = true) :
    ∃ s m, x = .fin s m := by
  cases x with
  | nan w => simp [Fp.lt] at h1
  | inf s => cases s <;> simp [Fp.lt, signedMag, infMag_pos] at h0 h1
  | fin s m => exact ⟨s, m, rfl⟩

/-- Only finite values have a finite difference. -/
theorem Fp.finite_of_sub_eq_fin {x y : Fp} {s : Bool} {m : Nat} (h : Fp.sub nf x y = .fin s m) :
    (∃ t a, x = .fin t a) ∧ ∃ t b, y = .fin t b := by
  unfold Fp.sub at h
  split at h
  · exact ⟨⟨_, _, rfl⟩, _, _, rfl⟩
  · cases h
  · cases h
  · split at h
    · cases h
    · cases h
  · cases h
  · cases h

/-- A sum rounded to a finite value that is not below 0 has the sign +, if its exact zero has. -/
theorem Fp.sign_of_ofInt (hf : nf.wellFormed = true) {z : Int} {b s : Bool} {m : Nat}
    (hq : 2 ^ nf.quantumExp ∣ z.natAbs) (hb : z = 0 → b = false)
    (h0 : Fp.lt (Fp.ofInt nf z b) .zero = false) (h : Fp.ofInt nf z b = .fin s m) : s = false := by
  rcases lt_trichotomy z 0 with hz | hz | hz
  · rw [Fp.ofInt_lt_zero hf hz hq] at h0
    cases h0
  · rw [hz, Fp.ofInt_zero, hb hz] at h
    exact (Fp.fin.inj h).1.symm
  · rw [Fp.ofInt, if_neg hz.ne', decide_eq_false hz.not_gt, Fp.ofRatio] at h
    split at h
    · exact (Fp.fin.inj h).1.symm
    · cases h

/-- A finite difference that is not below 0 is +0 and not −0, if what is subtracted is not 0. -/
theorem Fp.sub_eq_fin_false (hf : nf.wellFormed = true) {x y : Fp} (hx : x.Proper nf) (hy : y.Proper nf)
    (hy0 : Fp.eq y .zero = false) (h0 : Fp.lt (Fp.sub nf x y) .zero = false)
    (h1 : Fp.lt (Fp.sub nf x y) (.inf false) = true) : ∃ m, Fp.sub nf x y = .fin false m := by
  obtain ⟨s, m, hm⟩ := Fp.finite_of_not_neg h0 h1
  obtain ⟨⟨t, a, rfl⟩, u, b, rfl⟩ := Fp.finite_of_sub_eq_fin hm
  have hb : signedMag t a - signedMag u b = 0 → (t && !u) = false := by
    intro hz
    have hu : b ≠ 0 := by simpa [Fp.eq, signedMag_eq_zero] using hy0
    cases t <;> cases u <;> simp [signedMag] at hz ⊢
    omega
  obtain rfl : s = false := Fp.sign_of_ofInt hf (quantum_dvd_sub hx hy) hb h0 hm
  exact ⟨m, hm⟩

/-! ## Elapsed time -/

theorem elapsed_nonneg (nf : NumFormat) (cur since : Fp) : Fp.lt (elapsed nf cur since) .zero = false := by
  rw [elapsed]
  split
  · simp [Fp.lt]
  · next h => exact Bool.not_eq_true _ ▸ h

theorem elapsed_of_lt (hf : nf.wellFormed = true) {cur since : Fp} (hc : cur.Proper nf) (hs : since.Proper nf)
    (h : Fp.lt cur since = true) : elapsed nf cur since = .zero := if_pos (Fp.sub_lt_zero hf hc hs h)

@[simp] theorem elapsed_self_fin (s : Bool) (a : Nat) : elapsed nf (.fin s a) (.fin s a) = .zero := by
  simp [elapsed]

theorem elapsed_eq_fin_false (hf : nf.wellFormed = true) {cur since : Fp} (hc : cur.Proper nf)
    (hs : since.Proper nf) (hs0 : Fp.eq since .zero = false)
    (h : Fp.lt (elapsed nf cur since) (.inf false) = true) : ∃ m, elapsed nf cur since = .fin false m := by
  rw [elapsed] at h ⊢
  split at h
  · next hneg => exact ⟨0, if_pos hneg⟩
  · next hneg =>
    simp only [if_neg hneg]
    exact Fp.sub_eq_fin_false hf hc hs hs0 (Bool.not_eq_true _ ▸ hneg) h

/-- Elapsed time is not below a time that is 0. -/
theorem elapsed_not_lt_of_eq_zero {cur since y : Fp} (h : Fp.eq y .zero = true) :
    Fp.lt (elapsed nf cur since) y = false := by
  obtain ⟨t, rfl⟩ := (Fp.eq_zero_iff y).mp h
  rw [Fp.lt_congr_right (z := .zero) (by simp), elapsed_nonneg]

/-! ## INTERP at the start of a segment -/

/-- 1 × x = x where x is not a NaN. -/
theorem Fp.one_mul_of_value {x : Fp} (hx : x.Proper nf) (hv : x.value ≠ none) : Fp.mul nf .one x = x := by
  cases x with
  | nan w => exact absurd rfl hv
  | inf s => simp [Fp.mul, unitMag_pos.ne']
  | fin s a => exact Fp.one_mul_fin s hx

theorem Fp.one_sub_zero (hf : nf.wellFormed = true) : Fp.sub nf .one .zero = .one := by
  have hu := representable_unit hf
  have hp := unitMag_pos
  rw [Fp.sub, Fp.ofInt_of_representable (by simpa using hu)]
  simp [signedMag, hp.ne']

/-- A rising segment starts at its left end, up to the product with 0. -/
theorem interp_zero_of_lt {yL yR e : Fp} (h : Fp.lt yL yR = true) (he : Fp.lt .zero e = true) :
    interp nf .zero yL yR e = Fp.add nf yL (Fp.mul nf .zero (Fp.sub nf yR yL)) := by
  rw [interp, if_pos h, pow_base_zero nf he]

/-- A segment that does not rise starts at its right end plus the difference, whatever the exponent. -/
theorem interp_zero_of_not_lt (hf : nf.wellFormed = true) {yL yR e : Fp} (h : Fp.lt yL yR = false)
    (hv : (Fp.sub nf yL yR).value ≠ none) :
    interp nf .zero yL yR e = Fp.add nf yR (Fp.sub nf yL yR) := by
  rw [interp, if_neg (Bool.not_eq_true _ ▸ h), Fp.one_sub_zero hf, pow_base_one,
    Fp.one_mul_of_value (Fp.sub_proper hf _ _) hv]

theorem Fp.value_add_zero_mul {s t : Bool} {a b : Nat} (h : Representable nf a) :
    (Fp.add nf (.fin s a) (Fp.mul nf .zero (.fin t b))).value = some (signedMag s a) := by
  rw [Fp.zero_mul_fin, Fp.value_add_zero h]

theorem Fp.zero_sub_fin {s : Bool} {a : Nat} (h : Representable nf a) :
    ∃ t, Fp.sub nf .zero (.fin s a) = .fin t a := by
  rw [Fp.sub, Fp.ofInt_of_representable (by simpa using h)]
  simp

/-- The release starts at a finite offAmp. -/
theorem value_interp_zero_to_zero (hf : nf.wellFormed = true) {s : Bool} {a : Nat} (h : Representable nf a)
    {e : Fp} (he : Fp.lt .zero e = true) :
    (interp nf .zero (.fin s a) .zero e).value = some (signedMag s a) := by
  cases hlt : Fp.lt (.fin s a) .zero with
  | true =>
    obtain ⟨t, ht⟩ := Fp.zero_sub_fin (s := s) h
    rw [interp_zero_of_lt hlt he, ht, Fp.value_add_zero_mul h]
  | false =>
    have hv := Fp.value_sub_zero (nf := nf) (s := s) (t := false) h
    rw [interp_zero_of_not_lt hf hlt (by simp [hv]), Fp.value_zero_add_of_proper (Fp.sub_proper hf _ _), hv]

/-- A value above −∞ and at most 1 is finite. -/
theorem Fp.finite_of_le_one (hf : nf.wellFormed = true) {x : Fp} (h0 : Fp.lt (.inf true) x = true)
    (h1 : Fp.le x .one = true) : ∃ s a, x = .fin s a := by
  have hu := (representable_unit hf).lt_infMag hf
  cases x with
  | nan w => simp [Fp.lt] at h0
  | inf s =>
    cases s
    · simp [Fp.le, signedMag] at h1
      omega
    · simp [Fp.lt] at h0
  | fin s a => exact ⟨s, a, rfl⟩

/-- The attack starts at a finite onAmp of at most 1. -/
theorem value_interp_zero_to_one (hf : nf.wellFormed = true) {s : Bool} {a : Nat} (h : Representable nf a)
    (h1 : signedMag s a ≤ unitMag) {e : Fp} (he : Fp.lt (.fin s a) .one = true → Fp.lt .zero e = true) :
    (interp nf .zero (.fin s a) .one e).value = some (signedMag s a) := by
  cases hlt : Fp.lt (.fin s a) .one with
  | true =>
    obtain ⟨t, m, hm⟩ := Fp.one_sub_finite hf h h1
    rw [interp_zero_of_lt hlt (he hlt), hm, Fp.value_add_zero_mul h]
  | false =>
    have hu := unitMag_pos
    have hge : signedMag false unitMag ≤ signedMag s a := by simpa [Fp.lt] using hlt
    have hz : signedMag s a = unitMag := le_antisymm h1 hge
    obtain ⟨rfl, rfl⟩ : s = false ∧ a = unitMag := by
      cases s <;> simp [signedMag] at hz ⊢ <;> omega
    rw [interp_zero_of_not_lt hf hlt (by simp), Fp.sub_self_fin, Fp.value_add_zero h]

/-- A rounded sum is not a NaN. -/
theorem Fp.value_ofInt_ne_none (z : Int) (b : Bool) : (Fp.ofInt nf z b).value ≠ none := by
  unfold Fp.ofInt
  split
  · simp
  · rw [Fp.ofRatio]
    split
    · simp
    · simp

/-- From an onAmp above 1 the attack starts at 1 + (onAmp − 1). -/
theorem interp_zero_to_one_of_gt (hf : nf.wellFormed = true) {x : Fp} (h : Fp.lt .one x = true) (e : Fp) :
    interp nf .zero x .one e = Fp.add nf .one (Fp.sub nf x .one) := by
  refine interp_zero_of_not_lt hf (Fp.lt_asymm h) ?_
  cases x with
  | nan w => simp [Fp.lt] at h
  | inf s => simp [Fp.sub]
  | fin s a => exact Fp.value_ofInt_ne_none _ _

/-! ## The retrigger -/

/-- A slot in use is changed by `f`, whatever the lengths of the two lists. -/
theorem mapActive_getElem?_of_some (f : SlotCfg → OscState → OscState) {p : SlotCfg} {o : OscState} :
    ∀ (ps : List SlotCfg) (os : List OscState) (k : Nat), ps[k]? = some p → os[k]? = some o →
      (mapActive f ps os)[k]? = some (f p o)
  | _ :: _, _ :: _, 0, hp, ho => by
    obtain rfl := Option.some.inj hp
    obtain rfl := Option.some.inj ho
    rfl
  | _ :: ps, _ :: os, k + 1, hp, ho => mapActive_getElem?_of_some f ps os k hp ho

/-- 0 over a positive value is +0. -/
theorem Fp.zero_div_of_pos {y : Fp} (h : Fp.lt .zero y = true) : Fp.div nf .zero y = .zero := by
  cases y with
  | nan w => simp [Fp.lt] at h
  | inf s =>
    cases s
    · rfl
    · simp [Fp.lt, signedMag] at h
      omega
  | fin s a =>
    cases s
    · exact Fp.zero_div_fin false false (by rintro rfl; simp [Fp.lt] at h)
    · simp [Fp.lt, signedMag] at h
      omega

/-- At the time of the retrigger a slot is at the start of its attack. -/
theorem slotEnv_retrigger {c : GlobalCfg} {slots : List SlotCfg} {time : F64} {v : Voice} {p : SlotCfg}
    {o : OscState} {s : Bool} {a : Nat} (ht : Fp.ofWord nf time = .fin s a)
    (ha : Fp.lt .zero (Fp.ofWord nf p.env.attack) = true) :
    slotEnv nf p (retrigger nf c slots time v) o (Fp.ofWord nf time) =
      interp nf .zero (Fp.ofWord nf o.onAmp) .one (Fp.ofWord nf p.env.attackExp) := by
  have hheld : Fp.eq (Fp.ofWord nf (retrigger nf c slots time v).offTime) .zero = true := by
    simp [retrigger, Fp.eq]
  have helapsed : elapsed nf (Fp.ofWord nf time) (Fp.ofWord nf (retrigger nf c slots time v).onTime) = .zero := by
    simp [retrigger, ht]
  rw [slotEnv, env_of_held hheld, helapsed, envHeld_of_attack ha, Fp.zero_div_of_pos ha]

/-! ## The statements -/

/-- Settles O21: both tests of ENV, and the definitions of INTERP and of elapsed time. -/
theorem envSegments : Obligations.EnvSegments := by
  refine fun nf => ⟨fun _ _ _ _ => rfl, fun _ _ => rfl, fun p cur on off onAmp offAmp =>
    ⟨fun hheld => ?_, fun hrel => ?_⟩⟩
  · rw [env_of_held hheld]
    exact ⟨envHeld_of_attack, fun ha hd => (envHeld_of_not_attack ha).trans (if_pos hd), envHeld_of_sustain⟩
  · rw [env_of_released hrel]
    exact ⟨envReleased_of_release, envReleased_of_over⟩

/-- Settles O22: the rounded difference of two values keeps its sign. -/
theorem elapsedTimeNeverNegative : Obligations.ElapsedTimeNeverNegative := fun nf _ _ hf =>
  ⟨elapsed_nonneg nf _ _, elapsed_of_lt hf (Fp.ofWord_proper hf _) (Fp.ofWord_proper hf _)⟩

/-- Settles O23: elapsed time is not below a length of 0, and a decay of 0 adds nothing to the attack. -/
theorem zeroLengthSegmentsJump : Obligations.ZeroLengthSegmentsJump := by
  refine fun nf p cur on off onAmp offAmp hf => ⟨fun hheld ha => ?_, fun hheld hd ha => ?_, fun hrel hr => ?_⟩
  · rw [env_of_held hheld, envHeld_of_not_attack (elapsed_not_lt_of_eq_zero ha)]
  · have hna := ha.elim elapsed_not_lt_of_eq_zero id
    have hsum := Fp.value_add_of_eq_zero (Fp.ofWord_proper hf p.attack) hd
    rw [env_of_held hheld, envHeld_of_sustain hna ((Fp.lt_congr_right hsum).trans hna)]
  · rw [env_of_released hrel, envReleased_of_over (elapsed_not_lt_of_eq_zero hr)]

/-- Settles O24: a finite elapsed time over an infinite release is +0, where the release starts. -/
theorem infiniteReleaseHoldsOffAmp : Obligations.InfiniteReleaseHoldsOffAmp := by
  intro nf p cur on off offAmp onAmp hf hr he hrel ht hlo hhi
  obtain ⟨s, a, hoff⟩ := Fp.finite_of_between hlo hhi
  have ha : (Fp.fin s a).Proper nf := hoff ▸ Fp.ofWord_proper hf offAmp
  obtain ⟨m, hm⟩ := elapsed_eq_fin_false hf (Fp.ofWord_proper hf cur) (Fp.ofWord_proper hf off) hrel ht
  have hinf : Fp.ofWord nf p.release = .inf false := by rw [hr, Fp.ofWord_plusInf]
  have hdiv : Fp.div nf (.fin false m) (.inf false) = .zero := rfl
  rw [env_of_released hrel, envReleased_of_release (hinf ▸ ht), hinf, hm, hdiv, hoff]
  exact Fp.eq_of_value (value_interp_zero_to_zero hf ha he) rfl

/-- Settles O25: the retrigger starts the attack, from the amplitude it stored. -/
theorem retriggerIsContinuous : Obligations.RetriggerIsContinuous := by
  intro nf c slots time v k p o A hf hp ho hA hhi hlo ha
  obtain ⟨s, a, ht⟩ := Fp.finite_of_between hlo hhi
  have hAp : A.Proper nf := hA ▸ env_proper hf _ _ _ _ _ _
  refine ⟨{ o with onAmp := A.toWord }, ?_, rfl, ?_⟩
  · rw [hA]
    exact mapActive_getElem?_of_some _ slots v.osc k hp ho
  rw [slotEnv_retrigger ht ha, Fp.ofWord_toWord hf hAp]
  refine ⟨fun hlo hle he => ?_, fun h => interp_zero_to_one_of_gt hf h _⟩
  obtain ⟨t, b, rfl⟩ := Fp.finite_of_le_one hf hlo hle
  have hb : signedMag t b ≤ unitMag := by simpa [Fp.le, signedMag] using hle
  have heq := Fp.eq_of_value (value_interp_zero_to_one hf hAp hb he) (Fp.value_fin t b)
  exact ⟨heq, heq⟩

end

end Sys2Proof.Machine

/-! The Oscillator Unit (42_oscillator.md): the advance of the phases, the block as a run of samples, the
waveforms on exact values, and the period of a power-of-two increment. -/

namespace Sys2Proof.Machine

section
variable {nf : NumFormat}

/-! ## The advance of the phases -/

theorem wrap_of_one_le {x : Fp} (h : Fp.le .one x = true) : wrap nf x = Fp.sub nf x (Fp.floor x) := if_pos h

theorem wrap_of_not_one_le {x : Fp} (h : Fp.le .one x = false) : wrap nf x = x :=
  if_neg (Bool.not_eq_true _ ▸ h)

theorem advancePhases_unsynced {c : GenCtx} (h : c.sinc = none) (ph sp : Fp) :
    advancePhases c ph sp = (wrap c.num (Fp.add c.num ph c.inc), sp) := by simp only [advancePhases, h]

theorem advancePhases_of_sync_wrap {c : GenCtx} {sinc : Fp} (hs : c.sinc = some sinc) (ph : Fp) {sp : Fp}
    (h : Fp.le .one (Fp.add c.num sp sinc) = true) :
    advancePhases c ph sp =
      (.zero, Fp.sub c.num (Fp.add c.num sp sinc) (Fp.floor (Fp.add c.num sp sinc))) := by
  rw [advancePhases_sync hs, if_pos h, wrap_of_one_le h]

theorem advancePhases_of_sync_below {c : GenCtx} {sinc : Fp} (hs : c.sinc = some sinc) (ph : Fp) {sp : Fp}
    (h : Fp.le .one (Fp.add c.num sp sinc) = false) :
    advancePhases c ph sp = (wrap c.num (Fp.add c.num ph c.inc), Fp.add c.num sp sinc) := by
  rw [advancePhases_sync hs, h, wrap_of_not_one_le h]
  rfl

/-! ## A block as a run of samples -/

/-- The state after one more sample. -/
theorem genSamples_state_succ (c : GenCtx) (n : Nat) (g : GenState) :
    (genSamples c (n + 1) g).2 = (genSample c (genSamples c n g).2).2 := by
  rw [genSamples_state, genSamples_state, Function.iterate_succ_apply']

theorem genSamples_draws_succ (c : GenCtx) (n : Nat) (g : GenState) :
    (genSamples c (n + 1) g).2.draws = (waveVal c (genSamples c n g).2).2 := by
  rw [genSamples_state_succ]
  rfl

theorem genSamples_phases_succ (c : GenCtx) (n : Nat) (g : GenState) :
    ((genSamples c (n + 1) g).2.phase, (genSamples c (n + 1) g).2.sync) =
      advancePhases c (genSamples c n g).2.phase (genSamples c n g).2.sync := by
  rw [genSamples_state_succ]
  rfl

/-- Sample `i` is emitted at the state after the `i` samples before it. -/
theorem genSamples_getElem? (c : GenCtx) {i n : Nat} (h : i < n) (g : GenState) :
    (genSamples c n g).1[i]? = some (waveVal c (genSamples c i g).2).1 := by
  induction n generalizing i g with
  | zero => omega
  | succ n ih =>
    cases i with
    | zero => rfl
    | succ i => exact ih (by omega) _

/-- The sample of each wave; codes 5 to 7 have the draw's arm. -/
theorem waveVal_sample (c : GenCtx) (g : GenState) :
    (waveVal c g).1 =
      if c.wave = 0#3 then sin2pi c.num g.phase
      else if c.wave = 1#3 then triangle c.num g.phase
      else if c.wave = 2#3 then sawtooth c.num g.phase
      else if c.wave = 3#3 then pulse g.phase c.duty
      else noiseAt c.num c.noise g.draws := by
  simp only [waveVal, ← BitVec.toNat_inj]
  generalize c.wave.toNat = w
  match w with
  | 0 => rfl
  | 1 => rfl
  | 2 => rfl
  | 3 => rfl
  | w + 4 => simp

/-- Of the legal waves noise alone takes a draw. -/
theorem waveVal_draws_of_legal {c : GenCtx} (h : c.wave.toNat ≤ 4) (g : GenState) :
    (waveVal c g).2 = if c.wave = 4#3 then g.draws + 1 else g.draws := by
  have h4 : c.wave = 4#3 ↔ 4 ≤ c.wave.toNat := by
    rw [← BitVec.toNat_inj]
    exact ⟨Eq.ge, fun h4 => le_antisymm h h4⟩
  rw [waveVal_draws]
  simp only [h4]
  split <;> rfl

/-! ## The block of a slot -/

theorem genCtx_sinc_of_sync (ps : Params) {p : SlotCfg} (h : p.sync = true) (key : Key) (sr : Fp) :
    (genCtx ps p key sr).sinc = some (Fp.div ps.num (noteFreq ps key p.syncDetune) sr) := if_pos h

theorem genCtx_sinc_of_no_sync (ps : Params) {p : SlotCfg} (h : p.sync = false) (key : Key) (sr : Fp) :
    (genCtx ps p key sr).sinc = none := if_neg (Bool.not_eq_true _ ▸ h)

/-- The state before sample `i` of the block that GENERATE fills. -/
def generateState (ps : Params) (p : SlotCfg) (key : Key) (sr : Fp) (o : OscState) (d i : Nat) : GenState :=
  (genSamples (genCtx ps p key sr) i
    { phase := Fp.ofWord ps.num o.phase, sync := Fp.ofWord ps.num o.syncPhase, draws := d }).2

theorem generate_getElem? (ps : Params) (p : SlotCfg) (key : Key) {i n : Nat} (h : i < n) (sr : Fp) (o : OscState)
    (d : Nat) : (generate ps p key n sr o d).block[i]? =
      some (waveVal (genCtx ps p key sr) (generateState ps p key sr o d i)).1 := genSamples_getElem? _ h _

theorem generateState_draws_succ (ps : Params) {p : SlotCfg} (hw : p.wave.toNat ≤ 4) (key : Key) (sr : Fp)
    (o : OscState) (d i : Nat) : (generateState ps p key sr o d (i + 1)).draws =
      if p.wave = 4#3 then (generateState ps p key sr o d i).draws + 1
      else (generateState ps p key sr o d i).draws :=
  (genSamples_draws_succ _ _ _).trans (waveVal_draws_of_legal hw _)

/-- The phases of the next sample, by what their advance gives. -/
theorem generateState_phases_succ {ps : Params} {p : SlotCfg} {key : Key} {sr : Fp} {o : OscState} {d i : Nat}
    {ph sp : Fp} (h : advancePhases (genCtx ps p key sr) (generateState ps p key sr o d i).phase
      (generateState ps p key sr o d i).sync = (ph, sp)) :
    (generateState ps p key sr o d (i + 1)).phase = ph ∧ (generateState ps p key sr o d (i + 1)).sync = sp :=
  Prod.mk.inj ((genSamples_phases_succ _ _ _).trans h)

/-! ## Exact arithmetic -/

/-- An integer times a value, where NUM has the product. -/
theorem Fp.nat_mul_fin (n : Nat) {b : Nat} (h : Representable nf (n * b)) :
    Fp.mul nf (.fin false (n * unitMag)) (.fin false b) = .fin false (n * b) :=
  Fp.ofRatio_exact _ unitMag_pos (Nat.mul_right_comm n unitMag b) h

theorem Fp.ofInt_natCast {m : Nat} (h : Representable nf m) : Fp.ofInt nf (m : Int) false = .fin false m := by
  rw [Fp.ofInt_of_representable (by rwa [Int.natAbs_natCast]), Int.natAbs_natCast]
  simp

theorem Fp.ofInt_neg_natCast {m : Nat} (hm : 0 < m) (h : Representable nf m) (b : Bool) :
    Fp.ofInt nf (-(m : Int)) b = .fin true m := by
  have hz : -(m : Int) < 0 := by omega
  have hr : Representable nf (-(m : Int)).natAbs := by rwa [Int.natAbs_neg, Int.natAbs_natCast]
  rw [Fp.ofInt_of_representable hr, if_neg hz.ne, decide_eq_true hz, Int.natAbs_neg, Int.natAbs_natCast]

theorem Fp.add_fin {a b : Nat} (h : Representable nf (a + b)) :
    Fp.add nf (.fin false a) (.fin false b) = .fin false (a + b) :=
  Fp.ofInt_natCast h

theorem Fp.sub_fin_of_le {a b : Nat} (hab : b ≤ a) (h : Representable nf (a - b)) :
    Fp.sub nf (.fin false a) (.fin false b) = .fin false (a - b) := by
  have e : signedMag false a - signedMag false b = ((a - b : Nat) : Int) := (Nat.cast_sub hab).symm
  rw [Fp.sub, e]
  exact Fp.ofInt_natCast h

/-- −a + b, where the sum is not below 0. -/
theorem Fp.neg_add_fin_of_le {a b : Nat} (hab : a ≤ b) (h : Representable nf (b - a)) :
    Fp.add nf (.fin true a) (.fin false b) = .fin false (b - a) := by
  have e : signedMag true a + signedMag false b = ((b - a : Nat) : Int) := by
    simp only [signedMag, if_true, Bool.false_eq_true, if_false]
    omega
  rw [Fp.add, e]
  exact Fp.ofInt_natCast h

/-- −a + b, where the sum is below 0. -/
theorem Fp.neg_add_fin_of_lt {a b : Nat} (hab : b < a) (h : Representable nf (a - b)) :
    Fp.add nf (.fin true a) (.fin false b) = .fin true (a - b) := by
  have e : signedMag true a + signedMag false b = -((a - b : Nat) : Int) := by
    simp only [signedMag, if_true, Bool.false_eq_true, if_false]
    omega
  rw [Fp.add, e, Fp.ofInt_neg_natCast (by omega) h]

@[simp] theorem Fp.lt_fin_false (a b : Nat) : Fp.lt (.fin false a) (.fin false b) = decide (a < b) := by
  simp [Fp.lt, signedMag]

@[simp] theorem Fp.le_fin_false (a b : Nat) : Fp.le (.fin false a) (.fin false b) = decide (a ≤ b) := by
  simp [Fp.le, signedMag]

/-! ## A phase in steps of a power of two -/

/-- 2^k steps of 2^−k are 1. -/
theorem two_pow_mul_step {k : Nat} (hk : k ≤ 1074) : 2 ^ k * 2 ^ (1074 - k) = unitMag := by
  rw [← pow_add, unitMag_eq, Nat.add_sub_cancel' hk]

/-- The wrap goes from the last step of the circle to the first. -/
theorem wrap_steps {j k : Nat} (hk : k ≤ 1074) (hj : j ≤ 2 ^ k) :
    wrap nf (.fin false (j * 2 ^ (1074 - k))) = .fin false (j % 2 ^ k * 2 ^ (1074 - k)) := by
  have hu := two_pow_mul_step hk
  rcases hj.lt_or_eq with hlt | rfl
  · have hb : j * 2 ^ (1074 - k) < unitMag := hu ▸ Nat.mul_lt_mul_of_pos_right hlt (by positivity)
    rw [wrap_of_not_one_le (by simpa using hb), Nat.mod_eq_of_lt hlt]
  · rw [hu, wrap_of_one_le (by simp), Nat.mod_self, Nat.zero_mul, Fp.floor,
      Nat.div_self unitMag_pos, Nat.one_mul, Fp.sub_self_fin]

section
variable {c : GenCtx} {k : Nat} (hf : c.num.wellFormed = true) (hk : k < c.num.precision)
  (hq : c.num.quantumExp + k ≤ 1074) (hs : c.sinc = none) (hinc : c.inc = .fin false (2 ^ (1074 - k)))
include hf hk hq

theorem representable_steps {j : Nat} (hj : j ≤ 2 ^ k) : Representable c.num (j * 2 ^ (1074 - k)) := by
  obtain ⟨-, -, -, h4, -⟩ := format_bounds hf
  exact representable_of_mul (hj.trans_lt (Nat.pow_lt_pow_right one_lt_two hk)) (by omega) (by omega)

include hs hinc

/-- A sample moves the phase by one step, around the circle of 2^k steps. -/
theorem genSample_phase_steps {j : Nat} (hj : j < 2 ^ k) {g : GenState}
    (hg : g.phase = .fin false (j * 2 ^ (1074 - k))) :
    (genSample c g).2.phase = .fin false ((j + 1) % 2 ^ k * 2 ^ (1074 - k)) := by
  have hsum : j * 2 ^ (1074 - k) + 2 ^ (1074 - k) = (j + 1) * 2 ^ (1074 - k) := (Nat.succ_mul _ _).symm
  have hr := representable_steps hf hk hq (Nat.succ_le_of_lt hj)
  show (advancePhases c g.phase g.sync).1 = _
  rw [advancePhases_unsynced hs, hg, hinc, Fp.add_fin (hsum ▸ hr), hsum]
  exact wrap_steps (by omega) hj

theorem genSamples_phase_steps (n : Nat) {j : Nat} (hj : j < 2 ^ k) {g : GenState}
    (hg : g.phase = .fin false (j * 2 ^ (1074 - k))) :
    (genSamples c n g).2.phase = .fin false ((j + n) % 2 ^ k * 2 ^ (1074 - k)) := by
  induction n with
  | zero => rwa [Nat.add_zero, Nat.mod_eq_of_lt hj]
  | succ n ih =>
    rw [genSamples_state_succ, genSample_phase_steps hf hk hq hs hinc (Nat.mod_lt _ (by positivity)) ih,
      Nat.mod_add_mod, Nat.add_assoc]

end

/-! ## Order -/

theorem Fp.not_lt_of_le {x y : Fp} (h : Fp.le y x = true) : Fp.lt x y = false := by
  obtain ⟨b, a, hb, ha, hab⟩ := (Fp.le_iff _ _).mp h
  simpa [Fp.lt, ha, hb] using hab

theorem Fp.le_trans {x y z : Fp} (hxy : Fp.le x y = true) (hyz : Fp.le y z = true) : Fp.le x z = true := by
  obtain ⟨a, b, ha, hb, hab⟩ := (Fp.le_iff _ _).mp hxy
  obtain ⟨b', d, hb', hd, hbd⟩ := (Fp.le_iff _ _).mp hyz
  obtain rfl : b = b' := Option.some.inj (hb.symm.trans hb')
  exact (Fp.le_iff _ _).mpr ⟨a, d, ha, hd, hab.trans hbd⟩

theorem Fp.lt_trans {x y z : Fp} (hxy : Fp.lt x y = true) (hyz : Fp.lt y z = true) : Fp.lt x z = true := by
  obtain ⟨a, b, ha, hb, hab⟩ := (Fp.lt_iff _ _).mp hxy
  obtain ⟨b', d, hb', hd, hbd⟩ := (Fp.lt_iff _ _).mp hyz
  obtain rfl : b = b' := Option.some.inj (hb.symm.trans hb')
  exact (Fp.lt_iff _ _).mpr ⟨a, d, ha, hd, hab.trans hbd⟩

/-- Nothing is below a NaN. -/
theorem Fp.not_lt_of_eq_self_false {x y : Fp} (h : Fp.eq y y = false) : Fp.lt x y = false := by
  have hy : y.value = none := by
    cases hv : y.value with
    | none => rfl
    | some z => rw [Fp.eq_of_value hv hv] at h; cases h
  rw [Fp.lt, hy]
  cases x.value <;> rfl

/-! ## The waveforms -/

theorem pulse_of_lt {ph duty : Fp} (h : Fp.lt ph duty = true) : pulse ph duty = .negOne := if_pos h

theorem pulse_of_not_lt {ph duty : Fp} (h : Fp.lt ph duty = false) : pulse ph duty = .one :=
  if_neg (Bool.not_eq_true _ ▸ h)

/-- −1 + 2a, below 0. -/
theorem sawtooth_of_lt_half {a m : Nat} (e : 2 * a + m = unitMag) (hm : 0 < m) (ha : Representable nf (2 * a))
    (hr : Representable nf m) : sawtooth nf (.fin false a) = .fin true m := by
  obtain rfl : m = unitMag - 2 * a := by omega
  rw [sawtooth, Fp.nat_mul_fin 2 ha, Fp.neg_add_fin_of_lt (by omega) hr]

/-- −1 + 2a, from 0 up. -/
theorem sawtooth_of_half_le {a m : Nat} (e : 2 * a = unitMag + m) (ha : Representable nf (2 * a))
    (hr : Representable nf m) : sawtooth nf (.fin false a) = .fin false m := by
  obtain rfl : m = 2 * a - unitMag := by omega
  rw [sawtooth, Fp.nat_mul_fin 2 ha, Fp.neg_add_fin_of_le (by omega) hr]

/-- The rising half, −1 + 4a below 0. -/
theorem triangle_of_lt_quarter {a m : Nat} (e : 4 * a + m = unitMag) (hm : 0 < m)
    (ha : Representable nf (4 * a)) (hr : Representable nf m) : triangle nf (.fin false a) = .fin true m := by
  obtain rfl : m = unitMag - 4 * a := by omega
  have hd := four_dvd_unitMag
  have hlt : a < unitMag / 2 := by omega
  rw [triangle, if_pos (by simpa using hlt), Fp.nat_mul_fin 4 ha, Fp.neg_add_fin_of_lt (by omega) hr]

/-- The rising half, −1 + 4a from 0 up. -/
theorem triangle_of_quarter_le {a m : Nat} (hlt : a < unitMag / 2) (e : 4 * a = unitMag + m)
    (ha : Representable nf (4 * a)) (hr : Representable nf m) : triangle nf (.fin false a) = .fin false m := by
  obtain rfl : m = 4 * a - unitMag := by omega
  rw [triangle, if_pos (by simpa using hlt), Fp.nat_mul_fin 4 ha, Fp.neg_add_fin_of_le (by omega) hr]

/-- The falling half, 3 − 4a. -/
theorem triangle_of_half_le {a m : Nat} (hle : unitMag / 2 ≤ a) (e : 4 * a + m = 3 * unitMag)
    (ha : Representable nf (4 * a)) (hr : Representable nf m) : triangle nf (.fin false a) = .fin false m := by
  obtain rfl : m = 3 * unitMag - 4 * a := by omega
  rw [triangle, if_neg (by simpa using hle), Fp.nat_mul_fin 4 ha, Fp.sub_fin_of_le (by omega) hr]

section
variable (hf : nf.wellFormed = true)
include hf

/-- 0 to 3 steps of a power of two about 1: every format has two significant bits. -/
theorem representable_two_bits {i k : Nat} (hi : i < 4) (hk : 1071 ≤ k) (hk' : k ≤ 1076) :
    Representable nf (i * 2 ^ k) := by
  obtain ⟨hp, -, hq, hl, -⟩ := format_bounds hf
  exact representable_of_mul (hi.trans_le (Nat.pow_le_pow_right two_pos hp)) (by omega) (by omega)

theorem representable_halves (i : Nat) {m : Nat} (hi : i < 4) (e : m = i * (unitMag / 2)) : Representable nf m := by
  rw [e, (Fp.fin.inj Fp.half_eq).2]
  exact representable_two_bits hf hi (by omega) (by omega)

theorem representable_units (i : Nat) {m : Nat} (hi : i < 4) (e : m = i * unitMag) : Representable nf m := by
  rw [e, unitMag_eq]
  exact representable_two_bits hf hi (by omega) (by omega)

theorem triangle_quarter_phases :
    [Fp.zero, .quarter, .half, .threeQuarters].map (triangle nf) = [.negOne, .zero, .one, .zero] := by
  have hu := unitMag_pos
  have hd := four_dvd_unitMag
  have h0 : triangle nf .zero = .negOne :=
    triangle_of_lt_quarter (by omega) hu (representable_units hf 0 (by omega) (by omega)) (representable_unit hf)
  have h1 : triangle nf .quarter = .zero :=
    triangle_of_quarter_le (by omega) (by omega) (representable_units hf 1 (by omega) (by omega))
      (representable_zero nf)
  have h2 : triangle nf .half = .one :=
    triangle_of_half_le le_rfl (by omega) (representable_units hf 2 (by omega) (by omega)) (representable_unit hf)
  have h3 : triangle nf .threeQuarters = .zero :=
    triangle_of_half_le (by omega) (by omega) (representable_units hf 3 (by omega) (by omega))
      (representable_zero nf)
  simp only [List.map_cons, List.map_nil, h0, h1, h2, h3]

theorem sawtooth_quarter_phases :
    [Fp.zero, .quarter, .half, .threeQuarters].map (sawtooth nf) =
      [.negOne, .fin true (unitMag / 2), .zero, .half] := by
  have hu := unitMag_pos
  have hd := four_dvd_unitMag
  have hhalf : Representable nf (unitMag / 2) := representable_halves hf 1 (by omega) (by omega)
  have h0 : sawtooth nf .zero = .negOne :=
    sawtooth_of_lt_half (by omega) hu (representable_halves hf 0 (by omega) (by omega)) (representable_unit hf)
  have h1 : sawtooth nf .quarter = .fin true (unitMag / 2) :=
    sawtooth_of_lt_half (by omega) (by omega) (representable_halves hf 1 (by omega) (by omega)) hhalf
  have h2 : sawtooth nf .half = .zero :=
    sawtooth_of_half_le (by omega) (representable_halves hf 2 (by omega) (by omega)) (representable_zero nf)
  have h3 : sawtooth nf .threeQuarters = .half :=
    sawtooth_of_half_le (by omega) (representable_halves hf 3 (by omega) (by omega)) hhalf
  simp only [List.map_cons, List.map_nil, h0, h1, h2, h3]

end

end

/-! ## The statements -/

/-- Settles O30: the sum is finite and not negative, and its wrap is its fractional part. -/
theorem phaseAdvanceStaysInUnit : Obligations.PhaseAdvanceStaysInUnit := by
  intro nf ph inc hf hph hinc
  have hsum := ((unitPhase_iff hf ph).mp hph).add_isIncrement hf ⟨Fp.ofWord_proper hf inc, hinc⟩
  exact (hsum.wrap_isPhase hf).unitPhase_toWord hf

/-- Settles O31: the three courses of the phases' advance. -/
theorem hardSyncResetsPhase : Obligations.HardSyncResetsPhase := by
  rintro c ph sp nf rfl
  exact ⟨fun _ hs => ⟨advancePhases_of_sync_wrap hs ph, advancePhases_of_sync_below hs ph⟩,
    fun hs => advancePhases_unsynced hs ph sp⟩

/-- Settles O29: the phases, sync phases and draw counts are those of the states between the samples. -/
theorem generateFollowsLoop : Obligations.GenerateFollowsLoop := by
  rintro ps p key n sr o d inc sinc nf rfl hw rfl rfl
  refine ⟨fun i => (generateState ps p key sr o d i).phase, fun i => (generateState ps p key sr o d i).sync,
    fun i => (generateState ps p key sr o d i).draws, rfl, rfl, rfl,
    fun i hi => (generate_getElem? ps p key hi sr o d).trans (congrArg some (waveVal_sample _ _)),
    fun i _ => ⟨_, rfl, generateState_draws_succ ps hw key sr o d i, ?_, ?_, ?_⟩, generate_length .., rfl, rfl⟩
  · exact fun hs => generateState_phases_succ (advancePhases_unsynced (genCtx_sinc_of_no_sync ps hs key sr) _ _)
  · exact fun hs hb =>
      generateState_phases_succ (advancePhases_of_sync_below (genCtx_sinc_of_sync ps hs key sr) _ hb)
  · exact fun hs hb =>
      generateState_phases_succ (advancePhases_of_sync_wrap (genCtx_sinc_of_sync ps hs key sr) _ hb)

/-- Settles O34: a period is 2^k steps, once around the circle. -/
theorem phaseReturnsAfterPeriod : Obligations.PhaseReturnsAfterPeriod := by
  intro c g k j hf hk hq hj hs hinc hg
  rw [genSamples_phase_steps hf hk hq hs hinc _ hj hg, hg, Nat.add_mod_right, Nat.mod_eq_of_lt hj]

/-- Settles O32: the comparison of the phase with the duty decides, and a NaN is in no order. -/
theorem pulseCorners : Obligations.PulseCorners := fun _ _ _ =>
  ⟨pulse_of_lt, pulse_of_not_lt,
    fun hd hp => pulse_of_not_lt (Fp.not_lt_of_le (Fp.le_trans hd hp)),
    fun hd hp => pulse_of_lt (Fp.lt_trans hp hd),
    fun hnan => pulse_of_not_lt (Fp.not_lt_of_eq_self_false hnan)⟩

/-- Settles O33: every product, sum and difference is exact. -/
theorem waveformsAtQuarterPhases : Obligations.WaveformsAtQuarterPhases := by
  intro nf hf
  have hhalf : unitMag / 2 = 2 ^ 1073 := (Fp.fin.inj Fp.half_eq).2
  exact ⟨triangle_quarter_phases hf, hhalf ▸ sawtooth_quarter_phases hf⟩

end Sys2Proof.Machine

/-! The Resonant Filter (43_filter.md): FILTER's block as a run of samples, and the coefficient map on
eighths, the multiples of FILT_STEP. -/

namespace Sys2Proof.Machine

section
set_option exponentiation.threshold 4096

section
variable {nf : NumFormat}

/-! ## A block as a run of samples -/

/-- One sample of the recurrence (43_filter.md R163), from the old v0 and v1 to the new ones. -/
def filterSample (nf : NumFormat) (k : Coeffs) (x : Fp) (v : Fp × Fp) : Fp × Fp :=
  let w0 := Fp.add nf (Fp.sub nf (Fp.mul nf k.fb v.1) (Fp.mul nf k.c v.2)) (Fp.mul nf k.c x)
  (w0, Fp.add nf (Fp.mul nf k.fb v.2) (Fp.mul nf k.c w0))

/-- v0 and v1 before sample `i` of the block. -/
def filterState (nf : NumFormat) (k : Coeffs) (xs : List Fp) (a b : Fp) (i : Nat) : Fp × Fp :=
  (filterBlock nf k (xs.take i) a b).2

theorem filterState_length (k : Coeffs) (xs : List Fp) (a b : Fp) :
    filterState nf k xs a b xs.length = (filterBlock nf k xs a b).2 := by
  rw [filterState, List.take_length]

/-- Each sample is one step of the recurrence. -/
theorem filterState_succ (k : Coeffs) {xs : List Fp} {i : Nat} {x : Fp} (h : xs[i]? = some x) (a b : Fp) :
    filterState nf k xs a b (i + 1) = filterSample nf k x (filterState nf k xs a b i) := by
  induction xs generalizing i a b with
  | nil => simp at h
  | cons y ys ih =>
    cases i with
    | zero =>
      obtain rfl : y = x := by simpa using h
      rfl
    | succ i => exact ih (by simpa using h) _ _

/-- The output of a sample is the v1 it leaves. -/
theorem filterBlock_getElem? (k : Coeffs) {xs : List Fp} {i : Nat} (h : i < xs.length) (a b : Fp) :
    (filterBlock nf k xs a b).1[i]? = some (filterState nf k xs a b (i + 1)).2 := by
  induction xs generalizing i a b with
  | nil => simp at h
  | cons y ys ih =>
    cases i with
    | zero => rfl
    | succ i => exact ih (by simpa using h) _ _

/-! ## The block of a voice -/

/-- The coefficients FILTER forms once, from the envelope at the block start. -/
def voiceCoeffs (p : Params) (cfg : GlobalCfg) (v : Voice) (time : Fp) : Coeffs :=
  coeffs p (effectiveCutoff p.num cfg (filterEnv p.num cfg v time)) (Fp.ofWord p.num cfg.resonance)

/-- v0 and v1 of a voice before sample `i` of the block that FILTER filters. -/
def voiceFilterState (p : Params) (cfg : GlobalCfg) (v : Voice) (time : Fp) (xs : List Fp) (i : Nat) : Fp × Fp :=
  filterState p.num (voiceCoeffs p cfg v time) xs (Fp.ofWord p.num v.f0) (Fp.ofWord p.num v.f1) i

theorem voiceFilterState_succ (p : Params) (cfg : GlobalCfg) (v : Voice) (time : Fp) {xs : List Fp} {i : Nat}
    {x : Fp} (h : xs[i]? = some x) : voiceFilterState p cfg v time xs (i + 1) =
      filterSample p.num (voiceCoeffs p cfg v time) x (voiceFilterState p cfg v time xs i) :=
  filterState_succ _ h _ _

theorem filter_getElem? (p : Params) (cfg : GlobalCfg) (v : Voice) (time : Fp) {xs : List Fp} {i : Nat}
    (h : i < xs.length) :
    (filter p cfg v time xs).1[i]? = some (voiceFilterState p cfg v time xs (i + 1)).2 :=
  filterBlock_getElem? _ h _ _

/-- The voice keeps the state after the last sample. -/
theorem filter_voice (p : Params) (cfg : GlobalCfg) (v : Voice) (time : Fp) (xs : List Fp) :
    (filter p cfg v time xs).2 =
      { v with
        f0 := (voiceFilterState p cfg v time xs xs.length).1.toWord
        f1 := (voiceFilterState p cfg v time xs xs.length).2.toWord } := by
  rw [voiceFilterState, filterState_length]
  rfl

/-! ## Eighths in binary64 -/

/-- n × 0.125 -/
def Fp.eighths (n : Nat) : Fp := .fin false (n * 2 ^ 1071)

theorem Fp.eighths_one : Fp.eighths 1 = .fin false (2 ^ 1071) := by rw [Fp.eighths, Nat.one_mul]

theorem Fp.zero_eq_eighths : Fp.zero = .eighths 0 := by rw [Fp.eighths, Nat.zero_mul]

theorem Fp.half_eq_eighths : Fp.half = .eighths 4 := by
  rw [Fp.half_eq, Fp.eighths, show 4 = 2 ^ 2 from rfl, ← pow_add]

theorem Fp.one_eq_eighths : Fp.one = .eighths 8 := by
  rw [Fp.one_eq, Fp.eighths, show 8 = 2 ^ 3 from rfl, ← pow_add]

theorem representable64_mul_two_pow {m k : Nat} (hm : m < 2 ^ 53) (hk : k ≤ 2045) :
    Representable .binary64 (m * 2 ^ k) :=
  representable_of_mul hm (Nat.zero_le _) (by show 53 + k ≤ 2098; omega)

theorem Fp.add_eighths {m n : Nat} (h : m + n < 2 ^ 53) :
    Fp.add .binary64 (Fp.eighths m) (Fp.eighths n) = Fp.eighths (m + n) := by
  have e := Nat.add_mul m n (2 ^ 1071)
  rw [Fp.eighths, Fp.eighths, Fp.add_fin (e ▸ representable64_mul_two_pow h (by norm_num)), ← e, Fp.eighths]

theorem Fp.sub_eighths {m n : Nat} (hn : n ≤ m) (h : m - n < 2 ^ 53) :
    Fp.sub .binary64 (Fp.eighths m) (Fp.eighths n) = Fp.eighths (m - n) := by
  have e := Nat.sub_mul m n (2 ^ 1071)
  rw [Fp.eighths, Fp.eighths, Fp.sub_fin_of_le (Nat.mul_le_mul_right _ hn)
    (e ▸ representable64_mul_two_pow h (by norm_num)), ← e, Fp.eighths]

/-- n eighths over one eighth is the integer n. -/
theorem Fp.div_eighths {n : Nat} (h : n < 2 ^ 53) :
    Fp.div .binary64 (Fp.eighths n) (Fp.eighths 1) = Fp.ofNat n := by
  have hr : Representable .binary64 (n * unitMag) := unitMag_eq ▸ representable64_mul_two_pow h (by norm_num)
  rw [Fp.eighths_one, Fp.eighths, Fp.div, if_neg (Nat.two_pow_pos _).ne']
  exact Fp.ofRatio_exact _ (Nat.two_pow_pos _) (Nat.mul_right_comm _ _ _) hr

/-- One eighth is the step of the exponent: 0.5^(n/8 ÷ 1/8) = 2^−n. -/
theorem pow_half_div_eighths {n : Nat} (h : n ≤ 1074) :
    pow .binary64 .half (Fp.div .binary64 (Fp.eighths n) (Fp.eighths 1)) = .fin false (2 ^ (1074 - n)) := by
  rw [Fp.div_eighths (by omega), pow_half_ofNat binary64_wellFormed h (Nat.zero_le _)]

/-- r of R162 at n eighths of resonance is 2^−(n + 1). -/
theorem pow_half_resonance {res : Fp} {n : Nat} (hres : res = .eighths n) (h : n < 1074) :
    pow .binary64 .half (Fp.div .binary64 (Fp.add .binary64 res (Fp.eighths 1)) (Fp.eighths 1)) =
      .fin false (2 ^ (1073 - n)) := by
  rw [hres, Fp.add_eighths (by omega), pow_half_div_eighths h, show 1074 - (n + 1) = 1073 - n by omega]

/-- c of R162 at m eighths of cutoff is 2^−(8 − m). -/
theorem pow_half_cutoff {cut : Fp} {m : Nat} (hcut : cut = .eighths m) (h : m ≤ 8) :
    pow .binary64 .half (Fp.div .binary64 (Fp.sub .binary64 .one cut) (Fp.eighths 1)) =
      .fin false (2 ^ (1066 + m)) := by
  rw [hcut, Fp.one_eq_eighths, Fp.sub_eighths h (by omega), pow_half_div_eighths (by omega),
    show 1074 - (8 - m) = 1066 + m by omega]

/-- 1 − 2^−j, exactly. -/
theorem Fp.one_sub_two_pow {k : Nat} (hk : k ≤ 1074) (hk' : 1022 ≤ k) :
    Fp.sub .binary64 .one (.fin false (2 ^ k)) = .fin false (2 ^ 1074 - 2 ^ k) := by
  have e : (2 ^ (1074 - k) - 1) * 2 ^ k = 2 ^ 1074 - 2 ^ k := by
    rw [Nat.sub_mul, ← pow_add, Nat.sub_add_cancel hk, Nat.one_mul]
  have hm : 2 ^ (1074 - k) ≤ 2 ^ 52 := Nat.pow_le_pow_right two_pos (by omega)
  rw [Fp.one_eq, Fp.sub_fin_of_le (Nat.pow_le_pow_right two_pos hk)
    (e ▸ representable64_mul_two_pow (by omega) (by omega))]

end

/-! ## The coefficient map -/

section
variable {p : Params} (hn : p.num = .binary64)
include hn

theorem ofWord_filtBase (h : p.filtBase = F64.half) : Fp.ofWord p.num p.filtBase = .half := by
  rw [h, hn, Fp.ofWord_binary64, Fp.half_eq]
  decide +kernel

theorem ofWord_filtStep (h : p.filtStep = F64.eighth) : Fp.ofWord p.num p.filtStep = Fp.eighths 1 := by
  rw [h, hn, Fp.ofWord_binary64]
  decide +kernel

/-- The map at m eighths of cutoff and n of resonance: c = 2^−(8 − m), and fb = 1 − r × c with r = 2^−(n + 1). -/
theorem coeffs_of_eighths (hb : p.filtBase = F64.half) (hs : p.filtStep = F64.eighth) {cut res : Fp} {m n : Nat}
    (hcut : cut = .eighths m) (hres : res = .eighths n) (hm : m ≤ 8) (hn' : n ≤ 8) :
    coeffs p cut res = ⟨.fin false (2 ^ (1066 + m)), .fin false (2 ^ 1074 - 2 ^ (1065 + m - n))⟩ := by
  have hprod := Fp.mul_two_pow binary64_wellFormed (a := 1073 - n) (b := 1066 + m) (c := 1065 + m - n)
    (by omega) (Nat.zero_le _) (by show _ < 2098; omega)
  simp only [coeffs, ofWord_filtBase hn hb, ofWord_filtStep hn hs]
  rw [hn, pow_half_resonance hres (by omega), pow_half_cutoff hcut hm, hprod,
    Fp.one_sub_two_pow (by omega) (by omega)]

end

/-- The fractions of R162's table: 1 − 2^−9 and 1 − 2^−17. -/
theorem ofWord_one_sub_two_pow_neg_nine :
    Fp.ofWord .binary64 0x3FEFF00000000000#64 = .fin false (2 ^ 1074 - 2 ^ 1065) := by
  rw [Fp.ofWord_binary64]
  decide +kernel

theorem ofWord_one_sub_two_pow_neg_seventeen :
    Fp.ofWord .binary64 0x3FEFFFF000000000#64 = .fin false (2 ^ 1074 - 2 ^ 1057) := by
  rw [Fp.ofWord_binary64]
  decide +kernel

/-! ## The statements -/

/-- Settles O35: v0 and v1 are the states between the samples. -/
theorem filterFollowsLoop : Obligations.FilterFollowsLoop := by
  rintro p cfg v time xs nf rfl
  refine ⟨_, _, (voiceCoeffs p cfg v time).c, _, (voiceCoeffs p cfg v time).fb,
    fun i => (voiceFilterState p cfg v time xs i).1, fun i => (voiceFilterState p cfg v time xs i).2,
    rfl, rfl, rfl, rfl, rfl, rfl, rfl, fun i x hx => ?_, filter_length .., filter_voice ..⟩
  obtain ⟨hi, -⟩ := List.getElem?_eq_some_iff.mp hx
  have hstep := voiceFilterState_succ p cfg v time hx
  refine ⟨congrArg Prod.fst hstep, ?_, filter_getElem? p cfg v time hi⟩
  simp only [hstep]
  rfl

/-- Settles O36: the map is R162's as written, and the boundaries are multiples of an eighth. -/
theorem filterCoefficientMap : Obligations.FilterCoefficientMap := by
  refine ⟨?_, ?_, fun p hn hb hs => ?_⟩
  · rintro p cut res nf rfl
    exact ⟨rfl, rfl⟩
  · rintro nf step rfl rfl
    rw [← Fp.eighths_one]
    exact ⟨(pow_half_resonance Fp.zero_eq_eighths (by norm_num)).trans Fp.half_eq.symm,
      pow_half_resonance Fp.one_eq_eighths (by norm_num), pow_half_resonance Fp.half_eq_eighths (by norm_num)⟩
  · have one_sub_half : 2 ^ 1074 - 2 ^ 1073 = 2 ^ 1073 := by norm_num
    rw [hn, ofWord_one_sub_two_pow_neg_nine, ofWord_one_sub_two_pow_neg_seventeen]
    refine ⟨?_, ?_, coeffs_of_eighths hn hb hs Fp.zero_eq_eighths Fp.zero_eq_eighths (by norm_num) (by norm_num),
      coeffs_of_eighths hn hb hs Fp.zero_eq_eighths Fp.one_eq_eighths (by norm_num) le_rfl,
      coeffs_of_eighths hn hb hs Fp.half_eq_eighths Fp.half_eq_eighths (by norm_num) (by norm_num)⟩
    · rw [coeffs_of_eighths hn hb hs Fp.one_eq_eighths Fp.zero_eq_eighths le_rfl (by norm_num), one_sub_half,
        ← Fp.half_eq, ← Fp.one_eq]
    · rw [coeffs_of_eighths hn hb hs Fp.one_eq_eighths Fp.one_eq_eighths le_rfl le_rfl, ← Fp.one_eq]

end

end Sys2Proof.Machine

/-! The invariant of the state: its parts (STATUS, the voices, OUT, the scratch buffers), each kept by the
operations that touch it, and by every command and every step. -/

namespace Sys2Proof.Machine

/-! ## STATUS -/

/-- A legal STATUS beside the fault log, with `n` slots (10_state.md R33, 60_exceptions.md R251, R264). -/
structure Status.Legal (n : Nat) (log : List Cause) (st : Status) : Prop where
  no_error     : st.err = false → st.cause = 0#4 ∧ st.errSlot = 0#4
  error_cause  : st.err = true → 1 ≤ st.cause.toNat ∧ st.cause.toNat ≤ 5
  error_slot   : st.errSlot = 0#4 ∨ (st.cause = 3#4 ∧ st.errSlot.toNat < n)
  error_logged : st.err = true → log ≠ []

theorem Cause.code_range (c : Cause) : 1 ≤ c.code.toNat ∧ c.code.toNat ≤ 5 := by
  cases c <;> decide

section
variable {n : Nat} {log : List Cause} {st : Status} (h : st.Legal n log)
include h

/-- A ConfigError is logged, and the first since the last clear is recorded with its slot. -/
theorem recordError_legal {c : Cause} {k : BitVec 4} (hk : k = 0#4 ∨ (c = .badWaveform ∧ k.toNat < n)) :
    (recordError c k st).Legal n (log ++ [c]) := by
  have hlog : log ++ [c] ≠ [] := by simp
  cases he : st.err with
  | true =>
    rw [recordError_of_err c k he]
    exact { h with error_logged := fun _ => hlog }
  | false =>
    rw [recordError_of_clear c k he]
    exact { no_error := nofun
            error_cause := fun _ => c.code_range
            error_slot := hk.imp_right fun ⟨hc, hlt⟩ => ⟨hc ▸ rfl, hlt⟩
            error_logged := fun _ => hlog }

theorem recordOverflow_legal : (recordOverflow st).Legal n log := { h with }

theorem clearOverflow_legal : (clearOverflow st).Legal n log := { h with }

omit h in
theorem clearErrorGroup_legal (st : Status) : (clearErrorGroup st).Legal n log where
  no_error := fun _ => ⟨rfl, rfl⟩
  error_cause := nofun
  error_slot := .inl rfl
  error_logged := nofun

theorem clearStatus_legal (mask : BitVec 2) : (clearStatus mask st).Legal n log := by
  have h1 : (if mask.getLsbD 0 then clearErrorGroup st else st).Legal n log := by
    split
    · exact clearErrorGroup_legal st
    · exact h
  simp only [clearStatus]
  split
  · exact clearOverflow_legal h1
  · exact h1

end

/-! ## Voices -/

/-- A legal set of voices (10_state.md R28, R30). -/
structure VoicesLegal (p : Params) (vs : List Voice) : Prop where
  voices_length : vs.length ≤ p.maxVoices
  keys_distinct : (vs.map Voice.key).Nodup
  osc_length    : ∀ v ∈ vs, v.osc.length = p.oscSlots

theorem findVoice_eq_none_iff (key : Key) (vs : List Voice) :
    findVoice key vs = none ↔ key ∉ vs.map Voice.key := by
  simp [findVoice]

@[simp] theorem retrigger_key (nf : NumFormat) (c : GlobalCfg) (slots : List SlotCfg) (time : F64) (v : Voice) :
    (retrigger nf c slots time v).key = v.key := rfl

@[simp] theorem release_key (nf : NumFormat) (c : GlobalCfg) (slots : List SlotCfg) (time : F64) (v : Voice) :
    (release nf c slots time v).key = v.key := rfl

theorem voicesLegal_nil (p : Params) : VoicesLegal p [] where
  voices_length := Nat.zero_le _
  keys_distinct := List.nodup_nil
  osc_length := List.forall_mem_nil _

section
variable {p : Params} {vs : List Voice} (h : VoicesLegal p vs)
include h

theorem modifyVoice_legal (key : Key) {f : Voice → Voice} (hkey : ∀ v, (f v).key = v.key)
    (hosc : ∀ v ∈ vs, (f v).osc.length = v.osc.length) : VoicesLegal p (modifyVoice key f vs) where
  voices_length := modifyVoice_length key f vs ▸ h.voices_length
  keys_distinct := modifyVoice_keys key hkey vs ▸ h.keys_distinct
  osc_length := by
    intro u hu
    obtain ⟨v, hv, rfl | rfl⟩ := mem_modifyVoice hu
    · exact h.osc_length u hv
    · exact (hosc v hv).trans (h.osc_length v hv)

theorem append_freshVoice_legal (hl : vs.length < p.maxVoices) {key : Key} (hk : key ∉ vs.map Voice.key)
    (time : F64) : VoicesLegal p (vs ++ [freshVoice p key time]) where
  voices_length := by simpa using hl
  keys_distinct := by
    rw [List.map_append]
    exact h.keys_distinct.append (List.nodup_singleton _) (List.disjoint_singleton.mpr hk)
  osc_length := List.forall_mem_append.mpr
    ⟨h.osc_length, List.forall_mem_singleton.mpr List.length_replicate⟩

/-- A block drops voices and changes neither a key nor the number of oscillator states. -/
theorem renderVoices_legal {b : BlockCtx} (hb : b.slots.length ≤ p.oscSlots) {acc : MixAcc}
    (hk : acc.kept = []) : VoicesLegal p (renderVoices b vs acc).kept := by
  obtain ⟨ks, hks, hr⟩ := renderVoices_kept b vs acc fun v hv => h.osc_length v hv ▸ hb
  rw [hks, hk, List.nil_append]
  refine ⟨?_, ?_, fun v' hv' => ?_⟩
  · rw [← hr.length_eq]
    exact (List.length_filter_le _ _).trans h.voices_length
  · rw [rendered_keys hr]
    exact h.keys_distinct.sublist (List.filter_sublist.map _)
  · obtain ⟨v, hv, hrv⟩ := exists_of_mem_rendered hr v' hv'
    exact hrv.amps.length_eq.symm.trans (h.osc_length v (List.mem_of_mem_filter hv))

end

/-! ## Buffers -/

theorem Cells.below_iff (bound : Nat) (m : Cells) : Cells.below bound m = true ↔ ∀ c ∈ m, c.1 < bound := by
  simp [Cells.below]

/-- A legal OUT (10_state.md R35). -/
structure OutLegal (bound : Nat) (m : Cells) : Prop where
  out_wf    : Memory.wf m = true
  out_below : Cells.below bound m = true

section
variable {bound : Nat} {m : Cells} {ws : List Word} (hl : ws.length ≤ bound)
include hl

theorem outStore_legal (h : OutLegal bound m) : OutLegal bound (outStore ws m) where
  out_wf := outStore_wf ws h.out_wf
  out_below := by
    rw [Cells.below_iff]
    intro c hc
    exact (mem_outStore hc).elim (·.trans_le hl) ((Cells.below_iff bound m).mp h.out_below c)

theorem storeBlock_legal (h : scratchWf m = true ∧ Cells.below bound m = true) :
    scratchWf (Cells.storeBlock ws m) = true ∧ Cells.below bound (Cells.storeBlock ws m) = true := by
  refine ⟨Cells.storeBlock_rising ws h.1, (Cells.below_iff _ _).mpr fun c hc => ?_⟩
  exact (Cells.mem_storeBlock hc).elim (·.trans_le hl) ((Cells.below_iff bound m).mp h.2 c)

end

/-! ## Updates of the state -/

section
variable {s : State} (h : s.Inv)
include h

theorem State.Inv.status_legal : s.status.Legal s.params.oscSlots s.faultLog :=
  ⟨h.no_error, h.error_cause, h.error_slot, h.error_logged⟩

theorem State.Inv.voices_legal : VoicesLegal s.params s.voices :=
  ⟨h.voices_length, h.keys_distinct, h.osc_length⟩

theorem State.Inv.out_legal : OutLegal s.params.maxBlock s.out := ⟨h.out_wf, h.out_below⟩

theorem State.Inv.activeSlots_length_le : s.activeSlots.length ≤ s.params.oscSlots :=
  h.slots_length ▸ List.length_take_le' ..

theorem State.Inv.activeSlots_length_le_osc {v : Voice} (hv : v ∈ s.voices) :
    s.activeSlots.length ≤ v.osc.length :=
  h.osc_length v hv ▸ h.activeSlots_length_le

theorem take_inv (rest : List PortInput) : (s.take rest).Inv := { h with }

theorem respond_inv (w : Word) : (s.respond w).Inv := { h with }

theorem setVoices_inv {vs : List Voice} (hv : VoicesLegal s.params vs) : (s.setVoices vs).Inv := { hv, h with }

theorem setStatus_inv {st : Status} (hst : st.Legal s.params.oscSlots s.faultLog) : (s.setStatus st).Inv :=
  { hst, h with }

theorem setOut_inv {m : Cells} (hm : OutLegal s.params.maxBlock m) : (s.setOut m).Inv := { hm, h with }

theorem regWrite_inv (a : BitVec 12) (w : Word) : (regWrite s a w).Inv := by
  rw [regWrite_eq]
  exact { h with
    slots_length := (regWrite_slots_length s a w).trans h.slots_length
    osc_count := regWrite_oscCount_le a w h.osc_count }

theorem resetEngine_inv : (resetEngine s).Inv := { resetWith_inv h.params_wf with error_logged := nofun }

theorem resetByPin_inv (rest : List PortInput) : (resetByPin rest s).Inv := { resetEngine_inv h with }

/-! ## Commands and steps -/

/-- The slot of a failing check is a slot of the engine, of which there are at most 16. -/
theorem validate_slot_lt {n : Nat} {sr : F64} {c : Cause} {k : BitVec 4} (hv : validate s n sr = some (c, k)) :
    k = 0#4 ∨ (c = .badWaveform ∧ k.toNat < s.params.oscSlots) := by
  refine (validate_some_slot hv).imp_right ?_
  rintro ⟨hc, j, rfl, hj⟩
  have hle := h.activeSlots_length_le
  obtain ⟨-, -, h16, -⟩ := (Params.wellFormed_iff s.params).mp h.params_wf
  refine ⟨hc, ?_⟩
  rw [BitVec.toNat_ofNat, Nat.mod_eq_of_lt (by omega)]
  omega

theorem raiseConfigError_inv {n : Nat} {sr : F64} {c : Cause} {k : BitVec 4}
    (hv : validate s n sr = some (c, k)) : (raiseConfigError c k n s).Inv := by
  have hst := recordError_legal h.status_legal (validate_slot_lt h hv)
  have hout : OutLegal s.params.maxBlock (if c = .badBlockLen then s.out else outStore (zeroBlock n) s.out) := by
    split
    · exact h.out_legal
    · next hc =>
      exact outStore_legal (List.length_replicate.trans_le (validate_some_length hv hc).2) h.out_legal
  rw [raiseConfigError_eq]
  exact { hst, hout, h with }

theorem storeBlock_renderBlock_inv {n : Nat} (hn : n ≤ s.params.maxBlock) (time sr : F64) :
    (storeBlock (renderBlock s n time sr) s).Inv := by
  obtain ⟨hout, hosc, hnote⟩ := renderVoices_lengths (blockCtx s n time sr) s.voices (mixStart s n)
    List.length_replicate (Nat.zero_le _) (Nat.zero_le _)
  have hvoices : VoicesLegal s.params (renderBlock s n time sr).kept :=
    renderVoices_legal h.voices_legal h.activeSlots_length_le rfl
  have hout' : OutLegal s.params.maxBlock (outStore ((renderBlock s n time sr).out.map Fp.toWord) s.out) :=
    outStore_legal (by rw [List.length_map]; exact hout.trans_le hn) h.out_legal
  exact { hvoices, hout', h with
    osc_buf := storeBlock_legal (by rw [List.length_map]; exact hosc.trans hn) h.osc_buf
    note_buf := storeBlock_legal (by rw [List.length_map]; exact hnote.trans hn) h.note_buf }

theorem retrigger_osc_length {v : Voice} (hv : v ∈ s.voices) (time : F64) :
    (retrigger s.params.num s.cfg s.activeSlots time v).osc.length = v.osc.length :=
  mapActive_length _ _ _ (h.activeSlots_length_le_osc hv)

theorem release_osc_length {v : Voice} (hv : v ∈ s.voices) (time : F64) :
    (release s.params.num s.cfg s.activeSlots time v).osc.length = v.osc.length :=
  mapActive_length _ _ _ (h.activeSlots_length_le_osc hv)

theorem exec_noteOn_inv {t : State} {key : Key} {time : F64} (e : exec (.noteOn key time) s = .next t) :
    t.Inv := by
  rcases exec_noteOn_cases key time s with ⟨-, e'⟩ | ⟨-, -, e'⟩ | ⟨hnone, hl, e'⟩ <;> rw [e'] at e <;> cases e
  · exact setVoices_inv h (modifyVoice_legal h.voices_legal key (retrigger_key _ _ _ _)
      fun v hv => retrigger_osc_length h hv time)
  · exact setStatus_inv h (recordOverflow_legal h.status_legal)
  · have hk := (findVoice_eq_none_iff key s.voices).mp hnone
    exact setVoices_inv h (append_freshVoice_legal h.voices_legal hl hk time)

theorem exec_noteOff_inv {t : State} {key : Key} {time : F64} (e : exec (.noteOff key time) s = .next t) :
    t.Inv := by
  rcases exec_noteOff_cases key time s with ⟨-, e'⟩ | ⟨-, e'⟩ <;> rw [e'] at e <;> cases e
  · exact setVoices_inv h (modifyVoice_legal h.voices_legal key (release_key _ _ _ _)
      fun v hv => release_osc_length h hv time)
  · exact h

theorem exec_update_inv {t : State} {n : BitVec 16} {time sr : F64} (e : exec (.update n time sr) s = .next t) :
    t.Inv := by
  rcases exec_update_cases n time sr s with ⟨c, k, hv, e'⟩ | ⟨hv, -, e'⟩ | ⟨hv, -, e'⟩ <;> rw [e'] at e <;> cases e
  · exact raiseConfigError_inv h hv
  · exact setOut_inv h
      (outStore_legal (List.length_replicate.trans_le (validate_none_length hv).2) h.out_legal)
  · exact storeBlock_renderBlock_inv h (validate_none_length hv).2 time sr

theorem exec_inv {i : Instr} {t : State} (e : exec i s = .next t) : t.Inv := by
  cases i with
  | noteOn key time => exact exec_noteOn_inv h e
  | noteOff key time => exact exec_noteOff_inv h e
  | update n time sr => exact exec_update_inv h e
  | allNotesOff time => cases e; exact setVoices_inv h (voicesLegal_nil _)
  | cfgWrite addr w => cases e; exact regWrite_inv h addr w
  | cfgRead | outRead => cases e; exact respond_inv h _
  | statusClear mask => cases e; exact setStatus_inv h (clearStatus_legal h.status_legal mask)
  | reset => cases e; exact resetEngine_inv h
  | nop | rsvd9 | rsvdA | rsvdB | rsvdC | rsvdD | rsvdE => cases e; exact h

end

/-- Settles O58: every command and `rst` keep each part of the invariant, and taking beats off the port touches
none. -/
theorem stepKeepsInvariant : Obligations.StepKeepsInvariant := by
  intro s t h e
  rcases step_cases s with ⟨i, rest, -, e'⟩ | ⟨rest, -, e'⟩ | ⟨-, e'⟩ <;> rw [e'] at e
  · exact exec_inv (take_inv h rest) e
  · cases e
    exact resetByPin_inv h rest
  · cases e
    exact h

end Sys2Proof.Machine

/-! The event commands (44_events.md): what each leaves of the voices, and which voices a key has after a run of
them. -/

namespace Sys2Proof.Machine

/-! ## NOP, the reserved opcodes and ALL_NOTES_OFF -/

/-- Settles O14: none of the seven has an operand beat, and each is its own no-op. -/
theorem nopAndReservedChangeNothing : Obligations.NopAndReservedChangeNothing :=
  ⟨⟨Opcode.nop.encodedAs_command, Opcode.rsvd9.encodedAs_command, Opcode.rsvdA.encodedAs_command,
    Opcode.rsvdB.encodedAs_command, Opcode.rsvdC.encodedAs_command, Opcode.rsvdD.encodedAs_command,
    Opcode.rsvdE.encodedAs_command⟩,
   fun _ => ⟨rfl, rfl, rfl, rfl, rfl, rfl, rfl⟩⟩

theorem exec_allNotesOff (time : F64) (s : State) : exec (.allNotesOff time) s = .next (s.setVoices []) := rfl

/-- Settles O19: the opcode selects the command whatever KEY is. -/
theorem allNotesOffEmptiesVoices : Obligations.AllNotesOffEmptiesVoices :=
  ⟨Opcode.allNotesOff.encodedAs_command, fun s time => exec_allNotesOff time s⟩

/-! ## NOTE_ON and NOTE_OFF by whether the key is there -/

section
variable {key : Key} {s : State} (time : F64)

theorem exec_noteOn_of_mem (h : key ∈ s.voices.map Voice.key) : exec (.noteOn key time) s =
    .next (s.setVoices (modifyVoice key (retrigger s.params.num s.cfg s.activeSlots time) s.voices)) := by
  obtain ⟨v, hv⟩ := exists_findVoice (List.mem_map.mp h)
  simp only [exec, execNoteOn, hv]

theorem exec_noteOff_of_mem (h : key ∈ s.voices.map Voice.key) : exec (.noteOff key time) s =
    .next (s.setVoices (modifyVoice key (release s.params.num s.cfg s.activeSlots time) s.voices)) := by
  obtain ⟨v, hv⟩ := exists_findVoice (List.mem_map.mp h)
  simp only [exec, execNoteOff, hv]

theorem exec_noteOn_of_not_mem (h : key ∉ s.voices.map Voice.key) (hl : s.voices.length < s.params.maxVoices) :
    exec (.noteOn key time) s = .next (s.setVoices (s.voices ++ [freshVoice s.params key time])) := by
  simp only [exec, execNoteOn, (findVoice_eq_none_iff key s.voices).mpr h, if_neg hl.not_ge]

theorem exec_noteOn_of_full (h : key ∉ s.voices.map Voice.key) (hl : s.params.maxVoices ≤ s.voices.length) :
    exec (.noteOn key time) s = .next (s.setStatus (recordOverflow s.status)) := by
  simp only [exec, execNoteOn, (findVoice_eq_none_iff key s.voices).mpr h, if_pos hl]

theorem exec_noteOff_of_not_mem (h : key ∉ s.voices.map Voice.key) : exec (.noteOff key time) s = .next s := by
  simp only [exec, execNoteOff, (findVoice_eq_none_iff key s.voices).mpr h]

end

theorem key_not_mem_of_forall_ne {key : Key} {vs : List Voice} (h : ∀ v ∈ vs, v.key ≠ key) :
    key ∉ vs.map Voice.key := by
  simpa using h

/-- Settles O15: an absent key is appended where there is room, and dropped where there is none. -/
theorem noteOnFreshNote : Obligations.NoteOnFreshNote :=
  ⟨Opcode.noteOn.encodedAs_command, fun _ _ time _ habs =>
    ⟨fun hl => exec_noteOn_of_not_mem time (key_not_mem_of_forall_ne habs) hl,
      fun hl => exec_noteOn_of_full time (key_not_mem_of_forall_ne habs) hl.ge⟩⟩

/-! ## The voice of a present key -/

/-- A change of the slots in use, read by slot number: slots from OSC_COUNT on keep their states. -/
theorem mapActive_activeSlots_getElem? {s : State} {os : List OscState} (hl : s.activeSlots.length ≤ os.length)
    (f : SlotCfg → OscState → OscState) {k : Nat} {p : SlotCfg} {o : OscState} (hp : s.slots[k]? = some p)
    (ho : os[k]? = some o) :
    (mapActive f s.activeSlots os)[k]? = some (if k < s.oscCount then f p o else o) := by
  rw [mapActive_getElem? f _ _ _ hl, State.activeSlots, List.getElem?_take, hp, ho]
  by_cases hk : k < s.oscCount <;> simp [hk]

/-- With distinct keys, a change of the voice of a key is a change of its entry in place. -/
theorem setVoices_modifyVoice {s : State} (hinv : s.Inv) {before after : List Voice} {v : Voice}
    (hs : s.voices = before ++ v :: after) (f : Voice → Voice) :
    s.setVoices (modifyVoice v.key f s.voices) = { s with voices := before ++ f v :: after } := by
  have hd := hinv.keys_distinct
  rw [hs] at hd
  rw [hs, modifyVoice_of_mem f hd rfl]
  rfl

/-- Settles O16: RETRIGGER in place, whose ENVs read the voice as it was. -/
theorem noteOnRetriggers : Obligations.NoteOnRetriggers := by
  rintro s key time before after v nf hinv rfl hs rfl
  have hmem : v ∈ s.voices := hs ▸ List.mem_append_cons_self
  have hl := hinv.activeSlots_length_le_osc hmem
  refine ⟨retrigger s.params.num s.cfg s.activeSlots time v, ?_, rfl, rfl, rfl, rfl, rfl, rfl, rfl,
    retrigger_osc_length hinv hmem time, fun k p o hp ho => mapActive_activeSlots_getElem? hl _ hp ho⟩
  rw [exec_noteOn_of_mem time (List.mem_map_of_mem hmem), setVoices_modifyVoice hinv hs]

/-- Settles O17: the release in place, whose ENVs read the voice as it was; an absent key is not found. -/
theorem noteOffReleases : Obligations.NoteOffReleases := by
  refine ⟨Opcode.noteOff.encodedAs_command, fun _ _ time habs =>
    exec_noteOff_of_not_mem time (key_not_mem_of_forall_ne habs), ?_⟩
  rintro s key time before after v nf hinv rfl hs rfl
  have hmem : v ∈ s.voices := hs ▸ List.mem_append_cons_self
  have hl := hinv.activeSlots_length_le_osc hmem
  refine ⟨release s.params.num s.cfg s.activeSlots time v, ?_, rfl, rfl, rfl, rfl, rfl, rfl, rfl,
    release_osc_length hinv hmem time, fun k p o hp ho => mapActive_activeSlots_getElem? hl _ hp ho⟩
  rw [exec_noteOff_of_mem time (List.mem_map_of_mem hmem), setVoices_modifyVoice hinv hs]

/-! ## A release at time 0 or NaN -/

theorem slotEnv_release (nf : NumFormat) (c : GlobalCfg) (slots : List SlotCfg) (time : F64) (v : Voice)
    (p : SlotCfg) (o : OscState) (cur : Fp) : slotEnv nf p (release nf c slots time v) o cur =
      env nf p.env cur (Fp.ofWord nf v.onTime) (Fp.ofWord nf time) (Fp.ofWord nf o.onAmp)
        (Fp.ofWord nf o.offAmp) := rfl

theorem Fp.eq_nan_of_eq_self_false {x : Fp} (h : Fp.eq x x = false) : ∃ w, x = .nan w := by
  cases x with
  | nan w => exact ⟨w, rfl⟩
  | inf s => simp [Fp.eq] at h
  | fin s a => simp [Fp.eq] at h

/-- The time elapsed since a NaN is a NaN, which is below nothing. -/
theorem elapsed_nan_not_lt (nf : NumFormat) (cur : Fp) (w : F64) (y : Fp) :
    Fp.lt (elapsed nf cur (.nan w)) y = false := by
  have hsub : (Fp.sub nf cur (.nan w)).value = none := by cases cur <;> rfl
  have hlt : ∀ y, Fp.lt (Fp.sub nf cur (.nan w)) y = false := fun y => by rw [Fp.lt, hsub]
  rw [elapsed, hlt .zero]
  exact hlt y

/-- Settles O18: ENV's held branch is taken at time ±0; at NaN the release is over at every time. -/
theorem noteOffAtZeroOrNaN : Obligations.NoteOffAtZeroOrNaN := by
  intro nf c slots time v p o cur
  rw [slotEnv_release]
  refine ⟨env_of_held, fun hnan => ?_⟩
  obtain ⟨w, hw⟩ := Fp.eq_nan_of_eq_self_false hnan
  rw [hw, env_of_released (by simp [Fp.eq]), envReleased_of_over (elapsed_nan_not_lt nf cur w _)]

/-! ## Events of one key -/

/-- A NOTE_ON or a NOTE_OFF of a key. -/
def EventOf (key : Key) (i : Instr) : Prop := ∃ u : F64, i = .noteOn key u ∨ i = .noteOff key u

/-- A NOTE_ON that is not dropped leaves a voice of its key. -/
theorem exec_noteOn_leaves_key {key : Key} {s : State} (time : F64)
    (h : key ∈ s.voices.map Voice.key ∨ s.voices.length < s.params.maxVoices) :
    ∃ t, exec (.noteOn key time) s = .next t ∧ key ∈ t.voices.map Voice.key ∧ t.inbox = s.inbox := by
  by_cases hk : key ∈ s.voices.map Voice.key
  · refine ⟨_, exec_noteOn_of_mem time hk, ?_, rfl⟩
    rwa [State.setVoices_voices, modifyVoice_keys key (retrigger_key _ _ _ _)]
  · refine ⟨_, exec_noteOn_of_not_mem time hk (h.resolve_left hk), ?_, rfl⟩
    simp [freshVoice]

/-- An event of a present key leaves a voice of it. -/
theorem exec_event_keeps_key {key : Key} {s : State} {i : Instr} (hi : EventOf key i)
    (h : key ∈ s.voices.map Voice.key) :
    ∃ t, exec i s = .next t ∧ key ∈ t.voices.map Voice.key ∧ t.inbox = s.inbox := by
  obtain ⟨u, rfl | rfl⟩ := hi
  · exact exec_noteOn_leaves_key u (.inl h)
  · refine ⟨_, exec_noteOff_of_mem u h, ?_, rfl⟩
    rwa [State.setVoices_voices, modifyVoice_keys key (release_key _ _ _ _)]

/-- The ports when the host has sent a list of commands. -/
def sent (is : List Instr) : List PortInput := (is.flatMap encode).map .beat

theorem fetch_sent (i : Instr) (is : List Instr) : fetch (sent (i :: is)) = .command i (sent is) := by
  have hq : (sent is).head? ≠ some .rstDuring := by
    intro h
    obtain ⟨w, -, hw⟩ := List.mem_map.mp (List.mem_of_mem_head? h)
    cases hw
  rw [sent, List.flatMap_cons, List.map_append]
  exact fetch_encode_append i hq

theorem step_sent {s : State} {i : Instr} {is : List Instr} (hq : s.inbox = sent (i :: is)) :
    step s = exec i (s.take (sent is)) := step_of_fetch_command (hq ▸ fetch_sent i is)

/-- Events of a present key keep it present, in a state of the invariant. -/
theorem run_events_keep_key {key : Key} (is : List Instr) (hi : ∀ i ∈ is, EventOf key i) {s : State}
    (hinv : s.Inv) (hq : s.inbox = sent is) (h : key ∈ s.voices.map Voice.key) :
    ∃ t : State, Sys2Proof.core.run is.length s = .next t ∧ t.Inv ∧ key ∈ t.voices.map Voice.key := by
  induction is generalizing s with
  | nil => exact ⟨s, rfl, hinv, h⟩
  | cons i is ih =>
    rw [List.forall_mem_cons] at hi
    obtain ⟨t, ht, hk, hbox⟩ := exec_event_keeps_key (s := s.take (sent is)) hi.1 h
    rw [List.length_cons, run_succ ((step_sent hq).trans ht)]
    exact ih hi.2 (exec_inv (take_inv hinv _) ht) hbox hk

theorem run_noteOn_then_events {key : Key} {time : F64} {is : List Instr} (hi : ∀ i ∈ is, EventOf key i) {s : State}
    (hinv : s.Inv) (hq : s.inbox = sent (.noteOn key time :: is))
    (h : key ∈ s.voices.map Voice.key ∨ s.voices.length < s.params.maxVoices) :
    ∃ t : State, Sys2Proof.core.run (is.length + 1) s = .next t ∧ t.Inv ∧ key ∈ t.voices.map Voice.key := by
  obtain ⟨t, ht, hk, hbox⟩ := exec_noteOn_leaves_key (s := s.take (sent is)) time h
  rw [run_succ ((step_sent hq).trans ht)]
  exact run_events_keep_key is hi (exec_inv (take_inv hinv _) ht) hbox hk

/-- Distinct keys: a key that is there has one voice. -/
theorem countP_key_eq_one {s : State} (hinv : s.Inv) {key : Key} (h : key ∈ s.voices.map Voice.key) :
    s.voices.countP (fun v => decide (v.key = key)) = 1 := by
  have := List.count_eq_one_of_mem hinv.keys_distinct h
  rwa [List.count, List.countP_map] at this

/-- Settles O20: the first NOTE_ON leaves the key present, the events keep it so, and the invariant says there is
one entry. -/
theorem sameKeyEventsKeepOneEntry : Obligations.SameKeyEventsKeepOneEntry := by
  intro s key time events hinv hroom hevents
  obtain ⟨t, ht, htinv, hk⟩ := run_noteOn_then_events hevents
    (s := { s with inbox := sent (.noteOn key time :: events) }) { hinv with } rfl (hroom.imp_left List.mem_map.mpr)
  exact ⟨t, ht, countP_key_eq_one htinv hk⟩

end Sys2Proof.Machine

/-! UPDATE and the mixer (45_update_mixer.md): what a rendered block holds for each sample, the voices that stay,
the gain ramp, and the noise source that a block without noise slots never reads. -/

namespace Sys2Proof.Machine

/-! ## UPDATE by its checks and voices -/

section
variable {s : State} {n : BitVec 16} {sr : F64}

theorem exec_update_of_invalid {c : Cause} {k : BitVec 4} (h : validate s n.toNat sr = some (c, k)) (time : F64) :
    exec (.update n time sr) s = .next (raiseConfigError c k n.toNat s) := by
  simp [exec, execUpdate, updateOutcome, h, UpdateOutcome.state]

theorem exec_update_of_no_voices (hok : validate s n.toNat sr = none) (hv : s.voices = []) (time : F64) :
    exec (.update n time sr) s = .next (s.setOut (outStore (zeroBlock n.toNat) s.out)) := by
  simp [exec, execUpdate, updateOutcome, hok, hv, UpdateOutcome.state]

theorem exec_update_of_voices (hok : validate s n.toNat sr = none) (hv : s.voices ≠ []) (time : F64) :
    exec (.update n time sr) s = .next (storeBlock (renderBlock s n.toNat time sr) s) := by
  simp [exec, execUpdate, updateOutcome, hok, hv, UpdateOutcome.state]

/-- With no voice the checks end at the block length and the rate (60_exceptions.md R253). -/
theorem validate_of_no_voices (hv : s.voices = []) (h1 : 1 ≤ n.toNat) (hn : n.toNat ≤ s.params.maxBlock)
    (hsr : validRate s.params.num sr = true) : validate s n.toNat sr = none := by
  simp [validate, hv, h1, hn, hsr]

end

/-! ## OUT after a block write -/

/-- OUT reads as the words written, and beyond the block as before. -/
theorem outRead_setOut_outStore {s : State} (h : Memory.wf s.out = true) {ws : List Word}
    (hl : ws.length ≤ s.params.maxBlock) (i : Nat) :
    outRead (s.setOut (outStore ws s.out)) i = if i < ws.length then ws.getD i F64.zero else outRead s i := by
  simp only [outRead, State.setOut_params, State.setOut_out, outCell_outStore ws h]
  by_cases hm : i < s.params.maxBlock
  · simp only [if_pos hm]
  · rw [if_neg hm, if_neg hm, if_neg (by omega)]

/-- Settles O39: the checks pass without a look at the configuration, and the silence path stores a block of +0. -/
theorem silentUpdateWritesZeros : Obligations.SilentUpdateWritesZeros := by
  intro s n time sr hinv hv h1 hn hsr
  have hl : (zeroBlock n.toNat).length = n.toNat := List.length_replicate
  refine ⟨_, exec_update_of_no_voices (validate_of_no_voices hv h1 hn hsr) hv time, fun i =>
    (outRead_setOut_outStore hinv.out_wf (hl.trans_le hn) i).trans ?_⟩
  rw [hl]
  split
  · next hi => simp [zeroBlock, hi]
  · rfl

/-! ## The gain ramp -/

section
variable {nf : NumFormat}

/-- What lies between 0 and 1 is finite. -/
theorem Fp.finite_of_unit (hf : nf.wellFormed = true) {x : Fp} (h0 : Fp.le .zero x = true)
    (h1 : Fp.le x .one = true) : ∃ s a, x = .fin s a ∧ 0 ≤ signedMag s a ∧ signedMag s a ≤ unitMag := by
  have hi := (representable_unit hf).lt_infMag hf
  cases x with
  | nan w => simp [Fp.le] at h0
  | inf s => cases s <;> simp [Fp.le, signedMag] at h0 h1 <;> omega
  | fin s a => exact ⟨s, a, rfl, by simpa [Fp.le] using h0, by simpa [Fp.le, signedMag] using h1⟩

/-- The difference of two amplitudes between 0 and 1 does not overflow. -/
theorem Fp.sub_finite_of_unit (hf : nf.wellFormed = true) {s t : Bool} {a b : Nat} (ha0 : 0 ≤ signedMag s a)
    (ha1 : signedMag s a ≤ unitMag) (hb0 : 0 ≤ signedMag t b) (hb1 : signedMag t b ≤ unitMag) :
    ∃ u m, Fp.sub nf (.fin s a) (.fin t b) = .fin u m := by
  have hd : (signedMag s a - signedMag t b).natAbs ≤ unitMag := by omega
  exact Fp.ofInt_finite (by simpa using (representable_zero nf).add_unit hf hd) _

theorem Fp.ofNat_div_self (hf : nf.wellFormed = true) {k : Nat} (hk : 0 < k) :
    Fp.div nf (Fp.ofNat k) (Fp.ofNat k) = .one := by
  have hp := Nat.mul_pos hk unitMag_pos
  rw [Fp.ofNat, Fp.div, if_neg hp.ne']
  exact Fp.ofRatio_exact false hp (Nat.mul_comm _ _) (representable_unit hf)

theorem Fp.zero_div_ofNat {k : Nat} (hk : 0 < k) : Fp.div nf .zero (Fp.ofNat k) = .zero :=
  Fp.zero_div_fin false false (Nat.mul_pos hk unitMag_pos).ne'

theorem gain_of_ne_one (nf : NumFormat) (i : Nat) {n : Nat} (hn : n ≠ 1) (a0 a1 : Fp) : gain nf i n a0 a1 =
    Fp.add nf a0 (Fp.mul nf (Fp.div nf (Fp.ofNat i) (Fp.ofNat (n - 1))) (Fp.sub nf a1 a0)) := if_neg hn

/-- The ramp starts at a0: 0 × (a1 − a0) is a zero where the difference is finite. -/
theorem gain_first {n : Nat} (hn : 2 ≤ n) {s u : Bool} {a m : Nat} (ha : Representable nf a) {a1 : Fp}
    (hd : Fp.sub nf a1 (.fin s a) = .fin u m) : Fp.eq (gain nf 0 n (.fin s a) a1) (.fin s a) = true := by
  rw [gain_of_ne_one nf 0 (by omega), Fp.ofNat_zero, Fp.zero_div_ofNat (by omega), hd]
  exact Fp.eq_of_value (Fp.value_add_zero_mul ha) rfl

/-- The ramp ends at a0 + (a1 − a0): 1 × (a1 − a0) is exact. -/
theorem gain_last (hf : nf.wellFormed = true) {n : Nat} (hn : 2 ≤ n) {a0 a1 : Fp}
    (hd : (Fp.sub nf a1 a0).value ≠ none) : gain nf (n - 1) n a0 a1 = Fp.add nf a0 (Fp.sub nf a1 a0) := by
  rw [gain_of_ne_one nf _ (by omega), Fp.ofNat_div_self hf (by omega),
    Fp.one_mul_of_value (Fp.sub_proper hf _ _) hd]

end

/-- Settles O44: between amplitudes in [0, 1] the difference is finite, so 0 times it is a zero and 1 times it is
exact. -/
theorem gainRampEndpoints : Obligations.GainRampEndpoints := by
  refine ⟨fun _ _ _ _ _ => rfl, fun nf a0 a1 n hf hn _ h0 h0' h1 h1' => ?_⟩
  have hp := Fp.ofWord_proper hf a0
  obtain ⟨s, a, e0, ha0, ha1⟩ := Fp.finite_of_unit hf h0 h0'
  obtain ⟨t, b, e1, hb0, hb1⟩ := Fp.finite_of_unit hf h1 h1'
  rw [e0] at hp ⊢
  rw [e1]
  obtain ⟨u, m, hd⟩ := Fp.sub_finite_of_unit hf hb0 hb1 ha0 ha1
  exact ⟨gain_first hn hp hd, gain_last hf hn (by simp [hd])⟩

/-! ## The slots of a voice -/

/-- One slot adds its contribution to each sample of NOTEBUF. -/
theorem renderSlot_note_getElem? (b : BlockCtx) (v : Voice) (p : SlotCfg) (o : OscState) (acc : SlotAcc) {i : Nat}
    (hi : i < b.n) : (renderSlot b v p o acc).2.note[i]? =
      acc.note[i]?.map (fun x => Fp.add b.params.num x (slotContribution b v p o acc.draws i)) := by
  have hs : (generate b.params p v.key b.n b.sr o acc.draws).block[i]? =
      some ((generate b.params p v.key b.n b.sr o acc.draws).block.getD i .zero) := by
    simp [hi]
  simp only [renderSlot, mixSlot, List.getElem?_zipWith, rampBlock_getElem?, hs, Option.map_some, Nat.zero_add]
  cases acc.note[i]? <;> rfl

theorem renderSlot_draws (b : BlockCtx) (v : Voice) (p : SlotCfg) (o : OscState) (acc : SlotAcc) :
    (renderSlot b v p o acc).2.draws = acc.draws + if 4 ≤ p.wave.toNat then b.n else 0 := generate_draws ..

/-- The slots add their contributions in ascending order, each drawing noise after the slots before it. -/
theorem renderSlots_note_getElem? (b : BlockCtx) (v : Voice) {i : Nat} (hi : i < b.n) :
    ∀ (ps : List SlotCfg) (os : List OscState) (acc : SlotAcc), (renderSlots b v ps os acc).2.note[i]? =
      acc.note[i]?.map (fun x => (ps.zip os).zipIdx.foldl (fun y pk => Fp.add b.params.num y
        (slotContribution b v pk.1.1 pk.1.2 (acc.draws + drawsOf b (ps.take pk.2)) i)) x)
  | [], _, acc => by simp [renderSlots]
  | _ :: _, [], acc => by simp [renderSlots]
  | p :: ps, o :: os, acc => by
    rw [renderSlots, renderSlots_note_getElem? b v hi ps os, renderSlot_note_getElem? b v p o acc hi,
      renderSlot_draws, Option.map_map, List.zip_cons_cons, List.zipIdx_cons, Nat.zero_add, List.zipIdx_succ]
    simp only [Function.comp_def, List.foldl_cons, List.foldl_map, List.take_succ_cons, List.take_zero, drawsOf,
      Nat.add_zero, Nat.add_assoc]

section
variable {b : BlockCtx} (hw : ∀ p ∈ b.slots, p.wave.toNat ≤ 4)
include hw

/-- With legal waves the draws before a slot are those of the noise slots before it. -/
theorem drawsBefore_eq (draws k : Nat) : drawsBefore b draws k = draws + drawsOf b (b.slots.take k) := by
  rw [drawsBefore, drawsOf_eq_countP b _ fun p hp => hw p (List.mem_of_mem_take hp)]

/-- From a zeroed NOTEBUF the slots in use leave their sum. -/
theorem renderSlots_note_slotsSum (v : Voice) {i : Nat} (hi : i < b.n) {acc : SlotAcc}
    (hacc : acc.note = List.replicate b.n .zero) :
    (renderSlots b v b.slots v.osc acc).2.note[i]? = some (slotsSum b v acc.draws i) := by
  rw [renderSlots_note_getElem? b v hi, hacc, List.getElem?_replicate_of_lt hi]
  simp only [Option.map_some, slotsSum, drawsBefore_eq hw]

theorem renderSlots_note_eq (v : Voice) {acc : SlotAcc} (hacc : acc.note = List.replicate b.n .zero) :
    (renderSlots b v b.slots v.osc acc).2.note = (List.range b.n).map (slotsSum b v acc.draws) := by
  have hl : (renderSlots b v b.slots v.osc acc).2.note.length = b.n :=
    renderSlots_note_length b v _ _ acc (by simp [hacc])
  refine List.ext_getElem? fun i => ?_
  by_cases hi : i < b.n
  · rw [renderSlots_note_slotsSum hw v hi hacc]
    simp [hi]
  · simp [hl, not_lt.mp hi]

end

/-- Settles O41: slot by slot, the contributions are added to a zeroed NOTEBUF. -/
theorem slotsAccumulateInOrder : Obligations.SlotsAccumulateInOrder :=
  fun _ v _ _ _ hi hw => renderSlots_note_slotsSum hw v hi rfl

/-! ## One voice, and the voices in order -/

/-- The draws taken before the voice after the j-th. -/
theorem renderVoice_draws_succ {b : BlockCtx} {v : Voice} (hl : b.slots.length ≤ v.osc.length) {acc : MixAcc}
    {d j : Nat} (hd : acc.draws = d + j * drawsOf b b.slots) :
    (renderVoice b v acc).draws = d + (j + 1) * drawsOf b b.slots := by
  rw [renderVoice_draws b v acc hl, hd, Nat.add_mul]
  omega

section
variable {b : BlockCtx} (hw : ∀ p ∈ b.slots, p.wave.toNat ≤ 4)
include hw

/-- What a voice adds to OUT is FILTER over the sum of its slots. -/
theorem renderVoice_note (v : Voice) (acc : MixAcc) :
    (renderVoice b v acc).note = (filteredBlock b v acc.draws).1 := by
  rw [renderVoice, filter_osc, renderSlots_note_eq hw v rfl]
  rfl

/-- A voice stays, with GENERATE's phases and FILTER's state, unless its maximum end amplitude is 0. -/
theorem renderVoice_kept_eq {v : Voice} (hl : b.slots.length ≤ v.osc.length) (acc : MixAcc) :
    (renderVoice b v acc).kept =
      if Fp.eq (maxEndOf b v) .zero then acc.kept else acc.kept ++ [renderedVoice b v acc.draws] := by
  rw [renderVoice, filter_osc, renderSlots_note_eq hw v rfl, renderSlots_maxEnd, renderSlots_osc_eq b v _ _ _ hl]
  simp only [renderedVoice, drawsBefore_eq hw]
  rfl

/-- Each sample of OUT's block is the sum of the filtered voices in order, the j-th drawing noise after the
voices before it. -/
theorem renderVoices_out_getElem? {i : Nat} (hi : i < b.n) (d : Nat) : ∀ (vs : List Voice) (j : Nat) (acc : MixAcc),
    (∀ v ∈ vs, b.slots.length ≤ v.osc.length) → acc.draws = d + j * drawsOf b b.slots →
    (renderVoices b vs acc).out[i]? = acc.out[i]?.map (fun x => (vs.zipIdx j).foldl (fun y vj =>
      Fp.add b.params.num y ((filteredBlock b vj.1 (d + vj.2 * drawsOf b b.slots)).1.getD i .zero)) x)
  | [], _, acc, _, _ => by simp [renderVoices]
  | v :: vs, j, acc, hl, hd => by
    obtain ⟨hv, hl⟩ := List.forall_mem_cons.mp hl
    have hs : (filteredBlock b v acc.draws).1[i]? = some ((filteredBlock b v acc.draws).1.getD i .zero) := by
      simp [filteredBlock, hi]
    rw [renderVoices, renderVoices_out_getElem? hi d vs (j + 1) _ hl (renderVoice_draws_succ hv hd),
      renderVoice_out, renderVoice_note hw, List.getElem?_zipWith, hs, List.zipIdx_cons]
    cases acc.out[i]? <;> simp [hd]

/-- The voices kept, in order. -/
theorem renderVoices_kept_eq (d : Nat) : ∀ (vs : List Voice) (j : Nat) (acc : MixAcc),
    (∀ v ∈ vs, b.slots.length ≤ v.osc.length) → acc.draws = d + j * drawsOf b b.slots →
    (renderVoices b vs acc).kept = acc.kept ++
      ((vs.zipIdx j).filter (fun vj => !Fp.eq (maxEndOf b vj.1) .zero)).map
        (fun vj => renderedVoice b vj.1 (d + vj.2 * drawsOf b b.slots))
  | [], _, acc, _, _ => by simp [renderVoices]
  | v :: vs, j, acc, hl, hd => by
    obtain ⟨hv, hl⟩ := List.forall_mem_cons.mp hl
    rw [renderVoices, renderVoices_kept_eq d vs (j + 1) _ hl (renderVoice_draws_succ hv hd),
      renderVoice_kept_eq hw hv, List.zipIdx_cons, List.filter_cons]
    cases Fp.eq (maxEndOf b v) .zero <;> simp [hd]

end

/-! ## An UPDATE whose checks pass -/

section
variable {s : State} {n : BitVec 16} {sr : F64} (hinv : s.Inv) (hv : s.voices ≠ [])
  (hok : validate s n.toNat sr = none)
include hv hok

/-- Checks that pass leave legal waves, so each voice takes N draws for every noise slot in use. -/
theorem drawsOf_updateCtx (time : F64) :
    drawsOf (updateCtx s n time sr) (updateCtx s n time sr).slots = noiseDrawsPerVoice s n.toNat :=
  drawsOf_eq_countP _ _ (validate_none_waves hok hv)

include hinv

/-- A sample of the rendered block. -/
theorem renderBlock_out_getElem? (time : F64) {i : Nat} (hi : i < n.toNat) :
    (renderBlock s n.toNat time sr).out[i]? = some (s.voices.zipIdx.foldl (fun acc vj => Fp.add s.params.num acc
      ((filteredBlock (updateCtx s n time sr) vj.1
        (s.noiseDraws + vj.2 * noiseDrawsPerVoice s n.toNat)).1.getD i .zero)) .zero) := by
  have h := renderVoices_out_getElem? (b := updateCtx s n time sr) (validate_none_waves hok hv) hi s.noiseDraws
    s.voices 0 (mixStart s n.toNat) (fun _ => hinv.activeSlots_length_le_osc) (by simp [mixStart])
  rw [drawsOf_updateCtx hv hok] at h
  refine h.trans ?_
  simp [mixStart, hi, updateCtx]

theorem renderBlock_kept (time : F64) :
    (renderBlock s n.toNat time sr).kept = (s.voices.zipIdx.filter (fun vj =>
        !Fp.eq (maxEndOf (updateCtx s n time sr) vj.1) .zero)).map (fun vj =>
      renderedVoice (updateCtx s n time sr) vj.1 (s.noiseDraws + vj.2 * noiseDrawsPerVoice s n.toNat)) := by
  have h := renderVoices_kept_eq (b := updateCtx s n time sr) (validate_none_waves hok hv) s.noiseDraws
    s.voices 0 (mixStart s n.toNat) (fun _ => hinv.activeSlots_length_le_osc) (by simp [mixStart])
  rwa [drawsOf_updateCtx hv hok] at h

theorem renderBlock_draws (time : F64) : (renderBlock s n.toNat time sr).draws =
    s.noiseDraws + s.voices.length * noiseDrawsPerVoice s n.toNat := by
  have h := renderVoices_draws (updateCtx s n time sr) s.voices (mixStart s n.toNat)
    (fun _ => hinv.activeSlots_length_le_osc)
  rwa [drawsOf_updateCtx hv hok] at h

end

theorem renderBlock_out_length (s : State) (n : Nat) (time sr : F64) : (renderBlock s n time sr).out.length = n :=
  (renderVoices_lengths (blockCtx s n time sr) s.voices (mixStart s n) List.length_replicate
    (Nat.zero_le _) (Nat.zero_le _)).1

/-- Settles O40: the rendered block is stored in OUT[0 .. N−1], and the words beyond it stay. -/
theorem updateMixesVoicesInOrder : Obligations.UpdateMixesVoicesInOrder := by
  intro s n time sr hinv hv hok
  have hl : ((renderBlock s n.toNat time sr).out.map Fp.toWord).length = n.toNat := by
    rw [List.length_map, renderBlock_out_length]
  have hread := outRead_setOut_outStore hinv.out_wf (hl.trans_le (validate_none_length hok).2)
  rw [hl] at hread
  refine ⟨_, exec_update_of_voices hok hv time, fun i hi => (hread i).trans ?_,
    fun i hi => (hread i).trans (if_neg hi.not_gt), renderBlock_draws hinv hv hok time⟩
  rw [if_pos hi, List.getD_eq_getElem?_getD, List.getElem?_map, renderBlock_out_getElem? hinv hv hok time hi]
  rfl

/-- Settles O42: the voices of the state are the ones the rendering keeps. -/
theorem updateRemovesDecayedVoices : Obligations.UpdateRemovesDecayedVoices :=
  fun _ _ time _ hinv hv hok => ⟨_, exec_update_of_voices hok hv time, renderBlock_kept hinv hv hok time⟩

/-! ## A block without noise slots -/

/-- The context of a block with another noise source. -/
def BlockCtx.withNoise (b : BlockCtx) (src : NoiseSource) : BlockCtx :=
  { b with params := { b.params with noise := src } }

/-- The state with another noise source and count of draws. -/
def State.withNoise (s : State) (src : NoiseSource) (d : Nat) : State :=
  { s with params := { s.params with noise := src }, noiseDraws := d }

section
variable (src : NoiseSource)

/-- A waveform other than noise reads neither the source nor the count of draws. -/
theorem waveVal_withNoise {c : GenCtx} (h : c.wave.toNat < 4) (g : GenState) (d : Nat) :
    waveVal { c with noise := src } { g with draws := d } = ((waveVal c g).1, d) := by
  unfold waveVal
  dsimp only
  generalize c.wave.toNat = w at h
  match w, h with
  | 0, _ => rfl
  | 1, _ => rfl
  | 2, _ => rfl
  | 3, _ => rfl

theorem genSample_withNoise {c : GenCtx} (h : c.wave.toNat < 4) (g : GenState) (d : Nat) :
    genSample { c with noise := src } { g with draws := d } =
      ((genSample c g).1, { (genSample c g).2 with draws := d }) := by
  rw [genSample, waveVal_withNoise src h]
  rfl

theorem genSamples_withNoise {c : GenCtx} (h : c.wave.toNat < 4) (n : Nat) (g : GenState) (d : Nat) :
    genSamples { c with noise := src } n { g with draws := d } =
      ((genSamples c n g).1, { (genSamples c n g).2 with draws := d }) := by
  induction n generalizing g with
  | zero => rfl
  | succ n ih =>
    rw [genSamples, genSample_withNoise src h, ih]
    rfl

theorem genCtx_withNoise (ps : Params) (p : SlotCfg) (key : Key) (sr : Fp) :
    genCtx { ps with noise := src } p key sr = { genCtx ps p key sr with noise := src } := rfl

theorem generate_withNoise (ps : Params) {p : SlotCfg} (h : p.wave.toNat < 4) (key : Key) (n : Nat) (sr : Fp)
    (o : OscState) (d d' : Nat) : generate { ps with noise := src } p key n sr o d' =
      { generate ps p key n sr o d with draws := d' } := by
  have hg := genSamples_withNoise src (c := genCtx ps p key sr) h n
    { phase := Fp.ofWord ps.num o.phase, sync := Fp.ofWord ps.num o.syncPhase, draws := d } d'
  simp only [generate, genCtx_withNoise, hg]

theorem renderSlot_withNoise (b : BlockCtx) (v : Voice) {p : SlotCfg} (h : p.wave.toNat < 4) (o : OscState)
    (acc : SlotAcc) (d : Nat) : renderSlot (b.withNoise src) v p o { acc with draws := d } =
      ((renderSlot b v p o acc).1, { (renderSlot b v p o acc).2 with draws := d }) := by
  have hg := generate_withNoise src b.params h v.key b.n b.sr o acc.draws d
  rw [renderSlot]
  simp only [BlockCtx.withNoise, hg]
  rfl

theorem renderSlots_withNoise (b : BlockCtx) (v : Voice) (d : Nat) : ∀ (ps : List SlotCfg) (os : List OscState)
    (acc : SlotAcc), (∀ p ∈ ps, p.wave.toNat < 4) →
    renderSlots (b.withNoise src) v ps os { acc with draws := d } =
      ((renderSlots b v ps os acc).1, { (renderSlots b v ps os acc).2 with draws := d })
  | [], _, _, _ => rfl
  | _ :: _, [], _, _ => rfl
  | p :: ps, o :: os, acc, h => by
    obtain ⟨hp, h⟩ := List.forall_mem_cons.mp h
    rw [renderSlots, renderSlot_withNoise src b v hp, renderSlots_withNoise b v d ps os _ h]
    rfl

theorem filter_withNoise (ps : Params) (c : GlobalCfg) (v : Voice) (t : Fp) (xs : List Fp) :
    filter { ps with noise := src } c v t xs = filter ps c v t xs := rfl

section
variable {b : BlockCtx} (h : ∀ p ∈ b.slots, p.wave.toNat < 4)
include h

theorem renderVoice_withNoise (v : Voice) (acc : MixAcc) (d : Nat) :
    renderVoice (b.withNoise src) v { acc with draws := d } = { renderVoice b v acc with draws := d } := by
  have hs := renderSlots_withNoise src b v d b.slots v.osc
    { note := List.replicate b.n .zero, osc := acc.osc, maxEnd := .zero, draws := acc.draws } h
  simp only [BlockCtx.withNoise] at hs
  simp only [renderVoice, BlockCtx.withNoise, hs, filter_withNoise]

theorem renderVoices_withNoise (d : Nat) (vs : List Voice) (acc : MixAcc) :
    renderVoices (b.withNoise src) vs { acc with draws := d } = { renderVoices b vs acc with draws := d } := by
  induction vs generalizing acc with
  | nil => rfl
  | cons v vs ih => rw [renderVoices, renderVoice_withNoise src h, ih, renderVoices]

end

theorem renderBlock_withNoise {s : State} (h : ∀ p ∈ s.activeSlots, p.wave.toNat < 4) (d : Nat) (n : Nat)
    (time sr : F64) :
    renderBlock (s.withNoise src d) n time sr = { renderBlock s n time sr with draws := d } :=
  renderVoices_withNoise src (b := blockCtx s n time sr) h d s.voices (mixStart s n)

theorem raiseConfigError_withNoise (s : State) (d : Nat) (c : Cause) (k : BitVec 4) (n : Nat) :
    raiseConfigError c k n (s.withNoise src d) = (raiseConfigError c k n s).withNoise src d := by
  simp only [raiseConfigError_eq]
  rfl

end

/-- Settles O57: the checks, the silence path and ConfigError read no noise, and neither does a rendered block
whose slots in use have other waves. -/
theorem noiseFreeUpdateIgnoresSource : Obligations.NoiseFreeUpdateIgnoresSource := by
  intro s n time sr src d h
  rcases exec_update_cases n time sr s with ⟨c, k, hc, e⟩ | ⟨hok, hv, e⟩ | ⟨hok, hv, e⟩
  · refine ⟨_, e, (exec_update_of_invalid (s := s.withNoise src d) hc time).trans ?_⟩
    rw [raiseConfigError_withNoise, raiseConfigError_eq]
    rfl
  · exact ⟨_, e, exec_update_of_no_voices (s := s.withNoise src d) hok hv time⟩
  · refine ⟨_, e, (exec_update_of_voices (s := s.withNoise src d) hok hv time).trans ?_⟩
    rw [renderBlock_withNoise src h]
    rfl

end Sys2Proof.Machine

/-! Host access (46_host_access.md): a register write seen from another address, what CFG_READ and OUT_READ
respond with, and what STATUS_CLEAR and RESET leave. -/

namespace Sys2Proof.Machine

/-! ## A register write seen from another address -/

@[simp] theorem getGlobal_writeOscCount (f : GlobalField) (p : Params) (w : Word) (c : GlobalCfg) :
    getGlobal f (writeOscCount p w c) = getGlobal f c := by
  unfold writeOscCount
  split
  · cases f <;> rfl
  · rfl

@[simp] theorem slot_setCfg (s : State) (c : GlobalCfg) (k : Nat) : (s.setCfg c).slot k = s.slot k := rfl

@[simp] theorem activeCountWord_setCfg (s : State) (c : GlobalCfg) :
    activeCountWord (s.setCfg c) = activeCountWord s := rfl

@[simp] theorem activeCountWord_setSlots (s : State) (xs : List SlotCfg) :
    activeCountWord (s.setSlots xs) = activeCountWord s := rfl

section
variable {s : State} {b : BitVec 12}

theorem regRead_setGlobal_of_ne {f : GlobalField} (h : decodeReg s.params b ≠ .global f) (w : Word) :
    regRead (s.setCfg (setGlobal f w s.cfg)) b = regRead s b := by
  cases hb : decodeReg s.params b with
  | global g =>
    have hne : g ≠ f := fun e => h (e ▸ hb)
    simp [regRead, hb, getGlobal_setGlobal_ne hne]
  | oscCount | status | activeCount | ident | params | slotNum | slotWave | slotSync | reserved =>
    simp [regRead, hb]

theorem regRead_writeOscCount_of_ne (h : decodeReg s.params b ≠ .oscCount) (w : Word) :
    regRead (s.setCfg (writeOscCount s.params w s.cfg)) b = regRead s b := by
  cases hb : decodeReg s.params b with
  | oscCount => exact absurd hb h
  | global | status | activeCount | ident | params | slotNum | slotWave | slotSync | reserved =>
    simp [regRead, hb]

/-- A change of one slot shows only in those registers of that slot whose fields it changes. -/
theorem regRead_modifySlot {k : Nat} {f : SlotCfg → SlotCfg}
    (hnum : ∀ g, decodeReg s.params b = .slotNum k g → ∀ c, getSlotNum g (f c) = getSlotNum g c)
    (hwave : decodeReg s.params b = .slotWave k → ∀ c, (f c).wave = c.wave)
    (hsync : decodeReg s.params b = .slotSync k → ∀ c, (f c).sync = c.sync) :
    regRead (s.setSlots (s.slots.modify k f)) b = regRead s b := by
  cases hb : decodeReg s.params b with
  | slotNum j g =>
    simp only [regRead, State.setSlots_params, hb, slot_setSlots_modify]
    split_ifs with hj
    · exact hnum g (hj.1 ▸ hb) _
    · rfl
  | slotWave j =>
    simp only [regRead, State.setSlots_params, hb, slot_setSlots_modify]
    split_ifs with hj
    · rw [hwave (hj.1 ▸ hb)]
    · rfl
  | slotSync j =>
    simp only [regRead, State.setSlots_params, hb, slot_setSlots_modify]
    split_ifs with hj
    · rw [hsync (hj.1 ▸ hb)]
    · rfl
  | global | oscCount | status | activeCount | ident | params | reserved => simp [regRead, hb]

/-- A write shows only at addresses of the register written. -/
theorem regRead_regWrite_of_ne {a : BitVec 12} (h : decodeReg s.params b ≠ decodeReg s.params a) (w : Word) :
    regRead (regWrite s a w) b = regRead s b := by
  cases ha : decodeReg s.params a with
  | global f =>
    simp only [regWrite, ha]
    exact regRead_setGlobal_of_ne (ha ▸ h) w
  | oscCount =>
    simp only [regWrite, ha]
    exact regRead_writeOscCount_of_ne (ha ▸ h) w
  | slotNum k f =>
    simp only [regWrite, ha]
    refine regRead_modifySlot (fun g hb c => getSlotNum_setSlotNum_ne (fun e => h ?_) w c)
      (fun _ => setSlotNum_wave f w) (fun _ => setSlotNum_sync f w)
    rw [hb, ha, e]
  | slotWave k =>
    simp only [regWrite, ha]
    exact regRead_modifySlot (fun g _ _ => by cases g <;> rfl) (fun hb => absurd (hb.trans ha.symm) h)
      (fun _ _ => rfl)
  | slotSync k =>
    simp only [regWrite, ha]
    exact regRead_modifySlot (fun g _ _ => by cases g <;> rfl) (fun _ _ => rfl)
      (fun hb => absurd (hb.trans ha.symm) h)
  | reserved => rw [regWrite_of_reserved ha]
  | status | activeCount | ident | params =>
    have hro : (decodeReg s.params a).ReadOnly := by simp [ha, Reg.ReadOnly]
    rw [regWrite_of_readOnly hro]

end

/-- Settles O47: two addresses name one register only where it is reserved, and a reserved one takes no write. -/
theorem registerWriteIsLocal : Obligations.RegisterWriteIsLocal := by
  intro s a w _
  refine ⟨_, exec_cfgWrite s a w, regWrite_eq s a w, fun b hne => ?_⟩
  by_cases hr : decodeReg s.params a = .reserved
  · rw [regWrite_of_reserved hr]
  · exact regRead_regWrite_of_ne (fun h => hne (decodeReg_inj h.symm hr).symm) w

/-! ## CFG_READ and OUT_READ -/

theorem exec_cfgRead (a : BitVec 12) (s : State) :
    exec (.cfgRead a) s = .next (s.respond (regRead s a)) := rfl

theorem exec_outRead (idx : BitVec 16) (s : State) :
    exec (.outRead idx) s = .next (s.respond (outRead s idx.toNat)) := rfl

theorem activeCountWord_eq (s : State) : activeCountWord s = BitVec.ofNat 64 (s.voices.length % 256) := by
  apply BitVec.eq_of_toNat_eq
  rw [activeCountWord, BitVec.toNat_setWidth, BitVec.toNat_ofNat, BitVec.toNat_ofNat]

theorem paramsWord_eq {p : Params} (hp : p.wellFormed = true) :
    paramsWord p = BitVec.ofNat 64 (p.oscSlots + 2 ^ 8 * p.maxVoices + 2 ^ 16 * p.maxBlock) := by
  rw [← toNat_paramsWord hp, BitVec.ofNat_toNat, BitVec.setWidth_eq]

theorem State.slot_of_getElem? {s : State} {k : Nat} {p : SlotCfg} (h : s.slots[k]? = some p) : s.slot k = p := by
  rw [State.slot, List.getD_eq_getElem?_getD, h, Option.getD_some]

theorem setWidth_ofBool (b : Bool) : (BitVec.ofBool b).setWidth 64 = if b then 1#64 else 0#64 := by
  cases b <;> rfl

theorem regRead_of_not_writableAddr {s : State} {a : BitVec 12} (hw : ¬ writableAddr s.params a)
    (hr : ¬ (0x010 ≤ a.toNat ∧ a.toNat ≤ 0x013)) : regRead s a = 0#64 := by
  rcases decodeReg_of_not_writableAddr hw with h | ⟨-, h⟩
  · exact regRead_of_reserved h
  · exact absurd h hr

theorem regRead_globalAddr (s : State) (f : GlobalField) : regRead s f.addr = getGlobal f s.cfg := by
  simp only [regRead, decodeReg_globalAddr]

/-- The fields of a slot at their offsets, 10_state.md R24. -/
theorem regRead_slotAddr {s : State} {k : Nat} {p : SlotCfg} (h16 : s.params.oscSlots ≤ 16)
    (hk : k < s.params.oscSlots) (hp : s.slot k = p) :
    regRead s (slotAddr k 0x0) = p.wave.setWidth 64 ∧
    regRead s (slotAddr k 0xB) = (if p.sync then 1#64 else 0#64) ∧
    ∀ f : SlotField, regRead s (slotAddr k f.offset) = getSlotNum f p := by
  subst hp
  have slot : ∀ {o : Nat}, o < 16 → decodeReg s.params (slotAddr k o) = slotReg k o := decodeReg_slotAddr h16 hk
  refine ⟨?_, ?_, fun f => ?_⟩
  · simp only [regRead, slot (o := 0x0) (by norm_num), slotReg]
  · simp only [regRead, slot (o := 0xB) (by norm_num), slotReg, setWidth_ofBool]
  · simp only [regRead, slot f.offset_lt, slotReg_offset]

/-- Settles O50: each address names its register, and the fields of ACTIVE_COUNT and PARAMS hold their counts. -/
theorem cfgReadResponds : Obligations.CfgReadResponds := by
  refine ⟨Opcode.cfgRead.encodedAs_command, fun s a => ⟨exec_cfgRead a s, regRead_of_not_writableAddr,
    regRead_globalAddr s, rfl, rfl, activeCountWord_eq s, rfl, fun hwf => ⟨paramsWord_eq hwf, fun k p hp hk => ?_⟩⟩⟩
  obtain ⟨-, -, h16, -⟩ := (Params.wellFormed_iff s.params).mp hwf
  exact regRead_slotAddr h16 hk (State.slot_of_getElem? hp)

/-- Settles O51: the two cases of OutRead. -/
theorem outReadResponds : Obligations.OutReadResponds := by
  refine ⟨Opcode.outRead.encodedAs_command, fun s idx => ⟨fun h => ?_, fun h => ?_⟩⟩
  · rw [exec_outRead, outRead, if_pos h]
    rfl
  · rw [exec_outRead, outRead, if_neg (by omega)]
    rfl

/-! ## STATUS_CLEAR -/

theorem exec_statusClear (mask : BitVec 2) (s : State) :
    exec (.statusClear mask) s = .next (s.setStatus (clearStatus mask s.status)) := rfl

/-- Each group of STATUS is cleared or kept by its own mask bit. -/
theorem clearStatus_eq (mask : BitVec 2) (st : Status) :
    clearStatus mask st =
      { err      := if mask.getLsbD 0 then false else st.err
        cause    := if mask.getLsbD 0 then 0#4 else st.cause
        errSlot  := if mask.getLsbD 0 then 0#4 else st.errSlot
        voiceOvf := if mask.getLsbD 1 then false else st.voiceOvf } := by
  unfold clearStatus
  cases mask.getLsbD 0 <;> cases mask.getLsbD 1 <;> rfl

/-- Settles O52: mask bit 0 decides ERR, CAUSE and ERR_SLOT, mask bit 1 decides VOICE_OVF. -/
theorem statusClearByMask : Obligations.StatusClearByMask := by
  refine ⟨Opcode.statusClear.encodedAs_command, fun s mask => ⟨_, exec_statusClear mask s, rfl, ?_⟩⟩
  rw [clearStatus_eq]
  refine ⟨fun h => ⟨if_pos h, if_pos h, if_pos h⟩, fun h => ?_, fun h => if_pos h,
    fun h => if_neg (ne_true_of_eq_false h)⟩
  have h' := ne_true_of_eq_false h
  exact ⟨if_neg h', if_neg h', if_neg h'⟩

/-! ## RESET -/

theorem exec_reset (s : State) : exec .reset s = .next (resetEngine s) := rfl

theorem outRead_resetEngine (s : State) (i : Nat) : outRead (resetEngine s) i = 0#64 := ite_self _

/-- Settles O3: RESET builds the state anew from the parameters, with empty buffers and the next reset's
number. -/
theorem resetCommandRestoresResetState : Obligations.ResetCommandRestoresResetState :=
  ⟨Opcode.reset.encodedAs_command, fun s => ⟨_, exec_reset s, rfl, rfl, rfl, statusWord_reset, rfl,
    outRead_resetEngine s, rfl, fun _ => ⟨rfl, rfl⟩, fun seed h => by
      rw [resetEngine_noiseDraws, h, noiseDrawsAfterReset]⟩⟩

end Sys2Proof.Machine

/-! ConfigError and the end of a command (60_exceptions.md): the checks of UPDATE, what a failed check leaves, and
what every command and every run keeps. -/

namespace Sys2Proof.Machine

/-! ## The checks of UPDATE -/

theorem badWaveSlot_eq_some {slots : List SlotCfg} {k : Nat} {p : SlotCfg} (hp : slots[k]? = some p)
    (hk : 4 < p.wave.toNat) (hlow : ∀ j q, j < k → slots[j]? = some q → q.wave.toNat ≤ 4) :
    badWaveSlot slots = some k := by
  obtain ⟨hlt, rfl⟩ := List.getElem?_eq_some_iff.mp hp
  refine List.findIdx?_eq_some_iff_getElem.mpr ⟨hlt, decide_eq_true hk, fun j hj => ?_⟩
  have := hlow j _ hj (List.getElem?_eq_getElem (hj.trans hlt))
  simpa using this

theorem badWaveSlot_eq_none {slots : List SlotCfg} (h : ∀ p ∈ slots, p.wave.toNat ≤ 4) :
    badWaveSlot slots = none :=
  List.findIdx?_eq_none_iff.mpr fun p hp => decide_eq_false (h p hp).not_gt

section
variable {s : State}

theorem validateConfig_of_badWave {k : Nat} (h : badWaveSlot s.activeSlots = some k) :
    validateConfig s = some (.badWaveform, BitVec.ofNat 4 k) := by simp only [validateConfig, h]

theorem validateConfig_of_waves (h : badWaveSlot s.activeSlots = none) :
    validateConfig s =
      if inUnitInterval s.params.num s.cfg.cutoff = false then some (.cutoffRange, 0#4)
      else if inUnitInterval s.params.num s.cfg.resonance = false then some (.resonanceRange, 0#4)
      else none := by simp only [validateConfig, h, Bool.not_eq_true']

variable {n : Nat} {sr : F64}

theorem validate_of_bad_length (h : ¬ (1 ≤ n ∧ n ≤ s.params.maxBlock)) :
    validate s n sr = some (.badBlockLen, 0#4) := if_pos h

variable (h1 : 1 ≤ n) (hn : n ≤ s.params.maxBlock)
include h1 hn

theorem validate_of_bad_rate (hr : validRate s.params.num sr = false) :
    validate s n sr = some (.badSampleRate, 0#4) := by simp [validate, h1, hn, hr]

/-- Past the length and the rate, the configuration is looked at only when a voice is active. -/
theorem validate_of_length_rate (hr : validRate s.params.num sr = true) :
    validate s n sr = if s.voices = [] then none else validateConfig s := by simp [validate, h1, hn, hr]

end

/-- Settles O37: past each test of VALIDATE the next one decides. -/
theorem updateChecksInOrder : Obligations.UpdateChecksInOrder := by
  refine ⟨fun nf sr => by rw [Fp.ofWord_plusInf, validRate], fun _ _ => rfl, fun s n sr =>
    ⟨validate_of_bad_length, fun h1 hn => ⟨validate_of_bad_rate h1 hn, fun hr => ?_⟩⟩⟩
  rw [validate_of_length_rate h1 hn hr]
  refine ⟨fun hv => if_pos hv, fun hv => ?_⟩
  rw [if_neg hv]
  refine ⟨fun k p hp hk hlow => validateConfig_of_badWave (badWaveSlot_eq_some hp hk hlow), fun hw => ?_⟩
  rw [validateConfig_of_waves (badWaveSlot_eq_none hw)]
  refine ⟨fun hc => if_pos hc, fun hc => ?_⟩
  rw [if_neg (ne_false_of_eq_true hc)]
  exact ⟨fun hq => if_pos hq, fun hq => if_neg (ne_false_of_eq_true hq)⟩

/-! ## What a failed check leaves -/

/-- OUT after ConfigError: cause 1 keeps every word, and with any other cause the block length is legal. -/
theorem outRead_raiseConfigError {s : State} (hwf : Memory.wf s.out = true) {n : Nat} {sr : F64} {c : Cause}
    {k : BitVec 4} (h : validate s n sr = some (c, k)) (i : Nat) :
    outRead (raiseConfigError c k n s) i = if c ≠ .badBlockLen ∧ i < n then 0#64 else outRead s i := by
  rw [raiseConfigError_eq]
  by_cases hc : c = .badBlockLen
  · simp [hc, outRead]
  · have hn := (validate_some_length h hc).2
    simp only [outRead, hc, if_false, outCell_zeroBlock hwf, ne_eq, not_false_eq_true, true_and]
    by_cases hi : i < n
    · rw [if_pos (hi.trans_le hn), if_pos hi, if_pos hi]
    · rw [if_neg hi, if_neg hi]

/-- Settles O38: ConfigError touches OUT's block, STATUS and the fault log, and STATUS keeps the first cause. -/
theorem configErrorIsAtomic : Obligations.ConfigErrorIsAtomic := by
  intro s n time sr c k hinv h
  refine ⟨_, recordError c k s.status,
    (exec_update_of_invalid h time).trans (congrArg _ (raiseConfigError_eq c k n.toNat s)), fun i => ?_,
    recordError_err .., recordError_voiceOvf .., fun he => ?_, fun he => ?_⟩
  · rw [← outRead_raiseConfigError hinv.out_wf h i, raiseConfigError_eq]
    rfl
  · simp [recordError_of_clear c k he]
  · simp [recordError_of_err c k he]

/-! ## Every command completes -/

/-- A command leaves the parameters, the position and the queue, and puts the words `ws` on the response port. -/
structure State.Delivers (s t : State) (ws : List Word) : Prop where
  params    : t.params = s.params
  position  : t.position = s.position
  inbox     : t.inbox = s.inbox
  responses : t.responses = s.responses ++ ws

theorem State.Delivers.refl (s : State) : s.Delivers s [] := ⟨rfl, rfl, rfl, (List.append_nil _).symm⟩

theorem respond_delivers (s : State) (w : Word) : s.Delivers (s.respond w) [w] := ⟨rfl, rfl, rfl, rfl⟩

theorem exec_delivers (i : Instr) (s : State) :
    ∃ t ws, exec i s = .next t ∧ s.Delivers t ws ∧ ws.length = i.opcode.responseBeats := by
  cases i with
  | noteOn key time =>
    rcases exec_noteOn_cases key time s with ⟨-, e⟩ | ⟨-, -, e⟩ | ⟨-, -, e⟩ <;>
      exact ⟨_, [], e, { State.Delivers.refl s with }, rfl⟩
  | noteOff key time =>
    rcases exec_noteOff_cases key time s with ⟨-, e⟩ | ⟨-, e⟩ <;>
      exact ⟨_, [], e, { State.Delivers.refl s with }, rfl⟩
  | update n time sr =>
    rcases exec_update_cases n time sr s with ⟨c, k, -, e⟩ | ⟨-, -, e⟩ | ⟨-, -, e⟩
    · rw [raiseConfigError_eq] at e
      exact ⟨_, [], e, { State.Delivers.refl s with }, rfl⟩
    · exact ⟨_, [], e, { State.Delivers.refl s with }, rfl⟩
    · exact ⟨_, [], e, { State.Delivers.refl s with }, rfl⟩
  | cfgWrite a w =>
    refine ⟨_, [], exec_cfgWrite s a w, ?_, rfl⟩
    rw [regWrite_eq]
    exact { State.Delivers.refl s with }
  | cfgRead a => exact ⟨_, _, exec_cfgRead a s, respond_delivers s _, rfl⟩
  | outRead idx => exact ⟨_, _, exec_outRead idx s, respond_delivers s _, rfl⟩
  | allNotesOff | statusClear | reset | nop | rsvd9 | rsvdA | rsvdB | rsvdC | rsvdD | rsvdE =>
    exact ⟨_, [], rfl, { State.Delivers.refl s with }, rfl⟩

theorem step_next (s : State) : ∃ t, step s = .next t := by
  rcases step_cases s with ⟨i, rest, -, e⟩ | ⟨rest, -, e⟩ | ⟨-, e⟩
  · obtain ⟨t, -, he, -⟩ := exec_delivers i (s.take rest)
    exact ⟨t, e.trans he⟩
  · exact ⟨_, e⟩
  · exact ⟨_, e⟩

/-- Settles O13: a command ends in a next state that delivers its response beats, and `rst` and waiting end in
one too. -/
theorem everyCommandCompletes : Obligations.EveryCommandCompletes := by
  refine ⟨fun i s => ?_, step_next⟩
  obtain ⟨t, ws, e, ht, hlen⟩ := exec_delivers i s
  refine ⟨t, e, ht.params, ht.position, ht.inbox, ?_, ?_⟩
  · exact ⟨ws, ht.responses.symm⟩
  · rw [ht.responses, List.length_append, hlen]

/-! ## The fault outcome and the fault log -/

theorem faultOutcome_update_of_valid {s : State} {n : BitVec 16} {sr : F64} (h : validate s n.toNat sr = none)
    (time : F64) : faultOutcome (.update n time sr) s = none := by
  simp only [faultOutcome, updateOutcome, h]
  split <;> rfl

theorem faultOutcome_update_of_invalid {s : State} {n : BitVec 16} {sr : F64} {c : Cause} {k : BitVec 4}
    (h : validate s n.toNat sr = some (c, k)) (time : F64) :
    faultOutcome (.update n time sr) s = some (.configError c k) := by
  simp only [faultOutcome, updateOutcome, h, UpdateOutcome.fault]

/-- The command ends without a fault: the log stays, and ERR is not raised. -/
structure State.RaisesNothing (s : State) (i : Instr) (t : State) : Prop where
  outcome : faultOutcome i s = none
  log     : t.faultLog = s.faultLog
  err     : t.status.err = true → s.status.err = true

/-- The command is an UPDATE that ends in ConfigError with cause `c`. -/
structure State.Raises (s : State) (i : Instr) (t : State) (c : Cause) : Prop where
  update  : ∃ n time sr k, i = .update n time sr ∧ validate s n.toNat sr = some (c, k) ∧
    faultOutcome i s = some (.configError c k)
  log     : t.faultLog = s.faultLog ++ [c]
  err     : t.status.err = true

theorem clearStatus_err_of_err {mask : BitVec 2} {st : Status} (h : (clearStatus mask st).err = true) :
    st.err = true := by
  rw [clearStatus_eq] at h
  by_contra hst
  simp [hst] at h

theorem exec_update_raises_or_not (n : BitVec 16) (time sr : F64) {s t : State}
    (h : exec (.update n time sr) s = .next t) :
    s.RaisesNothing (.update n time sr) t ∨ ∃ c, s.Raises (.update n time sr) t c := by
  rcases exec_update_cases n time sr s with ⟨c, k, hv, e⟩ | ⟨hv, -, e⟩ | ⟨hv, -, e⟩ <;> rw [e] at h <;> cases h
  · rw [raiseConfigError_eq]
    exact .inr ⟨c, ⟨n, time, sr, k, rfl, hv, faultOutcome_update_of_invalid hv time⟩, rfl, recordError_err ..⟩
  · exact .inl ⟨faultOutcome_update_of_valid hv time, rfl, id⟩
  · exact .inl ⟨faultOutcome_update_of_valid hv time, rfl, id⟩

/-- What a command does about ConfigError (60_exceptions.md R250). -/
theorem exec_raises_or_not {i : Instr} {s t : State} (h : exec i s = .next t) :
    s.RaisesNothing i t ∨ ∃ c, s.Raises i t c := by
  cases i with
  | update n time sr => exact exec_update_raises_or_not n time sr h
  | noteOn key time =>
    rcases exec_noteOn_cases key time s with ⟨-, e⟩ | ⟨-, -, e⟩ | ⟨-, -, e⟩ <;> rw [e] at h <;> cases h <;>
      exact .inl ⟨rfl, rfl, id⟩
  | noteOff key time =>
    rcases exec_noteOff_cases key time s with ⟨-, e⟩ | ⟨-, e⟩ <;> rw [e] at h <;> cases h <;>
      exact .inl ⟨rfl, rfl, id⟩
  | cfgWrite a w =>
    cases h
    rw [regWrite_eq]
    exact .inl ⟨rfl, rfl, id⟩
  | statusClear mask => cases h; exact .inl ⟨rfl, rfl, clearStatus_err_of_err⟩
  | reset => cases h; exact .inl ⟨rfl, rfl, nofun⟩
  | allNotesOff | cfgRead | outRead | nop | rsvd9 | rsvdA | rsvdB | rsvdC | rsvdD | rsvdE =>
    cases h; exact .inl ⟨rfl, rfl, id⟩

/-! ## Runs -/

/-- No step erases the fault log (60_exceptions.md R264). -/
theorem step_extends_faultLog {s t : State} (h : step s = .next t) : s.faultLog <+: t.faultLog := by
  rcases step_cases s with ⟨i, rest, -, e⟩ | ⟨rest, -, e⟩ | ⟨-, e⟩ <;> rw [e] at h
  · rcases exec_raises_or_not h with hno | ⟨c, hc⟩
    · rw [hno.log, State.take_faultLog]
    · exact ⟨[c], hc.log.symm⟩
  · cases h; exact ⟨[], List.append_nil _⟩
  · cases h; exact ⟨[], List.append_nil _⟩

theorem run_extends_faultLog {k : Nat} {s t : State} (h : Sys2Proof.core.run k s = .next t) :
    s.faultLog <+: t.faultLog := by
  induction k generalizing s with
  | zero => cases h; exact ⟨[], List.append_nil _⟩
  | succ k ih =>
    obtain ⟨u, hu, hk⟩ := run_succ_next h
    exact (step_extends_faultLog hu).trans (ih hk)

theorem run_add {j : Nat} {s u : State} (h : Sys2Proof.core.run j s = .next u) (k : Nat) :
    Sys2Proof.core.run (j + k) s = Sys2Proof.core.run k u := by
  induction j generalizing s with
  | zero => cases h; rw [Nat.zero_add]
  | succ j ih =>
    obtain ⟨v, hv, hj⟩ := run_succ_next h
    rw [Nat.add_right_comm, run_succ hv, ih hj]

/-- The step after the first `j` steps of a run. -/
theorem run_succ_of_run {j : Nat} {s u t : State} (hj : Sys2Proof.core.run j s = .next u)
    (hu : step u = .next t) : Sys2Proof.core.run (j + 1) s = .next t := by
  rw [run_add hj, run_succ hu]
  rfl

theorem step_update_logs {u : State} {n : BitVec 16} {time sr : F64} {rest : List PortInput} {c : Cause}
    {slot : BitVec 4} (hf : fetch u.inbox = .command (.update n time sr) rest)
    (hv : validate u n.toNat sr = some (c, slot)) :
    ∃ v, step u = .next v ∧ v.faultLog = u.faultLog ++ [c] :=
  ⟨_, (step_of_fetch_command hf).trans (exec_update_of_invalid (s := u.take rest) hv time), by
    rw [raiseConfigError_eq, State.take_faultLog]⟩

/-- A failed check on the way lengthens the log, which no later step shortens. -/
theorem validate_of_noConfigError {k j : Nat} {s t u : State} {n : BitVec 16} {time sr : F64}
    {rest : List PortInput} (hjk : j < k) (hk : Sys2Proof.core.run k s = .next t) (hlog : NoConfigError s t)
    (hj : Sys2Proof.core.run j s = .next u) (hf : fetch u.inbox = .command (.update n time sr) rest) :
    validate u n.toNat sr = none := by
  by_contra hne
  obtain ⟨⟨c, slot⟩, hv⟩ := Option.ne_none_iff_exists'.mp hne
  obtain ⟨v, hstep, hvlog⟩ := step_update_logs hf hv
  obtain ⟨m, rfl⟩ := Nat.exists_eq_add_of_le (Nat.succ_le_of_lt hjk)
  rw [run_add (run_succ_of_run hj hstep)] at hk
  have hbefore := (run_extends_faultLog hj).length_le
  have hafter := (run_extends_faultLog hk).length_le
  rw [show t.faultLog = s.faultLog from hlog, hvlog, List.length_append, List.length_singleton] at hafter
  omega

/-- A NOTE_ON sets VOICE_OVF or leaves a voice of its key. -/
theorem exec_noteOn_overflows_or_leaves_key (key : Key) (time : F64) (s : State) :
    ∃ t, exec (.noteOn key time) s = .next t ∧ (t.status.voiceOvf = true ∨ key ∈ t.voices.map Voice.key) := by
  by_cases h : key ∈ s.voices.map Voice.key ∨ s.voices.length < s.params.maxVoices
  · obtain ⟨t, ht, hk, -⟩ := exec_noteOn_leaves_key time h
    exact ⟨t, ht, .inr hk⟩
  · obtain ⟨hk, hl⟩ := not_or.mp h
    exact ⟨_, exec_noteOn_of_full time hk (not_lt.mp hl), .inl rfl⟩

theorem noteOn_leaves_key_of_noDroppedNote {k j : Nat} {s u : State} {key : Key} {time : F64}
    {rest : List PortInput} (hjk : j < k) (hdrop : NoDroppedNote s k) (hj : Sys2Proof.core.run j s = .next u)
    (hf : fetch u.inbox = .command (.noteOn key time) rest) :
    ∃ t : State, Sys2Proof.core.run (j + 1) s = .next t ∧ ∃ v ∈ t.voices, v.key = key := by
  obtain ⟨t, ht, h⟩ := exec_noteOn_overflows_or_leaves_key key time (u.take rest)
  have hrun := run_succ_of_run hj ((step_of_fetch_command hf).trans ht)
  have hovf : t.status.voiceOvf = false := hdrop (j + 1) hjk t hrun
  exact ⟨t, hrun, List.mem_map.mp (h.resolve_left (ne_true_of_eq_false hovf))⟩

/-- Settles O54: the two courses of a command for its first part, and the growing log and VOICE_OVF for the
premises of R264. -/
theorem onlyUpdateRaisesConfigError : Obligations.OnlyUpdateRaisesConfigError := by
  refine ⟨fun i s t h => ?_, fun _ _ _ _ _ _ _ _ _ hjk => validate_of_noConfigError hjk,
    fun _ _ _ _ _ _ _ hjk => noteOn_leaves_key_of_noDroppedNote hjk⟩
  rcases exec_raises_or_not h with hno | ⟨c, hc⟩
  · exact ⟨.inl ⟨hno.outcome, hno.log⟩, fun hs ht => absurd (hno.err ht) (ne_true_of_eq_false hs),
      fun _ hne => absurd hno.log hne⟩
  · obtain ⟨n, time, sr, k, hi, hv, hout⟩ := hc.update
    exact ⟨.inr ⟨n, time, sr, c, k, hi, hv, hout, hc.log⟩, fun _ _ => by simp [hc.log], fun _ _ => hc.err⟩

end Sys2Proof.Machine

/-! Reset and hazards (70_reset_and_hazards.md): `rst` before the end of a command, and the engine that waits for
beats. -/

namespace Sys2Proof.Machine

/-! ## `rst` and missing beats on the ports -/

theorem length_eq_of_decode {bs rest : List Word} {i : Instr} (h : decode bs = .command i rest) :
    bs.length = i.beats + rest.length := by
  cases bs with
  | nil => cases h
  | cons w bs =>
    obtain ⟨ops, rfl, hl, rfl⟩ := decode_eq_command h
    rw [Instr.beats, Opcode.opcode_command, List.length_cons, List.length_append, hl]
    omega

/-- The beats of an incomplete command, then `rst`. -/
theorem fetch_incomplete_append_rst {bs : List Word} {e : Incomplete} (h : decode bs = .incomplete e)
    (rest : List PortInput) : fetch (bs.map .beat ++ .rst :: rest) = .reset rest := by
  simp only [fetch, leadingBeats_map_append, leadingBeats, List.append_nil, h, afterRst_map_append, afterRst]

/-- The beats of one whole command, then `rst` during it. -/
theorem fetch_command_append_rstDuring {bs : List Word} {i : Instr} (h : decode bs = .command i [])
    (rest : List PortInput) : fetch (bs.map .beat ++ .rstDuring :: rest) = .reset rest := by
  have hdrop : (bs.map PortInput.beat ++ .rstDuring :: rest).drop i.beats = .rstDuring :: rest :=
    List.drop_left' ((List.length_map _).trans (length_eq_of_decode h))
  simp only [fetch, leadingBeats_map_append, leadingBeats, List.append_nil, h, hdrop, commandOrRst]

theorem fetch_incomplete {bs : List Word} {e : Incomplete} (h : decode bs = .incomplete e) :
    fetch (bs.map .beat) = .waiting := by
  simp only [fetch, leadingBeats_map, h, afterRst_map]

/-! ## The step -/

theorem step_of_fetch_reset {s : State} {rest : List PortInput} (h : fetch s.inbox = .reset rest) :
    step s = .next (resetByPin rest s) := by
  simp only [step, h]

theorem step_of_fetch_waiting {s : State} (h : fetch s.inbox = .waiting) : step s = .next s := by
  simp only [step, h]

/-- Taking `rst` is RESET's effect, which sends no response, with the queue behind `rst` left. -/
theorem step_resets_of_fetch_reset {s : State} {rest : List PortInput} (h : fetch s.inbox = .reset rest) :
    ∃ t : State, step s = .next { t with inbox := rest } ∧ exec .reset s = .next t ∧ t.responses = s.responses :=
  ⟨resetEngine s, step_of_fetch_reset h, exec_reset s, rfl⟩

/-- Settles O4: with too few beats, or with `rst` during the command, what the engine fetches is `rst`. -/
theorem rstPinDiscardsPartialCommand : Obligations.RstPinDiscardsPartialCommand :=
  fun _ _ rest =>
    ⟨fun _ hdec hq => step_resets_of_fetch_reset (hq ▸ fetch_incomplete_append_rst hdec rest),
      fun _ hdec hq => step_resets_of_fetch_reset (hq ▸ fetch_command_append_rstDuring hdec rest)⟩

/-- Settles O12: no beat, or a command word with operand beats missing, is an incomplete command. -/
theorem stepWaitsForMissingBeats : Obligations.StepWaitsForMissingBeats := by
  intro s bs hq hbs
  have hdec : ∃ e, decode bs = .incomplete e := by
    rcases hbs with rfl | ⟨w, ops, rfl, hl⟩
    · exact ⟨_, rfl⟩
    · exact ⟨_, decode_of_length_lt rfl hl⟩
  obtain ⟨e, he⟩ := hdec
  exact step_of_fetch_waiting (hq ▸ fetch_incomplete he)

end Sys2Proof.Machine
